-- ==== Sys2Proof/Word.lean ====
section
/-! DEFINITION. The bit strings the spec names (00_scope.md R9, R10, R18): byte, half word, word, and the
4-bit number of a general register (10_state.md R20). -/

namespace Sys2Proof

/-- 8 bits (R18). -/
abbrev Byte := BitVec 8

/-- 16 bits (R18); also the size of every instruction word (R90). -/
abbrev HalfWord := BitVec 16

/-- 32 bits (R18): a register value, an effective address, the program counter. -/
abbrev Word := BitVec 32

/-- The number of a general register, a 4-bit instruction field (R20). -/
abbrev RegId := BitVec 4

end Sys2Proof
end

