-- ==== Sys2Proof/Config.lean ====
section
/-! DEFINITION. The implementation parameters of 00_scope.md R7, as plain data, the values a machine has
right after reset for them, and the free values (R16), which have no body. -/

namespace Sys2Proof

/-- The two execution modes (10_state.md R31). -/
inductive Mode where
  | user
  | supervisor
deriving DecidableEq, Repr

namespace Config

/-- `BYTE_ORDER` (20_memory.md R64): order of the bytes of an access and of an instruction fetch. -/
inductive ByteOrder where
  | big
  | little
deriving DecidableEq, Repr

/-- `LINK_OFFSET` (43_branch_jump.md R186): what h.jal and h.jalr add to their address, 2 or 4. -/
inductive LinkOffset where
  | two
  | four
deriving DecidableEq, Repr

/-- `carry_policy` (42_arith.md R167). -/
inductive CarryPolicy where
  | conventional
  | havoc
deriving DecidableEq, Repr

/-- `PAIN_STORE_WIDTH` (49_load_store.md R304, R306). -/
inductive PainStoreWidth where
  | byMnemonic
  | byPageBody
deriving DecidableEq, Repr

/-- `PAIR_ALIAS` (10_state.md R30): where software reaches PAIR beside the post-increment instructions. -/
inductive PairAlias where
  | noAlias
  | generalRegister (k : RegId)
  | specialRegister (index : Word)
deriving DecidableEq, Repr

/-- The parameters `numerics.divs` and `numerics.mods` (46_muldiv_mac.md R239): truncation toward zero, the
spec's default, or some other function of the operands, which nothing here fixes. -/
inductive SignedNumerics where
  | truncate
  | given
deriving DecidableEq, Repr

/-- The two values of `spr_index` that a rule uses (10_state.md R32): `spr_index(0,3)` and `spr_index(0,4)`. -/
structure SprIndex where
  machi : Word
  maclo : Word
deriving DecidableEq, Repr

/-- The instructions an implementation may lack (00_scope.md R2, R8): classes 2 and 3. `sbpain` is one of
them only where the pages' class rows are read by page body (90_conflicts.md C11). -/
inductive OptionalInstr where
  | exths | exthz | extbs | extbz
  | movibse | mov
  | mas | mss | muls | mulu
  | jmp
  | sw | swpai | swpain | sbpain
  | mods | modu | divs | divu
deriving DecidableEq, Repr

/-- The parameters of 00_scope.md R7 that the instructions read. They are arguments of the model, not state
of the machine (10_state.md R35): no step changes them (DESIGN CHOICE: logs 1, 7). -/
structure Params where
  byteOrder      : ByteOrder
  /-- `LR_REG` (R28): the general register that is the link register, if any. -/
  lrReg          : Option RegId
  linkOffset     : LinkOffset
  /-- `OPC_MOV` (R109): the top byte that decodes as h.mov, if any. -/
  opcMov         : Option Byte
  /-- The class 2 and 3 instructions with `implemented = false` (R8). -/
  absent         : List OptionalInstr
  carryPolicy    : CarryPolicy
  divs           : SignedNumerics
  mods           : SignedNumerics
  /-- `none`: `spr_index` is not given (R213, R214). -/
  sprIndex       : Option SprIndex
  pairAlias      : PairAlias
  painStoreWidth : PainStoreWidth
deriving DecidableEq, Repr

/-- The parameters of the machine after reset: the defaults of R7. The four OPEN ones have no default; the
values here are the model's (DESIGN CHOICE, unsafe where a claim is about the run from reset: logs 4, 5, 6). -/
def resetParams : Params where
  byteOrder      := .big
  lrReg          := none
  linkOffset     := .two
  opcMov         := none
  absent         := []
  carryPolicy    := .conventional
  divs           := .truncate
  mods           := .truncate
  sprIndex       := some { machi := 3, maclo := 4 }
  pairAlias      := .noAlias
  painStoreWidth := .byMnemonic

/-- `RESET_PC` is OPEN (10_state.md R37): DESIGN CHOICE, unsafe (log 3). -/
def resetPc : Word := 0x00002000

/-- `RESET_MODE`: the spec's default (R31, R360). -/
def resetMode : Mode := .supervisor

/-- `any32` (00_scope.md R16): the k-th undetermined word. No body: nothing constrains it (DESIGN CHOICE: log 8). -/
opaque any32 : Nat → Word

/-- `any1` (R16): the k-th undetermined bit. No body. -/
opaque any1 : Nat → Bool

/-- `numerics.divs` where it is not truncation (R239): any function of dividend and divisor. No body
(DESIGN CHOICE: log 17). -/
opaque givenDivs : Word → Word → Word

/-- `numerics.mods` where it is not truncation (R239). No body. -/
opaque givenMods : Word → Word → Word

end Config

end Sys2Proof
end

