-- ==== Sys2Proof/Machine/Bytes.lean ====
section
/-! DEFINITION. Byte order (20_memory.md R62, R63, R64): how the bytes of memory make up a value, and the
bytes of a value. -/

namespace Sys2Proof.Machine

/-- The value whose bytes, the lowest address first, are `bs`, the first byte least significant (R62, little). -/
def ofBytesLittle : List Byte → Word
  | [] => 0
  | b :: bs => (ofBytesLittle bs <<< 8) ||| b.setWidth 32

/-- R62: `mem[addr] .. mem[addr+n-1]`, the lowest address first, as a value; zero in the bits above. -/
def ofBytes (o : Config.ByteOrder) (bs : List Byte) : Word :=
  match o with
  | .little => ofBytesLittle bs
  | .big => ofBytesLittle bs.reverse

/-- The low `n` bytes of `v`, the least significant first. -/
def toBytesLittle (n : Nat) (v : Word) : List Byte :=
  (List.range n).map fun i => v.extractLsb' (8 * i) 8

/-- R63: the low `n` bytes of `v` in the order they lie in memory, the lowest address first. -/
def toBytes (o : Config.ByteOrder) (n : Nat) (v : Word) : List Byte :=
  match o with
  | .little => toBytesLittle n v
  | .big => (toBytesLittle n v).reverse

end Sys2Proof.Machine
end

