-- ==== Sys2Proof/Syntax.lean ====
section
/-! DEFINITION. The 82 instructions of 30_encoding.md R104, one constructor per row of the opcode table, in
the table's order. Operands stand in the order of the assembler form (R113); a register operand is its 4-bit
number, an immediate its field (R111). -/

namespace Sys2Proof

inductive Instr where
  -- 40_compare.md
  | sfeq (a b : RegId)
  | sfne (a b : RegId)
  | sfgts (a b : RegId)
  | sfges (a b : RegId)
  | sflts (a b : RegId)
  | sfles (a b : RegId)
  | sfgtu (a b : RegId)
  | sfgeu (a b : RegId)
  | sfltu (a b : RegId)
  | sfleu (a b : RegId)
  -- 41_extend_nop.md
  | exths (a : RegId)
  | exthz (a : RegId)
  | extbs (a : RegId)
  | extbz (a : RegId)
  | nop
  -- 42_arith.md
  | adds (a b d : RegId)
  | subs (a b : RegId)
  | addu (a b : RegId)
  | subu (a b : RegId)
  | addwcs (a b : RegId)
  | subwcs (a b : RegId)
  | negs (a b : RegId)
  -- 43_branch_jump.md
  | bnf (x : BitVec 12)
  | bf (x : BitVec 12)
  | jal (x : BitVec 12)
  | jmp (x : BitVec 12)
  | jr (a : RegId)
  | jalr (a : RegId)
  -- 44_move.md
  | movibse (a : RegId) (m : BitVec 8)
  | movhibsl (a : RegId) (m : BitVec 8)
  | movhibse (a : RegId) (m : BitVec 8)
  | mov (a b : RegId)
  -- 45_system.md
  | brk (m : BitVec 8)
  | sys (m : BitVec 8)
  | rfe
  | mtsr (a b : RegId)
  | mfsr (a b : RegId)
  -- 46_muldiv_mac.md
  | mas (a b : RegId)
  | mss (a b : RegId)
  | mods (a b : RegId)
  | modu (a b : RegId)
  | muls (a b : RegId)
  | mulu (a b : RegId)
  | divs (a b : RegId)
  | divu (a b : RegId)
  -- 47_logic_shift.md
  | notu (a b : RegId)
  | xor (a b : RegId)
  | or (a b : RegId)
  | and (a b : RegId)
  | swapb (a b : RegId)
  | swaph (a b : RegId)
  | shlai (a : RegId) (l : BitVec 5)
  | shrai (a : RegId) (l : BitVec 5)
  | shrli (a : RegId) (l : BitVec 5)
  | shla (a b : RegId)
  | shra (a b : RegId)
  | shrl (a b : RegId)
  | ror (a b : RegId)
  | rol (a b : RegId)
  -- 48_bit.md
  | test (a b : RegId)
  | testi (a : RegId) (m : BitVec 5)
  | clr (a b : RegId)
  | clri (a : RegId) (m : BitVec 5)
  | set (a b : RegId)
  | seti (a : RegId) (m : BitVec 5)
  -- 49_load_store.md
  | lw (a : RegId) (n : BitVec 4) (b : RegId)
  | lhz (n : BitVec 4) (b : RegId)
  | lbz (n : BitVec 4) (b : RegId)
  | sw (n : BitVec 4) (a b : RegId)
  | sh (n : BitVec 4) (a : RegId)
  | sb (n : BitVec 4) (a : RegId)
  | lwpain (a : RegId) (n : BitVec 4)
  | lhzpain (a : RegId) (n : BitVec 4)
  | lbzpain (a : RegId) (n : BitVec 4)
  | lhspain (a : RegId) (n : BitVec 4)
  | lbspain (a : RegId) (n : BitVec 4)
  | swpai (a b : RegId)
  | shpai (a b : RegId)
  | sbpai (a b : RegId)
  | swpain (n : BitVec 4) (b : RegId)
  | shpain (n : BitVec 4) (b : RegId)
  | sbpain (n : BitVec 4) (b : RegId)
deriving DecidableEq, Repr

end Sys2Proof
end

