-- ==== Sys2Proof/Decode.lean ====
section
/-! DEFINITION. The decoder and the encoder of 30_encoding.md (R90 to R112), total on any word and on any
bytes, and the parameters that decide what a word is: `implemented` (00_scope.md R8) and `OPC_MOV` (R109). -/

namespace Sys2Proof

/-- Why some bytes are no instruction of the machine. -/
inductive DecodeError where
  /-- Fewer than the two bytes every instruction has (R90). -/
  | truncated
  /-- No row of R104 matches the word (R108). -/
  | reserved
  /-- The matching row is of class 2 or 3 and `implemented` is false (R8). -/
  | notImplemented
deriving DecidableEq, Repr

/-- The top bytes all of whose 256 words are reserved (R108). `OPC_MOV`, if given, must be one (R109; DEDUCED: log 15). -/
def isReservedTopByte (k : Byte) : Bool :=
  [0x4A, 0x50, 0x51, 0x52, 0x58, 0x59, 0x5A, 0x5B, 0x5C, 0x5D, 0x5E, 0x5F, 0x60, 0x61, 0x62,
    0x69, 0x6A, 0x6B, 0x6C, 0x6D, 0x6E, 0x6F, 0xD1, 0xD4, 0xD6, 0xDF, 0xE7, 0xE8, 0xE9].contains k

/-- The class 2 or 3 instruction that `i` is, if it is one (00_scope.md R2). The class rows of h.swpain and
h.sbpain go with their bodies (90_conflicts.md C11; DEDUCED: log 16). -/
def optionalOf (p : Config.Params) (i : Instr) : Option Config.OptionalInstr :=
  match i with
  | .exths .. => some .exths
  | .exthz .. => some .exthz
  | .extbs .. => some .extbs
  | .extbz .. => some .extbz
  | .movibse .. => some .movibse
  | .mov .. => some .mov
  | .mas .. => some .mas
  | .mss .. => some .mss
  | .muls .. => some .muls
  | .mulu .. => some .mulu
  | .jmp .. => some .jmp
  | .sw .. => some .sw
  | .swpai .. => some .swpai
  | .swpain .. => if p.painStoreWidth = .byMnemonic then some .swpain else none
  | .sbpain .. => if p.painStoreWidth = .byPageBody then some .sbpain else none
  | .mods .. => some .mods
  | .modu .. => some .modu
  | .divs .. => some .divs
  | .divu .. => some .divu
  | _ => none

/-- `implemented` (R8): every instruction of class 0, 1 or 4, and those of class 2 and 3 not listed absent. -/
def isImplemented (p : Config.Params) (i : Instr) : Bool :=
  match optionalOf p i with
  | none => true
  | some o => !p.absent.contains o

/-! ## The opcode map (R104), a word taken as its four nibbles, bits 15:12 first -/

/-- Top nibble 0x4 (R91, R92, R93, R94). -/
def decodeNibbles4 (n2 n1 n0 : BitVec 4) : Option Instr :=
  match n2 with
  | 0x0#4 => some (.sfeq n1 n0)
  | 0x1#4 => some (.sfne n1 n0)
  | 0x2#4 => some (.sfgts n1 n0)
  | 0x3#4 => some (.sfges n1 n0)
  | 0x4#4 => some (.sflts n1 n0)
  | 0x5#4 => some (.sfles n1 n0)
  | 0x6#4 => some (.sfgtu n1 n0)
  | 0x7#4 => some (.sfgeu n1 n0)
  | 0x8#4 => some (.sfltu n1 n0)
  | 0x9#4 => some (.sfleu n1 n0)
  | 0xB#4 =>
    match n0 with
    | 0x0#4 => some (.exths n1)
    | 0x1#4 => some (.exthz n1)
    | 0x2#4 => some (.extbs n1)
    | 0x3#4 => some (.extbz n1)
    | 0x4#4 => if n1 = 0x0#4 then some .nop else none
    | 0x5#4 => some (.jalr n1)
    | 0x6#4 => some (.jr n1)
    | _ => none
  | 0xC#4 => some (.muls n1 n0)
  | 0xD#4 => some (.mulu n1 n0)
  | 0xE#4 => some (.divs n1 n0)
  | 0xF#4 => some (.divu n1 n0)
  | _ => none

/-- Top nibble 0x5 (R102). -/
def decodeNibbles5 (n2 n1 n0 : BitVec 4) : Option Instr :=
  match n2 with
  | 0x3#4 => some (.lwpain n1 n0)
  | 0x4#4 => some (.lhzpain n1 n0)
  | 0x5#4 => some (.lbzpain n1 n0)
  | 0x6#4 => some (.lhspain n1 n0)
  | 0x7#4 => some (.lbspain n1 n0)
  | _ => none

/-- Top nibble 0x6 (R103). -/
def decodeNibbles6 (n2 n1 n0 : BitVec 4) : Option Instr :=
  match n2 with
  | 0x3#4 => some (.swpai n1 n0)
  | 0x4#4 => some (.shpai n1 n0)
  | 0x5#4 => some (.sbpai n1 n0)
  | 0x6#4 => some (.swpain n1 n0)
  | 0x7#4 => some (.shpain n1 n0)
  | 0x8#4 => some (.sbpain n1 n0)
  | _ => none

/-- Top nibble 0xD (R92, R94, R98). -/
def decodeNibblesD (n2 n1 n0 : BitVec 4) : Option Instr :=
  match n2 with
  | 0x0#4 => some (.brk (n1 ++ n0))
  | 0x2#4 => some (.mss n1 n0)
  | 0x3#4 => some (.mas n1 n0)
  | 0x5#4 => some (.mods n1 n0)
  | 0x7#4 => some (.modu n1 n0)
  | 0x8#4 => some (.sys (n1 ++ n0))
  | 0x9#4 => if n1 = 0x0#4 ∧ n0 = 0x0#4 then some .rfe else none
  | 0xA#4 => some (.shla n1 n0)
  | 0xB#4 => some (.ror n1 n0)
  | 0xC#4 => some (.shra n1 n0)
  | 0xD#4 => some (.rol n1 n0)
  | 0xE#4 => some (.shrl n1 n0)
  | _ => none

/-- Top nibble 0xE (R92, R99, R106). 0xE0 is h.notu, never h.mov (R109). -/
def decodeNibblesE (n2 n1 n0 : BitVec 4) : Option Instr :=
  match n2 with
  | 0x0#4 => some (.notu n1 n0)
  | 0x1#4 => some (.negs n1 n0)
  | 0x2#4 => some (.xor n1 n0)
  | 0x3#4 => some (.or n1 n0)
  | 0x4#4 => some (.and n1 n0)
  | 0x5#4 => some (.swapb n1 n0)
  | 0x6#4 => some (.swaph n1 n0)
  | 0xA#4 => some (.shlai n1 (0#1 ++ n0))
  | 0xB#4 => some (.shlai n1 (1#1 ++ n0))
  | 0xC#4 => some (.shrai n1 (0#1 ++ n0))
  | 0xD#4 => some (.shrai n1 (1#1 ++ n0))
  | 0xE#4 => some (.shrli n1 (0#1 ++ n0))
  | 0xF#4 => some (.shrli n1 (1#1 ++ n0))
  | _ => none

/-- Top nibble 0xF (R92, R99, R106). -/
def decodeNibblesF (n2 n1 n0 : BitVec 4) : Option Instr :=
  match n2 with
  | 0x0#4 => some (.subs n1 n0)
  | 0x1#4 => some (.addu n1 n0)
  | 0x2#4 => some (.subu n1 n0)
  | 0x3#4 => some (.addwcs n1 n0)
  | 0x4#4 => some (.subwcs n1 n0)
  | 0x5#4 => some (.test n1 n0)
  | 0x6#4 => some (.testi n1 (0#1 ++ n0))
  | 0x7#4 => some (.testi n1 (1#1 ++ n0))
  | 0x8#4 => some (.clri n1 (0#1 ++ n0))
  | 0x9#4 => some (.clri n1 (1#1 ++ n0))
  | 0xA#4 => some (.seti n1 (0#1 ++ n0))
  | 0xB#4 => some (.seti n1 (1#1 ++ n0))
  | 0xC#4 => some (.clr n1 n0)
  | 0xD#4 => some (.set n1 n0)
  | 0xE#4 => some (.mtsr n1 n0)
  | 0xF#4 => some (.mfsr n1 n0)
  | _ => none

/-- The instruction of R104 that the nibbles make, the pattern with more fixed bits winning (R107): h.lhz and
h.lbz over h.lw, h.sh and h.sb over h.sw. -/
def decodeNibbles (n3 n2 n1 n0 : BitVec 4) : Option Instr :=
  match n3 with
  | 0x0#4 =>
    match n1 with
    | 0x8#4 => some (.lhz n2 n0)
    | 0x9#4 => some (.lbz n2 n0)
    | _ => some (.lw n1 n2 n0)
  | 0x1#4 =>
    match n0 with
    | 0x8#4 => some (.sh n2 n1)
    | 0x9#4 => some (.sb n2 n1)
    | _ => some (.sw n2 n1 n0)
  | 0x2#4 => some (.movhibsl n1 (n2 ++ n0))
  | 0x3#4 => some (.movhibse n1 (n2 ++ n0))
  | 0x4#4 => decodeNibbles4 n2 n1 n0
  | 0x5#4 => decodeNibbles5 n2 n1 n0
  | 0x6#4 => decodeNibbles6 n2 n1 n0
  | 0x7#4 => some (.adds n1 n0 n2)
  | 0x8#4 => some (.jmp (n2 ++ n1 ++ n0))
  | 0x9#4 => some (.jal (n2 ++ n1 ++ n0))
  | 0xA#4 => some (.bnf (n2 ++ n1 ++ n0))
  | 0xB#4 => some (.bf (n2 ++ n1 ++ n0))
  | 0xC#4 => some (.movibse n1 (n2 ++ n0))
  | 0xD#4 => decodeNibblesD n2 n1 n0
  | 0xE#4 => decodeNibblesE n2 n1 n0
  | _ => decodeNibblesF n2 n1 n0

/-- The word whose nibbles are `n3 n2 n1 n0`, bits 15:12 first. -/
def ofNibbles (n3 n2 n1 n0 : BitVec 4) : HalfWord :=
  n3 ++ n2 ++ n1 ++ n0

/-- Is the word one of h.mov under this `OPC_MOV` (R109)? -/
def isMovWord (opcMov : Option Byte) (w : HalfWord) : Bool :=
  opcMov = some (w.extractLsb' 8 8) && isReservedTopByte (w.extractLsb' 8 8)

/-- R112: the row of R104 that a word matches, `OPC_MOV` adding the row of h.mov (R109). -/
def decodeRow (opcMov : Option Byte) (w : HalfWord) : Option Instr :=
  if isMovWord opcMov w then
    some (.mov (w.extractLsb' 4 4) (w.extractLsb' 0 4))
  else
    decodeNibbles (w.extractLsb' 12 4) (w.extractLsb' 8 4) (w.extractLsb' 4 4) (w.extractLsb' 0 4)

/-- The instruction of this machine that a word is (R112, R8). -/
def decodeWord (p : Config.Params) (w : HalfWord) : Except DecodeError Instr :=
  match decodeRow p.opcMov w with
  | none => .error .reserved
  | some i => if isImplemented p i then .ok i else .error .notImplemented

/-- Two bytes in memory order as an instruction word (20_memory.md R67). -/
def halfWordOfBytes (o : Config.ByteOrder) (b0 b1 : Byte) : HalfWord :=
  (Machine.ofBytes o [b0, b1]).setWidth 16

/-- Decoding of a byte string, the lowest address first: the instruction and the bytes after it (R90). -/
def decodeBytes (p : Config.Params) : List Byte → Except DecodeError (Instr × List Byte)
  | b0 :: b1 :: rest =>
    match decodeWord p (halfWordOfBytes p.byteOrder b0 b1) with
    | .ok i => .ok (i, rest)
    | .error e => .error e
  | _ => .error .truncated

/-- What the decoder reads, under the parameters after reset, from the instruction whose low `nbits` bits
are those of `w` and whose bits above are 0 (DESIGN CHOICE: log 21). -/
def decodeTableWord (nbits w : Nat) : Option Instr :=
  let h : Word := BitVec.ofNat 32 (w % 2 ^ nbits)
  match decodeBytes Config.resetParams (Machine.toBytes Config.resetParams.byteOrder 2 h) with
  | .ok (i, _) => some i
  | .error _ => none

/-! ## The encoder, from the formats R92 to R103 -/

/-- Format RI5 (R99, R106): `top` is the 7-bit opcode's low three bits, `imm[4]` completes the nibble. -/
def encodeRI5 (n3 : BitVec 4) (top : BitVec 3) (a : RegId) (imm : BitVec 5) : HalfWord :=
  ofNibbles n3 (top ++ imm.extractLsb' 4 1) a (imm.extractLsb' 0 4)

/-- Format RI8 (R97). -/
def encodeRI8 (n3 : BitVec 4) (a : RegId) (m : BitVec 8) : HalfWord :=
  ofNibbles n3 (m.extractLsb' 4 4) a (m.extractLsb' 0 4)

/-- Format I8 (R98). -/
def encodeI8 (n3 n2 : BitVec 4) (m : BitVec 8) : HalfWord :=
  ofNibbles n3 n2 (m.extractLsb' 4 4) (m.extractLsb' 0 4)

/-- Format J12 (R96). -/
def encodeJ12 (n3 : BitVec 4) (x : BitVec 12) : HalfWord :=
  ofNibbles n3 (x.extractLsb' 8 4) (x.extractLsb' 4 4) (x.extractLsb' 0 4)

/-- The word of an instruction (R104); `none` only for h.mov without an `OPC_MOV` to encode it (R203). -/
def encode (p : Config.Params) (i : Instr) : Option HalfWord :=
  match i with
  | .sfeq a b => some (ofNibbles 0x4 0x0 a b)
  | .sfne a b => some (ofNibbles 0x4 0x1 a b)
  | .sfgts a b => some (ofNibbles 0x4 0x2 a b)
  | .sfges a b => some (ofNibbles 0x4 0x3 a b)
  | .sflts a b => some (ofNibbles 0x4 0x4 a b)
  | .sfles a b => some (ofNibbles 0x4 0x5 a b)
  | .sfgtu a b => some (ofNibbles 0x4 0x6 a b)
  | .sfgeu a b => some (ofNibbles 0x4 0x7 a b)
  | .sfltu a b => some (ofNibbles 0x4 0x8 a b)
  | .sfleu a b => some (ofNibbles 0x4 0x9 a b)
  | .exths a => some (ofNibbles 0x4 0xB a 0x0)
  | .exthz a => some (ofNibbles 0x4 0xB a 0x1)
  | .extbs a => some (ofNibbles 0x4 0xB a 0x2)
  | .extbz a => some (ofNibbles 0x4 0xB a 0x3)
  | .nop => some 0x4B04
  | .adds a b d => some (ofNibbles 0x7 d a b)
  | .subs a b => some (ofNibbles 0xF 0x0 a b)
  | .addu a b => some (ofNibbles 0xF 0x1 a b)
  | .subu a b => some (ofNibbles 0xF 0x2 a b)
  | .addwcs a b => some (ofNibbles 0xF 0x3 a b)
  | .subwcs a b => some (ofNibbles 0xF 0x4 a b)
  | .negs a b => some (ofNibbles 0xE 0x1 a b)
  | .bnf x => some (encodeJ12 0xA x)
  | .bf x => some (encodeJ12 0xB x)
  | .jal x => some (encodeJ12 0x9 x)
  | .jmp x => some (encodeJ12 0x8 x)
  | .jr a => some (ofNibbles 0x4 0xB a 0x6)
  | .jalr a => some (ofNibbles 0x4 0xB a 0x5)
  | .movibse a m => some (encodeRI8 0xC a m)
  | .movhibsl a m => some (encodeRI8 0x2 a m)
  | .movhibse a m => some (encodeRI8 0x3 a m)
  | .mov a b =>
    match p.opcMov with
    | some k => if isReservedTopByte k then some (ofNibbles (k.extractLsb' 4 4) (k.extractLsb' 0 4) a b) else none
    | none => none
  | .brk m => some (encodeI8 0xD 0x0 m)
  | .sys m => some (encodeI8 0xD 0x8 m)
  | .rfe => some 0xD900
  | .mtsr a b => some (ofNibbles 0xF 0xE a b)
  | .mfsr a b => some (ofNibbles 0xF 0xF a b)
  | .mas a b => some (ofNibbles 0xD 0x3 a b)
  | .mss a b => some (ofNibbles 0xD 0x2 a b)
  | .mods a b => some (ofNibbles 0xD 0x5 a b)
  | .modu a b => some (ofNibbles 0xD 0x7 a b)
  | .muls a b => some (ofNibbles 0x4 0xC a b)
  | .mulu a b => some (ofNibbles 0x4 0xD a b)
  | .divs a b => some (ofNibbles 0x4 0xE a b)
  | .divu a b => some (ofNibbles 0x4 0xF a b)
  | .notu a b => some (ofNibbles 0xE 0x0 a b)
  | .xor a b => some (ofNibbles 0xE 0x2 a b)
  | .or a b => some (ofNibbles 0xE 0x3 a b)
  | .and a b => some (ofNibbles 0xE 0x4 a b)
  | .swapb a b => some (ofNibbles 0xE 0x5 a b)
  | .swaph a b => some (ofNibbles 0xE 0x6 a b)
  | .shlai a l => some (encodeRI5 0xE 0b101 a l)
  | .shrai a l => some (encodeRI5 0xE 0b110 a l)
  | .shrli a l => some (encodeRI5 0xE 0b111 a l)
  | .shla a b => some (ofNibbles 0xD 0xA a b)
  | .shra a b => some (ofNibbles 0xD 0xC a b)
  | .shrl a b => some (ofNibbles 0xD 0xE a b)
  | .ror a b => some (ofNibbles 0xD 0xB a b)
  | .rol a b => some (ofNibbles 0xD 0xD a b)
  | .test a b => some (ofNibbles 0xF 0x5 a b)
  | .testi a m => some (encodeRI5 0xF 0b011 a m)
  | .clr a b => some (ofNibbles 0xF 0xC a b)
  | .clri a m => some (encodeRI5 0xF 0b100 a m)
  | .set a b => some (ofNibbles 0xF 0xD a b)
  | .seti a m => some (encodeRI5 0xF 0b101 a m)
  | .lw a n b => some (ofNibbles 0x0 n a b)
  | .lhz n b => some (ofNibbles 0x0 n 0x8 b)
  | .lbz n b => some (ofNibbles 0x0 n 0x9 b)
  | .sw n a b => some (ofNibbles 0x1 n a b)
  | .sh n a => some (ofNibbles 0x1 n a 0x8)
  | .sb n a => some (ofNibbles 0x1 n a 0x9)
  | .lwpain a n => some (ofNibbles 0x5 0x3 a n)
  | .lhzpain a n => some (ofNibbles 0x5 0x4 a n)
  | .lbzpain a n => some (ofNibbles 0x5 0x5 a n)
  | .lhspain a n => some (ofNibbles 0x5 0x6 a n)
  | .lbspain a n => some (ofNibbles 0x5 0x7 a n)
  | .swpai a b => some (ofNibbles 0x6 0x3 a b)
  | .shpai a b => some (ofNibbles 0x6 0x4 a b)
  | .sbpai a b => some (ofNibbles 0x6 0x5 a b)
  | .swpain n b => some (ofNibbles 0x6 0x6 n b)
  | .shpain n b => some (ofNibbles 0x6 0x7 n b)
  | .sbpain n b => some (ofNibbles 0x6 0x8 n b)

end Sys2Proof
end

