-- ==== Sys2Proof/Machine/State.lean ====
section
/-! DEFINITION. The state of the OR16 (10_state.md), why a step can stop, and the state after reset. -/

namespace Sys2Proof.Machine

/-- Addresses `base .. base + size - 1` that hold memory (20_memory.md R66). -/
structure Region where
  base : Nat
  size : Nat
deriving DecidableEq, Repr

/-- The address space (R33, R60, R66, R76). `cells` lists bytes by address in one canonical form
(`Memory.wf`); an admitted byte it does not list reads as `Memory.blankByte`. -/
structure Memory where
  /-- Which addresses hold memory: the launch memory's set (R66). No instruction changes it. -/
  admitted : List Region
  cells    : List Host.Cell
  /-- The addresses the running program has stored to since launch, strictly rising (R76). -/
  stored   : List Nat
deriving DecidableEq, Repr

/-- The machine's state: every piece 10_state.md names (R20 to R34), and two fields of the model's own. -/
structure State where
  /-- r0 .. r15 (R20). -/
  regs   : Vector Word 16
  /-- The address of the instruction being executed (R22). -/
  pc     : Word
  /-- The pending target of a delayed jump (R34). -/
  delay  : Option Word
  /-- The compare flag F (R25). -/
  f      : Bool
  /-- CARRY (R26). -/
  cy     : Bool
  /-- The divisor flag (R27). -/
  divf   : Bool
  /-- The link register's own cell (R28); read and written through `State.readLink`, `State.writeLink`. -/
  lr     : Word
  /-- PAIR's own cell (R30); read and written through `State.readPair`, `State.writePair`. -/
  pair   : Word
  /-- Bits 63:32 of the accumulator (R29). -/
  machi  : Word
  /-- Bits 31:0 of the accumulator (R29). -/
  maclo  : Word
  /-- R31. -/
  mode   : Mode
  mem    : Memory
  /-- The model's own: the parameters of 00_scope.md R7. No step changes them. -/
  params : Config.Params
  /-- The model's own: how many free values (R16) have been drawn. -/
  draws  : Nat
deriving DecidableEq, Repr

/-- The model stops because the spec gives no meaning to what the hardware does (00_scope.md R14, 60_exceptions.md
R321). Each is safe: nothing can be proved of what lies beyond it. -/
inductive Fault where
  /-- Fetch with an odd pc (20_memory.md R67). Raised by the fetch. Safe. -/
  | oddPc
  /-- "Stuck": an access that touches a byte outside the launch memory (R66; DESIGN CHOICE: log 14). Raised by the
  fetch and by every load and store. Safe. -/
  | outsideMemory
  /-- Fetch of a byte the program has stored to (R76). Raised by the fetch. Safe. -/
  | fetchOfModifiedCode
  /-- A word that matches no row, or whose instruction is not implemented (30_encoding.md R108, 00_scope.md R8).
  Raised by the step. Safe. -/
  | reservedEncoding
  /-- h.rfe, h.mtsr or h.mfsr in User mode (60_exceptions.md R331). Raised by those three. Safe. -/
  | privilegedInUserMode
  /-- A branch, jump or trap instruction in a delay slot (43_branch_jump.md R187). Raised by those eight. Safe. -/
  | controlTransferInDelaySlot
  /-- h.jr or h.jalr to an odd address (R188). Raised by those two. Safe. -/
  | oddJumpTarget
  /-- A 2-byte access at an odd address, a 4-byte access at no multiple of 4 (R65). Raised by loads and stores.
  Safe. -/
  | misaligned
deriving DecidableEq, Repr

/-- The model declines an instruction that decodes (00_scope.md R15). Each is safe. -/
inductive Refusal where
  /-- The model gives this instruction no meaning yet. Raised by no arm of `exec`. Safe. -/
  | notModelled (mnemonic : String)
  /-- A class 0 instruction: an encoding and a mnemonic, no semantics (R8, R15). Raised by h.movhibsl,
  h.movhibse, h.lhspain, h.lbspain. Safe. -/
  | noSemantics (mnemonic : String)
  /-- A write to a special register the source does not name (45_system.md R213). Raised by h.mtsr. Safe. -/
  | writeOfUnnamedSpecialRegister
  /-- A read of a special register the source does not name (45_system.md R214). Raised by h.mfsr. Safe. -/
  | readOfUnnamedSpecialRegister
deriving DecidableEq, Repr

/-- What a meaning answers. -/
abbrev Result := Host.Outcome State Fault Refusal

/-- The launch memory that admits the whole address space (R60) and lists nothing (DESIGN CHOICE, unsafe: log 9). -/
def Memory.blank : Memory where
  admitted := [{ base := 0, size := 2 ^ 32 }]
  cells    := []
  stored   := []

/-- The state after reset under given parameters (R37, R360). `delay` is as the spec says; registers, flags and
accumulator, which it leaves unspecified, are 0 (DESIGN CHOICE, unsafe: log 2). -/
def State.resetWith (p : Config.Params) (pc : Word) (mode : Mode) : State where
  regs   := Vector.replicate 16 0
  pc     := pc
  delay  := none
  f      := false
  cy     := false
  divf   := false
  lr     := 0
  pair   := 0
  machi  := 0
  maclo  := 0
  mode   := mode
  mem    := Memory.blank
  params := p
  draws  := 0

/-- The machine right after reset (R360): RESET_MODE is the spec's default, RESET_PC and the OPEN parameters are
the model's (logs 3 to 6). -/
def State.reset : State :=
  State.resetWith Config.resetParams Config.resetPc Config.resetMode

end Sys2Proof.Machine
end

