-- ==== Sys2Proof/Machine/Ops.lean ====
section
/-! DEFINITION. The named operations over registers, memory, the program counter and the modes, each said once:
every read and write of a piece of state goes through them. -/

namespace Sys2Proof.Machine

/-! ## General registers -/

/-- `x[r]` (10_state.md R20). No register is hard-wired. -/
def State.getReg (s : State) (r : RegId) : Word :=
  s.regs[r.toNat]'(r.isLt)

/-- `x[r] <- v` (R20). -/
def State.setReg (s : State) (r : RegId) (v : Word) : State :=
  { s with regs := s.regs.set r.toNat v r.isLt }

/-! ## Link register, PAIR, accumulator, flag -/

/-- LR (R28): the general register `LR_REG` names, else its own cell (DEDUCED: log 11). -/
def State.readLink (s : State) : Word :=
  match s.params.lrReg with
  | some k => s.getReg k
  | none => s.lr

/-- `LR <- v` (R28). -/
def State.writeLink (s : State) (v : Word) : State :=
  match s.params.lrReg with
  | some k => s.setReg k v
  | none => { s with lr := v }

/-- PAIR (R30): the general register `PAIR_ALIAS` names, else its own cell (DEDUCED: log 12). -/
def State.readPair (s : State) : Word :=
  match s.params.pairAlias with
  | .generalRegister k => s.getReg k
  | _ => s.pair

/-- `PAIR <- v` (R30). -/
def State.writePair (s : State) (v : Word) : State :=
  match s.params.pairAlias with
  | .generalRegister k => s.setReg k v
  | _ => { s with pair := v }

/-- `MACHI ++ MACLO` (R29). -/
def State.accumulator (s : State) : BitVec 64 :=
  s.machi ++ s.maclo

/-- `MACHI <- acc[63:32] ; MACLO <- acc[31:0]` (46_muldiv_mac.md R230, R231). -/
def State.setAccumulator (s : State) (acc : BitVec 64) : State :=
  { s with machi := acc.extractLsb' 32 32, maclo := acc.extractLsb' 0 32 }

/-- `F <- b` (R25). -/
def State.setFlag (s : State) (b : Bool) : State :=
  { s with f := b }

/-! ## Free values -/

/-- `any32` (00_scope.md R16): a value nothing constrains, and the state that has drawn it. -/
def State.drawWord (s : State) : Word × State :=
  (Config.any32 s.draws, { s with draws := s.draws + 1 })

/-- `any1` (R16). -/
def State.drawBit (s : State) : Bool × State :=
  (Config.any1 s.draws, { s with draws := s.draws + 1 })

/-! ## Program counter -/

/-- The PC update of an instruction that transfers no control (10_state.md R23, R24): the pending target if
there is one, else `pc + 2` modulo 2^32. -/
def State.advance (s : State) : State :=
  { s with pc := s.delay.getD (s.pc + 2), delay := none }

/-- A conditional branch with no delay slot (43_branch_jump.md R180, R181). In a delay slot it faults, taken or
not (R187). -/
def State.branch (taken : Bool) (target : Word) (s : State) : Result :=
  match s.delay with
  | some _ => .fault .controlTransferInDelaySlot
  | none => .next (if taken then { s with pc := target } else s.advance)

/-- A jump with one delay slot (R182 to R185): the instruction at `pc + 2` executes next, then the target's.
In a delay slot it faults (R187). -/
def State.delayedJump (target : Word) (s : State) : Result :=
  match s.delay with
  | some _ => .fault .controlTransferInDelaySlot
  | none => .next { s with delay := some target, pc := s.pc + 2 }

/-- A delayed jump to the value of a register, which faults if it is odd (R184, R185, R188). The check for a
delay slot comes first (60_exceptions.md R327). -/
def State.delayedJumpToRegister (target : Word) (s : State) : Result :=
  match s.delay with
  | some _ => .fault .controlTransferInDelaySlot
  | none => if target.getLsbD 0 then .fault .oddJumpTarget else s.delayedJump target

/-- What h.jal and h.jalr add to their own address (R186). -/
def linkOffset (p : Config.Params) : Word :=
  match p.linkOffset with
  | .two => 2
  | .four => 4

/-- `LR <- pc + LINK_OFFSET` (R182, R185, R186). -/
def State.link (s : State) : State :=
  s.writeLink (s.pc + linkOffset s.params)

/-! ## Exceptions -/

/-- The exceptions of the source (60_exceptions.md R320). -/
inductive Exc where
  | systemCall
  | breakpoint
deriving DecidableEq, Repr

/-- The fixed handler addresses (R320, 20_memory.md R72). -/
def Exc.vector : Exc → Word
  | .systemCall => 0x00000C00
  | .breakpoint => 0x00000D00

/-- TAKING AN EXCEPTION (R323, R324): Supervisor mode, the pc at the handler, nothing saved; in a delay slot a
fault (R187). -/
def State.takeException (e : Exc) (s : State) : Result :=
  match s.delay with
  | some _ => .fault .controlTransferInDelaySlot
  | none => .next { s with mode := .supervisor, pc := e.vector, delay := none }

/-- RETURN FROM EXCEPTION (45_system.md R212, 60_exceptions.md R328): User mode, nothing restored, the pc as for
any instruction that transfers no control. -/
def State.returnFromException (s : State) : State :=
  { s with mode := .user }.advance

/-- The privilege check of h.rfe, h.mtsr and h.mfsr (R331): in User mode they fault. -/
def State.privileged (s : State) (r : Result) : Result :=
  match s.mode with
  | .user => .fault .privilegedInUserMode
  | .supervisor => r

/-! ## Memory: bytes -/

/-- What an admitted byte that is not listed reads as (DESIGN CHOICE, unsafe: log 9). -/
def Memory.blankByte : Byte := 0

/-- Does this region hold the address? -/
def Region.holds (r : Region) (a : Nat) : Bool :=
  r.base ≤ a && a < r.base + r.size

/-- Does the launch memory admit the byte (20_memory.md R66)? -/
def Memory.isAdmitted (m : Memory) (a : Nat) : Bool :=
  m.admitted.any fun r => r.holds a

/-- Does it admit the `n` bytes from `a` on? -/
def Memory.admits (m : Memory) (a n : Nat) : Bool :=
  (List.range n).all fun i => m.isAdmitted (a + i)

/-- The byte listed for an address, or the blank byte. -/
def lookupCell (a : Nat) : List Host.Cell → Byte
  | [] => Memory.blankByte
  | c :: cs => if c.1 = a then c.2 else lookupCell a cs

/-- Put a byte at its place in a list of cells in canonical form; a blank byte is not listed. -/
def putCell (a : Nat) (b : Byte) : List Host.Cell → List Host.Cell
  | [] => if b = Memory.blankByte then [] else [(a, b)]
  | c :: cs =>
    if a < c.1 then (if b = Memory.blankByte then c :: cs else (a, b) :: c :: cs)
    else if a = c.1 then (if b = Memory.blankByte then cs else (a, b) :: cs)
    else c :: putCell a b cs

/-- Put an address at its place in a strictly rising list. -/
def insertAddress (a : Nat) : List Nat → List Nat
  | [] => [a]
  | k :: ks => if a < k then a :: k :: ks else if a = k then k :: ks else k :: insertAddress a ks

/-- `mem[a]` (R60). -/
def Memory.byteAt (m : Memory) (a : Nat) : Byte :=
  lookupCell a m.cells

/-- `mem[a] <- b` by the running program: the byte is remembered as stored to (R76; DEDUCED: log 22). -/
def Memory.setByte (m : Memory) (a : Nat) (b : Byte) : Memory :=
  { m with cells := putCell a b m.cells, stored := insertAddress a m.stored }

/-- The `n` bytes from `a` on. -/
def Memory.readBytes (m : Memory) (a n : Nat) : List Byte :=
  (List.range n).map fun i => m.byteAt (a + i)

/-- Store bytes from `a` on. -/
def Memory.writeBytes (m : Memory) (a : Nat) : List Byte → Memory
  | [] => m
  | b :: bs => (m.setByte a b).writeBytes (a + 1) bs

/-- The canonical form: listed addresses strictly rising, admitted and inside the space, no blank byte listed;
the same of the addresses stored to; the regions inside the space. -/
abbrev Memory.wf (m : Memory) : Prop :=
  (m.cells.map Prod.fst).Pairwise (· < ·) ∧
  (∀ c ∈ m.cells, c.2 ≠ Memory.blankByte ∧ m.isAdmitted c.1 = true) ∧
  m.stored.Pairwise (· < ·) ∧
  (∀ a ∈ m.stored, m.isAdmitted a = true) ∧
  (∀ r ∈ m.admitted, r.base + r.size ≤ 2 ^ 32)

/-! ## Memory: accesses -/

/-- The widths of a memory access (R68). -/
inductive Width where
  | byte
  | half
  | word
deriving DecidableEq, Repr

/-- Bytes of an access (R68). -/
def Width.bytes : Width → Nat
  | .byte => 1
  | .half => 2
  | .word => 4

/-- The left shift that scales an offset or increment to the access (49_load_store.md, template). -/
def Width.scale : Width → Nat
  | .byte => 0
  | .half => 1
  | .word => 2

/-- Why an access at `ea` has no effect, if it has none: misaligned (R65), then outside the launch memory (R66)
(DEDUCED: log 20). -/
def Memory.accessFault (m : Memory) (w : Width) (ea : Word) : Option Fault :=
  if ea.toNat % w.bytes ≠ 0 then some .misaligned
  else if m.admits ea.toNat w.bytes then none
  else some .outsideMemory

/-- `zext_32(MemRead(ea, n))` (R62, R65, R66). -/
def State.memRead (s : State) (w : Width) (ea : Word) : Except Fault Word :=
  match s.mem.accessFault w ea with
  | some e => .error e
  | none => .ok (ofBytes s.params.byteOrder (s.mem.readBytes ea.toNat w.bytes))

/-- `MemWrite(ea, n, v)` (R63, R65, R66): all the bytes or, on a fault, none. -/
def State.memWrite (s : State) (w : Width) (ea v : Word) : Except Fault State :=
  match s.mem.accessFault w ea with
  | some e => .error e
  | none => .ok { s with mem := s.mem.writeBytes ea.toNat (toBytes s.params.byteOrder w.bytes v) }

/-- `Fetch16(pc)` (R67, R76), its checks in the order of 60_exceptions.md R327. -/
def State.fetch16 (s : State) : Except Fault HalfWord :=
  if s.pc.toNat % 2 ≠ 0 then .error .oddPc
  else if s.mem.admits s.pc.toNat 2 then
    if s.mem.stored.contains s.pc.toNat || s.mem.stored.contains (s.pc.toNat + 1) then .error .fetchOfModifiedCode
    else .ok ((ofBytes s.params.byteOrder (s.mem.readBytes s.pc.toNat 2)).setWidth 16)
  else .error .outsideMemory

/-! ## Placing a program from outside the machine (70_reset_and_hazards.md R361) -/

/-- A byte as part of the launch memory: admitted, with this content, not stored to by the program. -/
def Memory.placeByte (m : Memory) (a : Nat) (b : Byte) : Memory where
  admitted := if m.isAdmitted a then m.admitted else m.admitted ++ [{ base := a, size := 1 }]
  cells    := putCell a b m.cells
  stored   := m.stored.filter (· ≠ a)

/-- Bytes of the launch memory from `a` on. -/
def Memory.placeBytes (m : Memory) (a : Nat) : List Byte → Memory
  | [] => m
  | b :: bs => (m.placeByte a b).placeBytes (a + 1) bs

/-! ## Special registers -/

/-- The registers h.mtsr and h.mfsr can reach: the two the source names (10_state.md R32), and PAIR where
`PAIR_ALIAS` says so (R30). -/
inductive SpecialReg where
  | machi
  | maclo
  | pair
deriving DecidableEq, Repr

/-- The special register of an index (45_system.md R213, R214); none while `spr_index` is not given. Where indexes
coincide MACHI comes first, then MACLO, then PAIR (DEDUCED: log 13). -/
def specialRegOf (p : Config.Params) (i : Word) : Option SpecialReg :=
  match p.sprIndex with
  | none => none
  | some x =>
    if i = x.machi then some .machi
    else if i = x.maclo then some .maclo
    else match p.pairAlias with
      | .specialRegister j => if i = j then some .pair else none
      | _ => none

/-- The value of a special register (R214). -/
def State.readSpecial (s : State) : SpecialReg → Word
  | .machi => s.machi
  | .maclo => s.maclo
  | .pair => s.readPair

/-- Write of a special register (R213). -/
def State.writeSpecial (s : State) (r : SpecialReg) (v : Word) : State :=
  match r with
  | .machi => { s with machi := v }
  | .maclo => { s with maclo := v }
  | .pair => s.writePair v

end Sys2Proof.Machine
end

