-- ==== Sys2Proof/Machine/Operands.lean ====
section
/-! DEFINITION. Operand forms: the immediates of 30_encoding.md R111 and the effective addresses of
43_branch_jump.md and 49_load_store.md. -/

namespace Sys2Proof.Machine

/-- `sext_32(X ++ 0b0)`: the byte displacement of a PC-relative form (R111). -/
def displacement (x : BitVec 12) : Word :=
  (x ++ 0#1).signExtend 32

/-- `pc + sext_32(X ++ 0b0)` (R180 to R183). -/
def State.relativeTarget (s : State) (x : BitVec 12) : Word :=
  s.pc + displacement x

/-- `sN` scaled to the access: a load or store offset, or a PAIR increment (R111). -/
def scaledOffset (w : Width) (n : BitVec 4) : Word :=
  n.signExtend 32 <<< w.scale

/-- Register base plus scaled offset (R290 to R295). -/
def State.baseOffset (s : State) (w : Width) (base : RegId) (n : BitVec 4) : Word :=
  s.getReg base + scaledOffset w n

/-- `rB[4:0]`, the amount of a shift or rotate by register (R259 to R264). -/
def shiftAmount (v : Word) : Nat :=
  (v.extractLsb' 0 5).toNat

/-- The data register of h.lhz and h.sh (R291, R294). -/
def halfRegister : RegId := 8

/-- The data register of h.lbz and h.sb (R292, R295). -/
def byteRegister : RegId := 9

/-- The width of the store with top byte 0x66, h.swpain (R304). -/
def swpainWidth (p : Config.Params) : Width :=
  match p.painStoreWidth with
  | .byMnemonic => .word
  | .byPageBody => .byte

/-- The width of the store with top byte 0x68, h.sbpain (R306). -/
def sbpainWidth (p : Config.Params) : Width :=
  match p.painStoreWidth with
  | .byMnemonic => .byte
  | .byPageBody => .word

end Sys2Proof.Machine
end

