-- ==== Sys2Proof/Machine/Flags.lean ====
section
/-! DEFINITION. Flag computations: CARRY (42_arith.md R167), the divisor flag (46_muldiv_mac.md R238), and the
values the ten compares put into F (40_compare.md). -/

namespace Sys2Proof.Machine

/-- The 33-bit sum `u(a) + u(b) + c`, and from it result and carry out of bit 31 (R164, R167). -/
def addWithCarry (a b : Word) (c : Bool) : Word × Bool :=
  let t := a.toNat + b.toNat + c.toNat
  (BitVec.ofNat 32 t, decide (2 ^ 32 ≤ t))

/-- `u(a) + u(NOT b) + c`: `a - b + c - 1`, the carry 1 when there is no borrow (R165, R167). -/
def subWithCarry (a b : Word) (c : Bool) : Word × Bool :=
  addWithCarry a (~~~b) c

/-- A write of CARRY by one of its six writers (R167): the value under the conventional policy, a free value
under havoc. -/
def State.writeCarry (s : State) (c : Bool) : State :=
  match s.params.carryPolicy with
  | .conventional => { s with cy := c }
  | .havoc => { s.drawBit.2 with cy := s.drawBit.1 }

/-- DIVF after a divisor that is not zero: unchanged or 0, undetermined (R238; DESIGN CHOICE: log 18). -/
def State.settleDivisorFlag (s : State) : State :=
  { s.drawBit.2 with divf := s.divf && s.drawBit.1 }

/-- R130. -/
def flagEq (a b : Word) : Bool := a == b

/-- R132. -/
def flagGts (a b : Word) : Bool := decide (a.toInt > b.toInt)

/-- R133. -/
def flagGes (a b : Word) : Bool := decide (a.toInt ≥ b.toInt)

/-- R134. -/
def flagLts (a b : Word) : Bool := decide (a.toInt < b.toInt)

/-- R135. -/
def flagLes (a b : Word) : Bool := decide (a.toInt ≤ b.toInt)

/-- R136. -/
def flagGtu (a b : Word) : Bool := decide (a.toNat > b.toNat)

/-- R137. -/
def flagGeu (a b : Word) : Bool := decide (a.toNat ≥ b.toNat)

/-- R138. -/
def flagLtu (a b : Word) : Bool := decide (a.toNat < b.toNat)

/-- R139. -/
def flagLeu (a b : Word) : Bool := decide (a.toNat ≤ b.toNat)

end Sys2Proof.Machine
end

