-- ==== Sys2Proof/Machine/ExtendNop.lean ====
section
/-! DEFINITION. The four extensions and h.nop (41_extend_nop.md). -/

namespace Sys2Proof.Machine

/-- A general register written, then the next instruction: the template of every instruction whose only other
effect is the pc's advance. -/
def State.writeResult (s : State) (a : RegId) (v : Word) : Result :=
  .next (s.setReg a v).advance

/-- h.exths (R150). -/
def execExths (a : RegId) (s : State) : Result :=
  s.writeResult a (((s.getReg a).extractLsb' 0 16).signExtend 32)

/-- h.exthz (R151). -/
def execExthz (a : RegId) (s : State) : Result :=
  s.writeResult a (((s.getReg a).extractLsb' 0 16).setWidth 32)

/-- h.extbs (R152). -/
def execExtbs (a : RegId) (s : State) : Result :=
  s.writeResult a (((s.getReg a).extractLsb' 0 8).signExtend 32)

/-- h.extbz (R153). -/
def execExtbz (a : RegId) (s : State) : Result :=
  s.writeResult a (((s.getReg a).extractLsb' 0 8).setWidth 32)

/-- h.nop (R154): only the pc advances. -/
def execNop (s : State) : Result :=
  .next s.advance

end Sys2Proof.Machine
end

