-- ==== Sys2Proof/Machine/Arith.lean ====
section
/-! DEFINITION. Addition, subtraction, negation (42_arith.md): results modulo 2^32, CARRY by R167. -/

namespace Sys2Proof.Machine

/-- A sum or difference and its carry written (template of R160 to R165, R167). -/
def State.writeSum (s : State) (a : RegId) (r : Word × Bool) : Result :=
  .next ((s.setReg a r.1).writeCarry r.2).advance

/-- h.adds (R160): the addends are rB and rD, the destination rA. -/
def execAdds (a b d : RegId) (s : State) : Result :=
  s.writeSum a (addWithCarry (s.getReg b) (s.getReg d) false)

/-- h.subs (R161). -/
def execSubs (a b : RegId) (s : State) : Result :=
  s.writeSum a (subWithCarry (s.getReg a) (s.getReg b) true)

/-- h.addu (R162). -/
def execAddu (a b : RegId) (s : State) : Result :=
  s.writeSum a (addWithCarry (s.getReg a) (s.getReg b) false)

/-- h.subu (R163). -/
def execSubu (a b : RegId) (s : State) : Result :=
  s.writeSum a (subWithCarry (s.getReg a) (s.getReg b) true)

/-- h.addwcs (R164). -/
def execAddwcs (a b : RegId) (s : State) : Result :=
  s.writeSum a (addWithCarry (s.getReg a) (s.getReg b) s.cy)

/-- h.subwcs (R165). -/
def execSubwcs (a b : RegId) (s : State) : Result :=
  s.writeSum a (subWithCarry (s.getReg a) (s.getReg b) s.cy)

/-- h.negs (R166): CARRY is not written. -/
def execNegs (a b : RegId) (s : State) : Result :=
  s.writeResult a (~~~(s.getReg b) + 1)

end Sys2Proof.Machine
end

