-- ==== Sys2Proof/Machine/MulDiv.lean ====
section
/-! DEFINITION. Multiply, divide, modulus and multiply-accumulate (46_muldiv_mac.md). -/

namespace Sys2Proof.Machine

/-- `s(a) * s(b)`, exact, as a 64-bit two's-complement string (R230, R234). -/
def signedProduct (a b : Word) : BitVec 64 :=
  BitVec.ofInt 64 (a.toInt * b.toInt)

/-- `u(a) * u(b)`, exact (R235). -/
def unsignedProduct (a b : Word) : BitVec 64 :=
  BitVec.ofNat 64 (a.toNat * b.toNat)

/-- The low half of a product to rA, the high half to MACHI; MACLO is kept (R234, R235). -/
def State.writeProduct (s : State) (a : RegId) (p : BitVec 64) : Result :=
  .next ({ s with machi := p.extractLsb' 32 32 }.setReg a (p.extractLsb' 0 32)).advance

/-- The one pair of operands whose signed quotient is no 32-bit number: -2^31 and -1 (R236, R239). -/
def isDivideOverflow (a b : Word) : Bool :=
  a == 0x80000000 && b == 0xFFFFFFFF

/-- `numerics.divs` for a divisor that is not zero; `none` where the result is `any32` (R239). -/
def signedQuotient (p : Config.Params) (a b : Word) : Option Word :=
  if isDivideOverflow a b then none
  else match p.divs with
    | .truncate => some (BitVec.ofInt 32 (a.toInt.tdiv b.toInt))
    | .given => some (Config.givenDivs a b)

/-- `numerics.mods` for a divisor that is not zero; -2^31 by -1 leaves 0 under every rounding rule (R239). -/
def signedRemainder (p : Config.Params) (a b : Word) : Word :=
  if isDivideOverflow a b then 0
  else match p.mods with
    | .truncate => BitVec.ofInt 32 (a.toInt.tmod b.toInt)
    | .given => Config.givenMods a b

/-- `x[a] <- v`, or a free value where the spec states none. -/
def State.setRegOrAny (s : State) (a : RegId) (v : Option Word) : State :=
  match v with
  | some v => s.setReg a v
  | none => s.drawWord.2.setReg a s.drawWord.1

/-- A quotient or remainder written (template of R232, R233, R236, R237, and R238): by zero, any value and
DIVF 1; else the result and DIVF unchanged or 0. -/
def State.writeQuotient (s : State) (a : RegId) (divisor : Word) (r : Option Word) : Result :=
  if divisor = 0 then
    .next { s.setRegOrAny a none with divf := true }.advance
  else
    .next (s.setRegOrAny a r).settleDivisorFlag.advance

/-- h.mas (R230): the accumulator plus the signed product, modulo 2^64. -/
def execMas (a b : RegId) (s : State) : Result :=
  .next (s.setAccumulator (s.accumulator + signedProduct (s.getReg a) (s.getReg b))).advance

/-- h.mss (R231). -/
def execMss (a b : RegId) (s : State) : Result :=
  .next (s.setAccumulator (s.accumulator - signedProduct (s.getReg a) (s.getReg b))).advance

/-- h.mods (R232). -/
def execMods (a b : RegId) (s : State) : Result :=
  s.writeQuotient a (s.getReg b) (some (signedRemainder s.params (s.getReg a) (s.getReg b)))

/-- h.modu (R233). -/
def execModu (a b : RegId) (s : State) : Result :=
  s.writeQuotient a (s.getReg b) (some (BitVec.ofNat 32 ((s.getReg a).toNat % (s.getReg b).toNat)))

/-- h.muls (R234). -/
def execMuls (a b : RegId) (s : State) : Result :=
  s.writeProduct a (signedProduct (s.getReg a) (s.getReg b))

/-- h.mulu (R235). -/
def execMulu (a b : RegId) (s : State) : Result :=
  s.writeProduct a (unsignedProduct (s.getReg a) (s.getReg b))

/-- h.divs (R236). -/
def execDivs (a b : RegId) (s : State) : Result :=
  s.writeQuotient a (s.getReg b) (signedQuotient s.params (s.getReg a) (s.getReg b))

/-- h.divu (R237). -/
def execDivu (a b : RegId) (s : State) : Result :=
  s.writeQuotient a (s.getReg b) (some (BitVec.ofNat 32 ((s.getReg a).toNat / (s.getReg b).toNat)))

end Sys2Proof.Machine
end

