-- ==== Sys2Proof/Machine/Bit.lean ====
section
/-! DEFINITION. Bit test, clear and set (48_bit.md). An index above 31 leaves the written state undetermined (R286). -/

namespace Sys2Proof.Machine

/-- `1 << i`. -/
def bitMask (i : Nat) : Word :=
  1#32 <<< i

/-- `v AND NOT (1 << i)` (R282, R283). -/
def clearBit (v : Word) (i : Nat) : Word :=
  v &&& ~~~bitMask i

/-- `v OR (1 << i)` (R284, R285). -/
def setBit (v : Word) (i : Nat) : Word :=
  v ||| bitMask i

/-- The bit an index register names, if there is one (R286). -/
def bitIndex (v : Word) : Option Nat :=
  if v.toNat ≤ 31 then some v.toNat else none

/-- `F <- b`, or a free bit where the spec states none (R280, R286). -/
def State.setFlagOrAny (s : State) (b : Option Bool) : State :=
  match b with
  | some b => s.setFlag b
  | none => s.drawBit.2.setFlag s.drawBit.1

/-- h.test (R280, R286). -/
def execTest (a b : RegId) (s : State) : Result :=
  .next (s.setFlagOrAny ((bitIndex (s.getReg b)).map (s.getReg a).getLsbD)).advance

/-- h.testi (R281). -/
def execTesti (a : RegId) (m : BitVec 5) (s : State) : Result :=
  .next (s.setFlag ((s.getReg a).getLsbD m.toNat)).advance

/-- h.clr (R282, R286). -/
def execClr (a b : RegId) (s : State) : Result :=
  .next (s.setRegOrAny a ((bitIndex (s.getReg b)).map (clearBit (s.getReg a)))).advance

/-- h.clri (R283). -/
def execClri (a : RegId) (m : BitVec 5) (s : State) : Result :=
  s.writeResult a (clearBit (s.getReg a) m.toNat)

/-- h.set (R284, R286). -/
def execSet (a b : RegId) (s : State) : Result :=
  .next (s.setRegOrAny a ((bitIndex (s.getReg b)).map (setBit (s.getReg a)))).advance

/-- h.seti (R285). -/
def execSeti (a : RegId) (m : BitVec 5) (s : State) : Result :=
  s.writeResult a (setBit (s.getReg a) m.toNat)

end Sys2Proof.Machine
end

