-- ==== Sys2Proof/Machine/BranchJump.lean ====
section
/-! DEFINITION. Branches and jumps (43_branch_jump.md). -/

namespace Sys2Proof.Machine

/-- h.bnf (R180). -/
def execBnf (x : BitVec 12) (s : State) : Result :=
  s.branch (!s.f) (s.relativeTarget x)

/-- h.bf (R181). -/
def execBf (x : BitVec 12) (s : State) : Result :=
  s.branch s.f (s.relativeTarget x)

/-- h.jal (R182): LR is written before the delay slot executes. -/
def execJal (x : BitVec 12) (s : State) : Result :=
  s.link.delayedJump (s.relativeTarget x)

/-- h.jmp (R183): LR is not written. -/
def execJmp (x : BitVec 12) (s : State) : Result :=
  s.delayedJump (s.relativeTarget x)

/-- h.jr (R184): LR is not written. -/
def execJr (a : RegId) (s : State) : Result :=
  s.delayedJumpToRegister (s.getReg a)

/-- h.jalr (R185): the target is the old value of rA even where rA is the link register (R17). -/
def execJalr (a : RegId) (s : State) : Result :=
  s.link.delayedJumpToRegister (s.getReg a)

end Sys2Proof.Machine
end

