-- ==== Sys2Proof/Machine/Compare.lean ====
section
/-! DEFINITION. The ten compares (40_compare.md): F is written, nothing else but the pc. -/

namespace Sys2Proof.Machine

/-- F written, then the next instruction (template of R130 to R139). -/
def State.compare (s : State) (b : Bool) : Result :=
  .next (s.setFlag b).advance

/-- h.sfeq (R130). -/
def execSfeq (a b : RegId) (s : State) : Result :=
  s.compare (flagEq (s.getReg a) (s.getReg b))

/-- h.sfne (R131). -/
def execSfne (a b : RegId) (s : State) : Result :=
  s.compare (!flagEq (s.getReg a) (s.getReg b))

/-- h.sfgts (R132). -/
def execSfgts (a b : RegId) (s : State) : Result :=
  s.compare (flagGts (s.getReg a) (s.getReg b))

/-- h.sfges (R133). -/
def execSfges (a b : RegId) (s : State) : Result :=
  s.compare (flagGes (s.getReg a) (s.getReg b))

/-- h.sflts (R134). -/
def execSflts (a b : RegId) (s : State) : Result :=
  s.compare (flagLts (s.getReg a) (s.getReg b))

/-- h.sfles (R135). -/
def execSfles (a b : RegId) (s : State) : Result :=
  s.compare (flagLes (s.getReg a) (s.getReg b))

/-- h.sfgtu (R136). -/
def execSfgtu (a b : RegId) (s : State) : Result :=
  s.compare (flagGtu (s.getReg a) (s.getReg b))

/-- h.sfgeu (R137). -/
def execSfgeu (a b : RegId) (s : State) : Result :=
  s.compare (flagGeu (s.getReg a) (s.getReg b))

/-- h.sfltu (R138). -/
def execSfltu (a b : RegId) (s : State) : Result :=
  s.compare (flagLtu (s.getReg a) (s.getReg b))

/-- h.sfleu (R139). -/
def execSfleu (a b : RegId) (s : State) : Result :=
  s.compare (flagLeu (s.getReg a) (s.getReg b))

end Sys2Proof.Machine
end

