-- ==== Sys2Proof/Machine/Move.lean ====
section
/-! DEFINITION. Moves (44_move.md). -/

namespace Sys2Proof.Machine

/-- h.movibse (R200). -/
def execMovibse (a : RegId) (m : BitVec 8) (s : State) : Result :=
  s.writeResult a (m.signExtend 32)

/-- A class 0 instruction decodes and is refused: the source gives it no semantics (00_scope.md R8, R15). -/
def refuseClass0 (mnemonic : String) : Result :=
  .refused (.noSemantics mnemonic)

/-- h.movhibsl (R201): refused, no semantics in the source. -/
def execMovhibsl (_a : RegId) (_m : BitVec 8) (_s : State) : Result :=
  refuseClass0 "h.movhibsl"

/-- h.movhibse (R202): refused, no semantics in the source. -/
def execMovhibse (_a : RegId) (_m : BitVec 8) (_s : State) : Result :=
  refuseClass0 "h.movhibse"

/-- h.mov (R203). -/
def execMov (a b : RegId) (s : State) : Result :=
  s.writeResult a (s.getReg b)

end Sys2Proof.Machine
end

