-- ==== Sys2Proof/Machine/LoadStore.lean ====
section
/-! DEFINITION. Loads and stores (49_load_store.md). A failed access does nothing else of the instruction (20_memory.md R71). -/

namespace Sys2Proof.Machine

/-- Load into a register (template of R290 to R292). -/
def State.load (s : State) (w : Width) (a : RegId) (ea : Word) : Result :=
  match s.memRead w ea with
  | .error e => .fault e
  | .ok v => .next (s.setReg a v).advance

/-- Store of a value (template of R293 to R295). -/
def State.store (s : State) (w : Width) (ea v : Word) : Result :=
  match s.memWrite w ea v with
  | .error e => .fault e
  | .ok t => .next t.advance

/-- Load at the old PAIR, then PAIR incremented (template of R296 to R298, and R71); where the loaded register
is PAIR, the loaded value wins (92_eei_decisions.md D36; DEDUCED: log 12). -/
def State.loadThroughPair (s : State) (w : Width) (a : RegId) (n : BitVec 4) : Result :=
  match s.memRead w s.readPair with
  | .error e => .fault e
  | .ok v => .next ((s.writePair (s.readPair + scaledOffset w n)).setReg a v).advance

/-- Store at the old value of rA, then rA incremented by the width (template of R301 to R303, and R71). -/
def State.storePostIncrement (s : State) (w : Width) (a b : RegId) : Result :=
  match s.memWrite w (s.getReg a) (s.getReg b) with
  | .error e => .fault e
  | .ok t => .next (t.setReg a (s.getReg a + BitVec.ofNat 32 w.bytes)).advance

/-- Store at the old PAIR, then PAIR incremented (template of R304 to R306, and R71). -/
def State.storeThroughPair (s : State) (w : Width) (n : BitVec 4) (b : RegId) : Result :=
  match s.memWrite w s.readPair (s.getReg b) with
  | .error e => .fault e
  | .ok t => .next (t.writePair (s.readPair + scaledOffset w n)).advance

/-- h.lw (R290). -/
def execLw (a : RegId) (n : BitVec 4) (b : RegId) (s : State) : Result :=
  s.load .word a (s.baseOffset .word b n)

/-- h.lhz (R291): the destination is r8. -/
def execLhz (n : BitVec 4) (b : RegId) (s : State) : Result :=
  s.load .half halfRegister (s.baseOffset .half b n)

/-- h.lbz (R292): the destination is r9. -/
def execLbz (n : BitVec 4) (b : RegId) (s : State) : Result :=
  s.load .byte byteRegister (s.baseOffset .byte b n)

/-- h.sw (R293): rA is the base, rB the data. -/
def execSw (n : BitVec 4) (a b : RegId) (s : State) : Result :=
  s.store .word (s.baseOffset .word a n) (s.getReg b)

/-- h.sh (R294): the data register is r8. -/
def execSh (n : BitVec 4) (a : RegId) (s : State) : Result :=
  s.store .half (s.baseOffset .half a n) (s.getReg halfRegister)

/-- h.sb (R295): the data register is r9. -/
def execSb (n : BitVec 4) (a : RegId) (s : State) : Result :=
  s.store .byte (s.baseOffset .byte a n) (s.getReg byteRegister)

/-- h.lwpain (R296). -/
def execLwpain (a : RegId) (n : BitVec 4) (s : State) : Result :=
  s.loadThroughPair .word a n

/-- h.lhzpain (R297). -/
def execLhzpain (a : RegId) (n : BitVec 4) (s : State) : Result :=
  s.loadThroughPair .half a n

/-- h.lbzpain (R298). -/
def execLbzpain (a : RegId) (n : BitVec 4) (s : State) : Result :=
  s.loadThroughPair .byte a n

/-- h.lhspain (R299): refused, no semantics in the source. -/
def execLhspain (_a : RegId) (_n : BitVec 4) (_s : State) : Result :=
  refuseClass0 "h.lhspain"

/-- h.lbspain (R300): refused, no semantics in the source. -/
def execLbspain (_a : RegId) (_n : BitVec 4) (_s : State) : Result :=
  refuseClass0 "h.lbspain"

/-- h.swpai (R301). -/
def execSwpai (a b : RegId) (s : State) : Result :=
  s.storePostIncrement .word a b

/-- h.shpai (R302). -/
def execShpai (a b : RegId) (s : State) : Result :=
  s.storePostIncrement .half a b

/-- h.sbpai (R303). -/
def execSbpai (a b : RegId) (s : State) : Result :=
  s.storePostIncrement .byte a b

/-- h.swpain (R304): the width by PAIN_STORE_WIDTH. -/
def execSwpain (n : BitVec 4) (b : RegId) (s : State) : Result :=
  s.storeThroughPair (swpainWidth s.params) n b

/-- h.shpain (R305). -/
def execShpain (n : BitVec 4) (b : RegId) (s : State) : Result :=
  s.storeThroughPair .half n b

/-- h.sbpain (R306): the width by PAIN_STORE_WIDTH. -/
def execSbpain (n : BitVec 4) (b : RegId) (s : State) : Result :=
  s.storeThroughPair (sbpainWidth s.params) n b

end Sys2Proof.Machine
end

