-- ==== Sys2Proof/Machine/Logic.lean ====
section
/-! DEFINITION. Logic, swaps, shifts and rotates (47_logic_shift.md): no flag is written. -/

namespace Sys2Proof.Machine

/-- R254: the bytes end to end. -/
def swapBytes (b : Word) : Word :=
  b.extractLsb' 0 8 ++ b.extractLsb' 8 8 ++ b.extractLsb' 16 8 ++ b.extractLsb' 24 8

/-- R255: the half words end to end. -/
def swapHalves (b : Word) : Word :=
  b.extractLsb' 0 16 ++ b.extractLsb' 16 16

/-- R262: the low 32 bits of the doubled string shifted right. -/
def rotateRight (v : Word) (k : Nat) : Word :=
  ((v ++ v) >>> k).extractLsb' 0 32

/-- R263: the high 32 bits of the doubled string shifted left. -/
def rotateLeft (v : Word) (k : Nat) : Word :=
  ((v ++ v) <<< k).extractLsb' 32 32

/-- h.notu (R250). -/
def execNotu (a b : RegId) (s : State) : Result :=
  s.writeResult a (~~~(s.getReg b))

/-- h.xor (R251). -/
def execXor (a b : RegId) (s : State) : Result :=
  s.writeResult a (s.getReg a ^^^ s.getReg b)

/-- h.or (R252). -/
def execOr (a b : RegId) (s : State) : Result :=
  s.writeResult a (s.getReg a ||| s.getReg b)

/-- h.and (R253). -/
def execAnd (a b : RegId) (s : State) : Result :=
  s.writeResult a (s.getReg a &&& s.getReg b)

/-- h.swapb (R254). -/
def execSwapb (a b : RegId) (s : State) : Result :=
  s.writeResult a (swapBytes (s.getReg b))

/-- h.swaph (R255). -/
def execSwaph (a b : RegId) (s : State) : Result :=
  s.writeResult a (swapHalves (s.getReg b))

/-- h.shlai (R256). -/
def execShlai (a : RegId) (l : BitVec 5) (s : State) : Result :=
  s.writeResult a (s.getReg a <<< l.toNat)

/-- h.shrai (R257). -/
def execShrai (a : RegId) (l : BitVec 5) (s : State) : Result :=
  s.writeResult a ((s.getReg a).sshiftRight l.toNat)

/-- h.shrli (R258). -/
def execShrli (a : RegId) (l : BitVec 5) (s : State) : Result :=
  s.writeResult a (s.getReg a >>> l.toNat)

/-- h.shla (R259). -/
def execShla (a b : RegId) (s : State) : Result :=
  s.writeResult a (s.getReg a <<< shiftAmount (s.getReg b))

/-- h.shra (R260). -/
def execShra (a b : RegId) (s : State) : Result :=
  s.writeResult a ((s.getReg a).sshiftRight (shiftAmount (s.getReg b)))

/-- h.shrl (R261). -/
def execShrl (a b : RegId) (s : State) : Result :=
  s.writeResult a (s.getReg a >>> shiftAmount (s.getReg b))

/-- h.ror (R262). -/
def execRor (a b : RegId) (s : State) : Result :=
  s.writeResult a (rotateRight (s.getReg a) (shiftAmount (s.getReg b)))

/-- h.rol (R263). -/
def execRol (a b : RegId) (s : State) : Result :=
  s.writeResult a (rotateLeft (s.getReg a) (shiftAmount (s.getReg b)))

end Sys2Proof.Machine
end

