-- ==== Sys2Proof/Machine/System.lean ====
section
/-! DEFINITION. System instructions (45_system.md) and the use they make of 60_exceptions.md. -/

namespace Sys2Proof.Machine

/-- h.brk (R210): legal in both modes (R215); the immediate has no effect. -/
def execBrk (_m : BitVec 8) (s : State) : Result :=
  s.takeException .breakpoint

/-- h.sys (R211): legal in both modes (R215); the immediate has no effect. -/
def execSys (_m : BitVec 8) (s : State) : Result :=
  s.takeException .systemCall

/-- h.rfe (R212): legal in a delay slot. -/
def execRfe (s : State) : Result :=
  s.privileged (.next s.returnFromException)

/-- h.mtsr (R213): the index is the value of rA. -/
def execMtsr (a b : RegId) (s : State) : Result :=
  s.privileged
    (match specialRegOf s.params (s.getReg a) with
    | some r => .next (s.writeSpecial r (s.getReg b)).advance
    | none => .refused .writeOfUnnamedSpecialRegister)

/-- h.mfsr (R214): the index is the value of rB. -/
def execMfsr (a b : RegId) (s : State) : Result :=
  s.privileged
    (match specialRegOf s.params (s.getReg b) with
    | some r => s.writeResult a (s.readSpecial r)
    | none => .refused .readOfUnnamedSpecialRegister)

end Sys2Proof.Machine
end

