-- ==== Sys2Proof/Machine/Dispatch.lean ====
section
/-! DEFINITION. The instruction's meaning, one arm per constructor. -/

namespace Sys2Proof.Machine

def exec (i : Instr) (s : State) : Host.Outcome State Fault Refusal :=
  match i with
  | .sfeq a b => Sys2Proof.Machine.execSfeq a b s
  | .sfne a b => Sys2Proof.Machine.execSfne a b s
  | .sfgts a b => Sys2Proof.Machine.execSfgts a b s
  | .sfges a b => Sys2Proof.Machine.execSfges a b s
  | .sflts a b => Sys2Proof.Machine.execSflts a b s
  | .sfles a b => Sys2Proof.Machine.execSfles a b s
  | .sfgtu a b => Sys2Proof.Machine.execSfgtu a b s
  | .sfgeu a b => Sys2Proof.Machine.execSfgeu a b s
  | .sfltu a b => Sys2Proof.Machine.execSfltu a b s
  | .sfleu a b => Sys2Proof.Machine.execSfleu a b s
  | .exths a => Sys2Proof.Machine.execExths a s
  | .exthz a => Sys2Proof.Machine.execExthz a s
  | .extbs a => Sys2Proof.Machine.execExtbs a s
  | .extbz a => Sys2Proof.Machine.execExtbz a s
  | .nop => Sys2Proof.Machine.execNop s
  | .adds a b d => Sys2Proof.Machine.execAdds a b d s
  | .subs a b => Sys2Proof.Machine.execSubs a b s
  | .addu a b => Sys2Proof.Machine.execAddu a b s
  | .subu a b => Sys2Proof.Machine.execSubu a b s
  | .addwcs a b => Sys2Proof.Machine.execAddwcs a b s
  | .subwcs a b => Sys2Proof.Machine.execSubwcs a b s
  | .negs a b => Sys2Proof.Machine.execNegs a b s
  | .bnf x => Sys2Proof.Machine.execBnf x s
  | .bf x => Sys2Proof.Machine.execBf x s
  | .jal x => Sys2Proof.Machine.execJal x s
  | .jmp x => Sys2Proof.Machine.execJmp x s
  | .jr a => Sys2Proof.Machine.execJr a s
  | .jalr a => Sys2Proof.Machine.execJalr a s
  | .movibse a m => Sys2Proof.Machine.execMovibse a m s
  | .movhibsl a m => Sys2Proof.Machine.execMovhibsl a m s
  | .movhibse a m => Sys2Proof.Machine.execMovhibse a m s
  | .mov a b => Sys2Proof.Machine.execMov a b s
  | .brk m => Sys2Proof.Machine.execBrk m s
  | .sys m => Sys2Proof.Machine.execSys m s
  | .rfe => Sys2Proof.Machine.execRfe s
  | .mtsr a b => Sys2Proof.Machine.execMtsr a b s
  | .mfsr a b => Sys2Proof.Machine.execMfsr a b s
  | .mas a b => Sys2Proof.Machine.execMas a b s
  | .mss a b => Sys2Proof.Machine.execMss a b s
  | .mods a b => Sys2Proof.Machine.execMods a b s
  | .modu a b => Sys2Proof.Machine.execModu a b s
  | .muls a b => Sys2Proof.Machine.execMuls a b s
  | .mulu a b => Sys2Proof.Machine.execMulu a b s
  | .divs a b => Sys2Proof.Machine.execDivs a b s
  | .divu a b => Sys2Proof.Machine.execDivu a b s
  | .notu a b => Sys2Proof.Machine.execNotu a b s
  | .xor a b => Sys2Proof.Machine.execXor a b s
  | .or a b => Sys2Proof.Machine.execOr a b s
  | .and a b => Sys2Proof.Machine.execAnd a b s
  | .swapb a b => Sys2Proof.Machine.execSwapb a b s
  | .swaph a b => Sys2Proof.Machine.execSwaph a b s
  | .shlai a l => Sys2Proof.Machine.execShlai a l s
  | .shrai a l => Sys2Proof.Machine.execShrai a l s
  | .shrli a l => Sys2Proof.Machine.execShrli a l s
  | .shla a b => Sys2Proof.Machine.execShla a b s
  | .shra a b => Sys2Proof.Machine.execShra a b s
  | .shrl a b => Sys2Proof.Machine.execShrl a b s
  | .ror a b => Sys2Proof.Machine.execRor a b s
  | .rol a b => Sys2Proof.Machine.execRol a b s
  | .test a b => Sys2Proof.Machine.execTest a b s
  | .testi a m => Sys2Proof.Machine.execTesti a m s
  | .clr a b => Sys2Proof.Machine.execClr a b s
  | .clri a m => Sys2Proof.Machine.execClri a m s
  | .set a b => Sys2Proof.Machine.execSet a b s
  | .seti a m => Sys2Proof.Machine.execSeti a m s
  | .lw a n b => Sys2Proof.Machine.execLw a n b s
  | .lhz n b => Sys2Proof.Machine.execLhz n b s
  | .lbz n b => Sys2Proof.Machine.execLbz n b s
  | .sw n a b => Sys2Proof.Machine.execSw n a b s
  | .sh n a => Sys2Proof.Machine.execSh n a s
  | .sb n a => Sys2Proof.Machine.execSb n a s
  | .lwpain a n => Sys2Proof.Machine.execLwpain a n s
  | .lhzpain a n => Sys2Proof.Machine.execLhzpain a n s
  | .lbzpain a n => Sys2Proof.Machine.execLbzpain a n s
  | .lhspain a n => Sys2Proof.Machine.execLhspain a n s
  | .lbspain a n => Sys2Proof.Machine.execLbspain a n s
  | .swpai a b => Sys2Proof.Machine.execSwpai a b s
  | .shpai a b => Sys2Proof.Machine.execShpai a b s
  | .sbpai a b => Sys2Proof.Machine.execSbpai a b s
  | .swpain n b => Sys2Proof.Machine.execSwpain n b s
  | .shpain n b => Sys2Proof.Machine.execShpain n b s
  | .sbpain n b => Sys2Proof.Machine.execSbpain n b s

end Sys2Proof.Machine
end

