-- ==== Sys2Proof/Machine/Step.lean ====
section
/-! DEFINITION. One step (00_scope.md R13): fetch the word at the pc, decode it, execute it. -/

namespace Sys2Proof.Machine

/-- One step of the machine. The checks of 60_exceptions.md R327 come in its order: those of the fetch, the
decoder's, then those of the instruction's meaning. -/
def step (s : State) : Host.Outcome State Fault Refusal :=
  match s.fetch16 with
  | .error e => .fault e
  | .ok w =>
    match decodeWord s.params w with
    | .error _ => .fault .reservedEncoding
    | .ok i => exec i s

/-- The launch memory of `s` with the instruction whose low `nbits` bits are those of `w` (the bits above 0)
placed at the pc, in the byte order of the fetch (20_memory.md R67). It stands for the load of a program from outside
the machine (DESIGN CHOICE: log 10). -/
def State.withFetchWord (s : State) (nbits w : Nat) : State :=
  { s with
    mem := s.mem.placeBytes s.pc.toNat (toBytes s.params.byteOrder 2 (BitVec.ofNat 32 (w % 2 ^ nbits))) }

end Sys2Proof.Machine
end

