-- ==== Sys2Proof/WellFormed.lean ====
section
/-! DEFINITION. Which instruction terms are instructions of a machine with given parameters. -/

namespace Sys2Proof

/-- The operands the encoding can name (30_encoding.md R107): h.lw has no destination r8 or r9, h.sw no
source r8 or r9; h.mov needs an `OPC_MOV` with a wholly reserved top byte (R109). -/
def Instr.operandsEncodable (p : Config.Params) (i : Instr) : Bool :=
  match i with
  | .lw a _ _ => a != 8 && a != 9
  | .sw _ _ b => b != 8 && b != 9
  | .mov _ _ =>
    match p.opcMov with
    | some k => isReservedTopByte k
    | none => false
  | _ => true

/-- Well-formed: the operands can be encoded (R107, R109) and the instruction is implemented (R8). -/
def Instr.wellFormed (p : Config.Params) (i : Instr) : Bool :=
  i.operandsEncodable p && isImplemented p i

end Sys2Proof
end

