-- ==== Sys2Proof/Safety.lean ====
section
/-! DEFINITION. The terms claims about the machine are stated in: the invariant, memory as the rules describe it,
who may write what (10_state.md R36), and what two runs agree on. -/

namespace Sys2Proof.Machine

/-! ## The invariant -/

/-- Memory is in canonical form, the pc is even (10_state.md R24), and so is a pending target (R188). -/
abbrev State.Inv (s : State) : Prop :=
  s.mem.wf ∧ s.pc.toNat % 2 = 0 ∧ s.delay.all (fun t => t.toNat % 2 == 0) = true

/-! ## Memory as the rules describe it -/

/-- An access of this width at `ea` has an effect: aligned (20_memory.md R65), every byte admitted (R66). -/
abbrev Memory.ready (m : Memory) (w : Width) (ea : Word) : Prop :=
  ea.toNat % w.bytes = 0 ∧ ∀ i < w.bytes, m.isAdmitted (ea.toNat + i) = true

/-- An access of this width at `ea` is aligned and touches a byte outside the launch memory (R66). -/
abbrev Memory.touchesOutside (m : Memory) (w : Width) (ea : Word) : Prop :=
  ea.toNat % w.bytes = 0 ∧ ∃ i < w.bytes, m.isAdmitted (ea.toNat + i) = false

/-- `zext_32(MemRead(a, n))` as R62 writes it, `++` putting its left operand in the higher bits. -/
def Memory.valueAt (m : Memory) (o : Config.ByteOrder) (w : Width) (a : Nat) : Word :=
  match w, o with
  | .byte, _ => (m.byteAt a).setWidth 32
  | .half, .big => (m.byteAt a ++ m.byteAt (a + 1)).setWidth 32
  | .half, .little => (m.byteAt (a + 1) ++ m.byteAt a).setWidth 32
  | .word, .big => m.byteAt a ++ m.byteAt (a + 1) ++ m.byteAt (a + 2) ++ m.byteAt (a + 3)
  | .word, .little => m.byteAt (a + 3) ++ m.byteAt (a + 2) ++ m.byteAt (a + 1) ++ m.byteAt a

/-- The byte that R63 puts at `addr + i` when the low `8 n` bits of `v` are stored. -/
def storedByte (o : Config.ByteOrder) (n i : Nat) (v : Word) : Byte :=
  match o with
  | .big => v.extractLsb' (8 * (n - 1 - i)) 8
  | .little => v.extractLsb' (8 * i) 8

/-- `m'` is `m` after `MemWrite(ea, n, v)` (R63): the stored bytes by R63, every other byte as before, the launch
memory's addresses as before, the canonical form kept, and the stored bytes remembered (R76). -/
def Memory.afterStore (m m' : Memory) (o : Config.ByteOrder) (w : Width) (ea v : Word) : Prop :=
  (∀ i < w.bytes, m'.byteAt (ea.toNat + i) = storedByte o w.bytes i v) ∧
  (∀ k, (k < ea.toNat ∨ ea.toNat + w.bytes ≤ k) → m'.byteAt k = m.byteAt k) ∧
  m'.admitted = m.admitted ∧
  m'.wf ∧
  ∀ k, k ∈ m'.stored ↔ k ∈ m.stored ∨ (ea.toNat ≤ k ∧ k < ea.toNat + w.bytes)

/-! ## Encodings -/

/-- Under every `OPC_MOV` the word is this instruction's (30_encoding.md R104, R112). -/
def WordIs (w : HalfWord) (i : Instr) : Prop :=
  ∀ o : Option Byte, decodeRow o w = some i

/-- The reserved words of R108, by top byte `t` and low byte `l`. -/
def isListedReserved (w : HalfWord) : Bool :=
  let t := w.toNat / 256
  let l := w.toNat % 256
  t == 0x4A ||
  (t == 0x4B && (decide (7 ≤ l % 16) || (l % 16 == 4 && l / 16 != 0))) ||
  t == 0x50 || t == 0x51 || t == 0x52 ||
  (decide (0x58 ≤ t) && decide (t ≤ 0x5F)) ||
  t == 0x60 || t == 0x61 || t == 0x62 ||
  (decide (0x69 ≤ t) && decide (t ≤ 0x6F)) ||
  t == 0xD1 || t == 0xD4 || t == 0xD6 || t == 0xDF ||
  (t == 0xD9 && l != 0) ||
  t == 0xE7 || t == 0xE8 || t == 0xE9

/-- The class of an instruction (00_scope.md R2; for h.swpain and h.sbpain 90_conflicts.md C11;
DEDUCED: log 16). -/
def classOf (p : Config.Params) : Instr → Nat
  | .movhibsl .. | .movhibse .. | .lhspain .. | .lbspain .. => 0
  | .exths .. | .exthz .. | .extbs .. | .extbz .. | .movibse .. | .mov .. | .mas .. | .mss .. | .muls ..
  | .mulu .. | .jmp .. | .sw .. | .swpai .. => 2
  | .swpain .. => if p.painStoreWidth = .byMnemonic then 2 else 1
  | .sbpain .. => if p.painStoreWidth = .byMnemonic then 1 else 2
  | .mods .. | .modu .. | .divs .. | .divu .. => 3
  | .brk .. | .sys .. | .rfe | .mtsr .. | .mfsr .. => 4
  | _ => 1

/-- The mnemonic of a class 0 instruction (44_move.md R201, R202; 49_load_store.md R299, R300). -/
def classZeroMnemonic : Instr → Option String
  | .movhibsl .. => some "h.movhibsl"
  | .movhibse .. => some "h.movhibse"
  | .lhspain .. => some "h.lhspain"
  | .lbspain .. => some "h.lbspain"
  | _ => none

/-! ## Who writes what (R36) -/

/-- Writers of F. -/
def writesFlag : Instr → Bool
  | .sfeq .. | .sfne .. | .sfgts .. | .sfges .. | .sflts .. | .sfles .. | .sfgtu .. | .sfgeu .. | .sfltu ..
  | .sfleu .. | .test .. | .testi .. => true
  | _ => false

/-- Writers of CARRY. -/
def writesCarryFlag : Instr → Bool
  | .adds .. | .addu .. | .addwcs .. | .subs .. | .subu .. | .subwcs .. => true
  | _ => false

/-- Writers of the divisor flag. -/
def writesDivisorFlag : Instr → Bool
  | .divs .. | .divu .. | .mods .. | .modu .. => true
  | _ => false

/-- Writers of LR. -/
def writesLinkRegister : Instr → Bool
  | .jal .. | .jalr .. => true
  | _ => false

/-- Writers of MACHI. -/
def writesMachi : Instr → Bool
  | .mas .. | .mss .. | .muls .. | .mulu .. | .mtsr .. => true
  | _ => false

/-- Writers of MACLO. -/
def writesMaclo : Instr → Bool
  | .mas .. | .mss .. | .mtsr .. => true
  | _ => false

/-- Writers of PAIR by post-increment. -/
def incrementsPair : Instr → Bool
  | .lwpain .. | .lhzpain .. | .lbzpain .. | .swpain .. | .shpain .. | .sbpain .. => true
  | _ => false

/-- Writers of PAIR's own cell: by post-increment, and by h.mtsr only where `PAIR_ALIAS` is a special register (R30). -/
def writesPairCell (p : Config.Params) : Instr → Bool
  | .mtsr .. =>
    match p.pairAlias with
    | .specialRegister _ => true
    | _ => false
  | i => incrementsPair i

/-- Writers of the mode. -/
def writesMode : Instr → Bool
  | .brk .. | .sys .. | .rfe => true
  | _ => false

/-- Instructions that leave a delayed jump pending. -/
def setsDelay : Instr → Bool
  | .jal .. | .jalr .. | .jmp .. | .jr .. => true
  | _ => false

/-- Writers of memory. -/
def writesMemory : Instr → Bool
  | .sw .. | .sh .. | .sb .. | .swpai .. | .shpai .. | .sbpai .. | .swpain .. | .shpain .. | .sbpain .. => true
  | _ => false

/-- The control transfers of 43_branch_jump.md R187. -/
def isControlTransfer : Instr → Bool
  | .bf .. | .bnf .. | .jal .. | .jmp .. | .jr .. | .jalr .. | .sys .. | .brk .. => true
  | _ => false

/-- The general register an instruction's rule names as destination. -/
def destination : Instr → Option RegId
  | .exths a | .exthz a | .extbs a | .extbz a => some a
  | .adds a _ _ => some a
  | .subs a _ | .addu a _ | .subu a _ | .addwcs a _ | .subwcs a _ | .negs a _ => some a
  | .movibse a _ => some a
  | .mov a _ | .mfsr a _ => some a
  | .mods a _ | .modu a _ | .muls a _ | .mulu a _ | .divs a _ | .divu a _ => some a
  | .notu a _ | .xor a _ | .or a _ | .and a _ | .swapb a _ | .swaph a _ => some a
  | .shlai a _ | .shrai a _ | .shrli a _ => some a
  | .shla a _ | .shra a _ | .shrl a _ | .ror a _ | .rol a _ => some a
  | .clr a _ | .set a _ => some a
  | .clri a _ | .seti a _ => some a
  | .lw a _ _ => some a
  | .lhz .. => some 8
  | .lbz .. => some 9
  | .lwpain a _ | .lhzpain a _ | .lbzpain a _ => some a
  | .swpai a _ | .shpai a _ | .sbpai a _ => some a
  | _ => none

/-- A general register an instruction may write: its destination, and the one that is LR (R28) or PAIR (R30)
where the instruction writes those. -/
def mayWriteReg (p : Config.Params) (i : Instr) (r : RegId) : Bool :=
  destination i == some r ||
  (writesLinkRegister i && p.lrReg == some r) ||
  (incrementsPair i && decide (p.pairAlias = .generalRegister r))

/-- The five instructions of class 4 (R331, R332). -/
def isSystem : Instr → Bool
  | .brk .. | .sys .. | .rfe | .mtsr .. | .mfsr .. => true
  | _ => false

/-! ## Two runs -/

/-- Two outcomes of the same kind, next states related by `R`, reasons equal. -/
def sameOutcome (R : State → State → Prop) : Result → Result → Prop
  | .next s, .next t => R s t
  | .fault e, .fault e' => e = e'
  | .refused r, .refused r' => r = r'
  | _, _ => False

/-- The two states differ at most in the accumulator (R29). -/
def agreeOffAccumulator (s t : State) : Prop :=
  t = { s with machi := t.machi, maclo := t.maclo }

end Sys2Proof.Machine
end

