-- ==== Sys2Proof/Certificates/Slice0/Obligations.lean ====
section
/-! DEFINITION. The statements for the provers. -/

open Sys2Proof Sys2Proof.Machine

/-! ## Encoding (30_encoding.md) -/

/-- Every well-formed instruction has a word, and the decoder reads that word as the instruction, with every
operand at every value its encoding admits (R104, R107, R109, R112, and 00_scope.md R8). -/
def Obligations.DecodeOfEncodeIsTheInstruction : Prop :=
  ∀ (p : Config.Params) (i : Instr), i.wellFormed p = true →
    ∃ w, encode p i = some w ∧ decodeWord p w = .ok i

/-- Every word the decoder reads is the word of the instruction it reads, and that instruction is well-formed:
no two words are one instruction. -/
def Obligations.EncodeOfDecodeIsTheWord : Prop :=
  ∀ (p : Config.Params) (w : HalfWord) (i : Instr), decodeWord p w = .ok i →
    encode p i = some w ∧ i.wellFormed p = true

/-- R108: without an `OPC_MOV` the reserved words are exactly the listed ones, and executing one, or the word of an
instruction that is not implemented, is fault(reserved encoding). -/
def Obligations.ReservedWordsAreExactlyTheListed : Prop :=
  (∀ w : HalfWord, decodeRow none w = none ↔ isListedReserved w = true) ∧
  (∀ (s : State) (w : HalfWord), s.params.opcMov = none → s.fetch16 = .ok w → isListedReserved w = true →
    step s = .fault .reservedEncoding) ∧
  ∀ (s : State) (w : HalfWord) (i : Instr), s.fetch16 = .ok w → decodeRow s.params.opcMov w = some i →
    isImplemented s.params i = false → step s = .fault .reservedEncoding

/-- 00_scope.md R8: only class 2 and 3 instructions can be absent (where PAIN_STORE_WIDTH is by_page_body, with the
model's class rows of h.swpain and h.sbpain, log 16); the word of an absent one is a reserved encoding; a class 0
word decodes, and its execution is refused with the instruction's mnemonic. -/
def Obligations.AbsentInstructionsAreReservedAndClassZeroRefused : Prop :=
  (∀ (p : Config.Params) (i : Instr), isImplemented p i = false → classOf p i = 2 ∨ classOf p i = 3) ∧
  (∀ (s : State) (w : HalfWord) (i : Instr), s.fetch16 = .ok w → decodeRow s.params.opcMov w = some i →
    isImplemented s.params i = false → step s = .fault .reservedEncoding) ∧
  (∀ (s : State) (w : HalfWord) (i : Instr), s.fetch16 = .ok w → decodeRow s.params.opcMov w = some i →
    classOf s.params i = 0 →
    ∃ m, classZeroMnemonic i = some m ∧ step s = .refused (.noSemantics m))

/-- R107: the pattern with more fixed bits wins: 0x0N8B is h.lhz, 0x0N9B h.lbz, 0x1NA8 h.sh, 0x1NA9 h.sb; the
other words of the two groups are h.lw and h.sw; h.nop and h.rfe are single words of theirs. -/
def Obligations.LargerMaskWinsOverlaps : Prop :=
  (∀ n b : BitVec 4, WordIs (0x0#4 ++ n ++ 0x8#4 ++ b) (.lhz n b)) ∧
  (∀ n b : BitVec 4, WordIs (0x0#4 ++ n ++ 0x9#4 ++ b) (.lbz n b)) ∧
  (∀ n a b : BitVec 4, a ≠ 8 → a ≠ 9 → WordIs (0x0#4 ++ n ++ a ++ b) (.lw a n b)) ∧
  (∀ n a : BitVec 4, WordIs (0x1#4 ++ n ++ a ++ 0x8#4) (.sh n a)) ∧
  (∀ n a : BitVec 4, WordIs (0x1#4 ++ n ++ a ++ 0x9#4) (.sb n a)) ∧
  (∀ n a b : BitVec 4, b ≠ 8 → b ≠ 9 → WordIs (0x1#4 ++ n ++ a ++ b) (.sw n a b)) ∧
  WordIs 0x4B04 .nop ∧ WordIs 0xD900 .rfe

/-- R109: a word with top byte 0xE0 is h.notu whatever `OPC_MOV` is; a word is h.mov exactly where `OPC_MOV` is
given, is a reserved top byte, and is the word's top byte. R109 says one of the reserved top bytes of R108; that all
256 words of that top byte must be reserved, so not 0x4B or 0xD9, is the model's choice (log 15). -/
def Obligations.TopByteE0IsNotuAndMovNeedsAnOpcode : Prop :=
  (∀ a b : BitVec 4, WordIs (0xE0#8 ++ a ++ b) (.notu a b)) ∧
  ∀ (o : Option Byte) (w : HalfWord) (a b : RegId),
    decodeRow o w = some (.mov a b) ↔ ∃ k, o = some k ∧ isReservedTopByte k = true ∧ w = k ++ a ++ b

/-- Words written out from the encodings of 30_encoding.md, one or two of each family, are their instructions. -/
def Obligations.SpecWordsDecode : Prop :=
  decodeTableWord 16 0x4034 = some (.sfeq 3 4) ∧
  decodeTableWord 16 0x4B70 = some (.exths 7) ∧
  decodeTableWord 16 0x7312 = some (.adds 1 2 3) ∧
  decodeTableWord 16 0xF412 = some (.subwcs 1 2) ∧
  decodeTableWord 16 0xAFFE = some (.bnf 0xFFE) ∧
  decodeTableWord 16 0x4B56 = some (.jr 5) ∧
  decodeTableWord 16 0xC8A0 = some (.movibse 10 0x80) ∧
  decodeTableWord 16 0xD842 = some (.sys 0x42) ∧
  decodeTableWord 16 0xFE12 = some (.mtsr 1 2) ∧
  decodeTableWord 16 0xD312 = some (.mas 1 2) ∧
  decodeTableWord 16 0x4E12 = some (.divs 1 2) ∧
  decodeTableWord 16 0xEB10 = some (.shlai 1 16) ∧
  decodeTableWord 16 0xF71F = some (.testi 1 31) ∧
  decodeTableWord 16 0x0F12 = some (.lw 1 0xF 2) ∧
  decodeTableWord 16 0x0182 = some (.lhz 1 2) ∧
  decodeTableWord 16 0x5318 = some (.lwpain 1 8) ∧
  decodeTableWord 16 0x6672 = some (.swpain 7 2) ∧
  decodeTableWord 16 0x4B14 = none

/-! ## A step: fetch, decode, execute -/

/-- 00_scope.md R13: where the two bytes at an even pc are admitted, not stored to since launch, and decode to an
instruction, the step is that instruction's meaning; the pc's update is part of the meaning. -/
def Obligations.StepRunsTheDecodedInstruction : Prop :=
  ∀ (s : State) (i : Instr), s.pc.toNat % 2 = 0 →
    s.mem.isAdmitted s.pc.toNat = true → s.mem.isAdmitted (s.pc.toNat + 1) = true →
    s.pc.toNat ∉ s.mem.stored → s.pc.toNat + 1 ∉ s.mem.stored →
    decodeBytes s.params [s.mem.byteAt s.pc.toNat, s.mem.byteAt (s.pc.toNat + 1)] = .ok (i, []) →
    step s = exec i s

/-- A word placed at an even pc is the one the next step runs, in either byte order and under any parameters:
the model's own interface for placing a program (log 10). -/
def Obligations.PlacedWordIsRun : Prop :=
  ∀ (s : State) (w : HalfWord) (i : Instr), s.mem.wf → s.pc.toNat % 2 = 0 → decodeWord s.params w = .ok i →
    step (s.withFetchWord 16 w.toNat) = exec i (s.withFetchWord 16 w.toNat)

/-- 20_memory.md R67, R66, R76, and the first three checks of 60_exceptions.md R327 in their order: an odd pc
faults; else a byte outside the launch memory, where the spec has no step and the model a fault of its own (its
choice, log 14); else a byte stored to; else the fetch gives the half word at the pc. -/
def Obligations.FetchReadsTheHalfWordAtThePc : Prop :=
  ∀ s : State,
    s.fetch16 =
      if s.pc.toNat % 2 = 1 then .error .oddPc
      else if s.mem.isAdmitted s.pc.toNat = false ∨ s.mem.isAdmitted (s.pc.toNat + 1) = false then .error .outsideMemory
      else if s.pc.toNat ∈ s.mem.stored ∨ s.pc.toNat + 1 ∈ s.mem.stored then .error .fetchOfModifiedCode
      else .ok ((s.mem.valueAt s.params.byteOrder .half s.pc.toNat).setWidth 16)

/-! ## Memory (20_memory.md) -/

/-- R62: a read that is aligned and admitted gives the bytes assembled by `BYTE_ORDER`; any other read fails. -/
def Obligations.MemReadAssemblesTheBytes : Prop :=
  ∀ (s : State) (w : Width) (ea : Word),
    (s.mem.ready w ea → s.memRead w ea = .ok (s.mem.valueAt s.params.byteOrder w ea.toNat)) ∧
    (¬ s.mem.ready w ea → ∃ e, s.memRead w ea = .error e)

/-- R63: a write that is aligned and admitted stores the low bits of the value by `BYTE_ORDER`, leaves every other
byte and everything else as it was, and a read of the same place and width then gives those bits back. -/
def Obligations.MemWriteStoresTheBytes : Prop :=
  ∀ (s : State) (w : Width) (ea v : Word), s.mem.wf → s.mem.ready w ea →
    ∃ m, s.memWrite w ea v = .ok { s with mem := m } ∧
      s.mem.afterStore m s.params.byteOrder w ea v ∧
      State.memRead { s with mem := m } w ea = .ok (v &&& BitVec.ofNat 32 (2 ^ (8 * w.bytes) - 1))

/-- R65: a half-word access at an odd address and a word access at no multiple of 4 fault, in every instruction
that makes one; a byte access is never misaligned. -/
def Obligations.MisalignedAccessesFault : Prop :=
  (∀ (s : State) (a b : RegId) (n : BitVec 4),
    ((s.baseOffset .word b n).toNat % 4 ≠ 0 → exec (.lw a n b) s = .fault .misaligned) ∧
    ((s.baseOffset .half b n).toNat % 2 ≠ 0 → exec (.lhz n b) s = .fault .misaligned) ∧
    ((s.baseOffset .word a n).toNat % 4 ≠ 0 → exec (.sw n a b) s = .fault .misaligned) ∧
    ((s.baseOffset .half a n).toNat % 2 ≠ 0 → exec (.sh n a) s = .fault .misaligned) ∧
    (s.readPair.toNat % 4 ≠ 0 → exec (.lwpain a n) s = .fault .misaligned) ∧
    (s.readPair.toNat % 2 ≠ 0 → exec (.lhzpain a n) s = .fault .misaligned) ∧
    ((s.getReg a).toNat % 4 ≠ 0 → exec (.swpai a b) s = .fault .misaligned) ∧
    ((s.getReg a).toNat % 2 ≠ 0 → exec (.shpai a b) s = .fault .misaligned) ∧
    (s.readPair.toNat % 2 ≠ 0 → exec (.shpain n b) s = .fault .misaligned) ∧
    (s.params.painStoreWidth = .byMnemonic → s.readPair.toNat % 4 ≠ 0 →
      exec (.swpain n b) s = .fault .misaligned) ∧
    (s.params.painStoreWidth = .byPageBody → s.readPair.toNat % 4 ≠ 0 →
      exec (.sbpain n b) s = .fault .misaligned)) ∧
  ∀ (m : Memory) (ea : Word), m.accessFault .byte ea ≠ some .misaligned

/-- R66: an aligned access that touches a byte outside the launch memory has no step, which the model shows as the
fault outsideMemory (its choice, log 14), in each of the fifteen loads and stores that have semantics; the address is
the one the instruction's rule computes. -/
def Obligations.AccessesOutsideLaunchMemoryAreStuck : Prop :=
  ∀ (s : State) (a b : RegId) (n : BitVec 4),
    (s.mem.touchesOutside .word (s.baseOffset .word b n) → exec (.lw a n b) s = .fault .outsideMemory) ∧
    (s.mem.touchesOutside .half (s.baseOffset .half b n) → exec (.lhz n b) s = .fault .outsideMemory) ∧
    (s.mem.touchesOutside .byte (s.baseOffset .byte b n) → exec (.lbz n b) s = .fault .outsideMemory) ∧
    (s.mem.touchesOutside .word (s.baseOffset .word a n) → exec (.sw n a b) s = .fault .outsideMemory) ∧
    (s.mem.touchesOutside .half (s.baseOffset .half a n) → exec (.sh n a) s = .fault .outsideMemory) ∧
    (s.mem.touchesOutside .byte (s.baseOffset .byte a n) → exec (.sb n a) s = .fault .outsideMemory) ∧
    (s.mem.touchesOutside .word s.readPair → exec (.lwpain a n) s = .fault .outsideMemory) ∧
    (s.mem.touchesOutside .half s.readPair → exec (.lhzpain a n) s = .fault .outsideMemory) ∧
    (s.mem.touchesOutside .byte s.readPair → exec (.lbzpain a n) s = .fault .outsideMemory) ∧
    (s.mem.touchesOutside .word (s.getReg a) → exec (.swpai a b) s = .fault .outsideMemory) ∧
    (s.mem.touchesOutside .half (s.getReg a) → exec (.shpai a b) s = .fault .outsideMemory) ∧
    (s.mem.touchesOutside .byte (s.getReg a) → exec (.sbpai a b) s = .fault .outsideMemory) ∧
    (s.mem.touchesOutside .half s.readPair → exec (.shpain n b) s = .fault .outsideMemory) ∧
    (s.mem.touchesOutside (if s.params.painStoreWidth = .byMnemonic then .word else .byte) s.readPair →
      exec (.swpain n b) s = .fault .outsideMemory) ∧
    (s.mem.touchesOutside (if s.params.painStoreWidth = .byMnemonic then .byte else .word) s.readPair →
      exec (.sbpain n b) s = .fault .outsideMemory)

/-! ## Registers (10_state.md) -/

/-- R20: a write of any of the sixteen registers, r0 among them, is read back there and leaves the others. -/
def Obligations.GeneralRegistersReadBack : Prop :=
  ∀ (s : State) (r q : RegId) (v : Word),
    (s.setReg r v).getReg q = (if q = r then v else s.getReg q) ∧
    s.setReg r v = { s with regs := (s.setReg r v).regs }

/-- R28 and R30, as the model reads them (logs 11, 12, 13): LR is the general register `LR_REG` names, else a cell of
its own, and PAIR the general register `PAIR_ALIAS` names, else a cell of its own; reading and writing each is
reading and writing that place and no other. Where a load through PAIR loads the register that is PAIR, the loaded
value wins over the increment; where `PAIR_ALIAS` is a special-register index other than those of MACHI and MACLO,
h.mtsr and h.mfsr reach PAIR. -/
def Obligations.AliasesOfLinkRegisterAndPair : Prop :=
  (∀ (s : State) (v : Word), s.params.lrReg = none → s.readLink = s.lr ∧ s.writeLink v = { s with lr := v }) ∧
  (∀ (s : State) (k : RegId) (v : Word), s.params.lrReg = some k →
    s.readLink = s.getReg k ∧ s.writeLink v = s.setReg k v ∧
    (s.writeLink v).getReg k = v ∧ (s.setReg k v).readLink = v) ∧
  (∀ (s : State) (v : Word), (∀ k, s.params.pairAlias ≠ .generalRegister k) →
    s.readPair = s.pair ∧ s.writePair v = { s with pair := v }) ∧
  (∀ (s : State) (k : RegId) (v : Word), s.params.pairAlias = .generalRegister k →
    s.readPair = s.getReg k ∧ s.writePair v = s.setReg k v ∧
    (s.writePair v).getReg k = v ∧ (s.setReg k v).readPair = v) ∧
  (∀ (s : State) (k : RegId) (n : BitVec 4), s.params.pairAlias = .generalRegister k →
    (s.mem.ready .word (s.getReg k) →
      exec (.lwpain k n) s =
        .next (s.setReg k (s.mem.valueAt s.params.byteOrder .word (s.getReg k).toNat)).advance) ∧
    (s.mem.ready .half (s.getReg k) →
      exec (.lhzpain k n) s =
        .next (s.setReg k (s.mem.valueAt s.params.byteOrder .half (s.getReg k).toNat)).advance) ∧
    (s.mem.ready .byte (s.getReg k) →
      exec (.lbzpain k n) s =
        .next (s.setReg k (s.mem.valueAt s.params.byteOrder .byte (s.getReg k).toNat)).advance)) ∧
  ∀ (s : State) (a b : RegId) (x : Config.SprIndex), s.mode = .supervisor → s.params.sprIndex = some x →
    (s.getReg a ≠ x.machi → s.getReg a ≠ x.maclo → s.params.pairAlias = .specialRegister (s.getReg a) →
      exec (.mtsr a b) s = .next { s with pair := s.getReg b }.advance) ∧
    (s.getReg b ≠ x.machi → s.getReg b ≠ x.maclo → s.params.pairAlias = .specialRegister (s.getReg b) →
      exec (.mfsr a b) s = .next (s.setReg a s.pair).advance)

/-! ## The program counter (R23, R24) and the delay slot -/

/-- R23, R24: an instruction that transfers no control and stands in no delay slot goes on at pc + 2 modulo 2^32
(after 0xFFFFFFFE comes 0) with no jump pending. -/
def Obligations.OtherInstructionsGoOnInSequence : Prop :=
  ∀ (i : Instr) (s t : State), isControlTransfer i = false → s.delay = none → exec i s = .next t →
    t.pc.toNat = (s.pc.toNat + 2) % 2 ^ 32 ∧ t.delay = none

/-- R23, 70_reset_and_hazards.md R363: whatever instruction stands in a delay slot, if it has a next state, then
the instruction at the jump's target is next and no jump is pending. -/
def Obligations.DelaySlotGoesOnAtTheTarget : Prop :=
  ∀ (i : Instr) (s t : State) (a : Word), s.delay = some a → exec i s = .next t → t.pc = a ∧ t.delay = none

/-- 43_branch_jump.md R187: every control transfer faults in a delay slot, taken or not, and before any check of
its operand (60_exceptions.md R327); h.rfe is allowed there. -/
def Obligations.ControlTransferInADelaySlotFaults : Prop :=
  (∀ (i : Instr) (s : State) (a : Word), s.delay = some a → isControlTransfer i = true →
    exec i s = .fault .controlTransferInDelaySlot) ∧
  ∀ (s : State) (a : Word), s.delay = some a → s.mode = .supervisor →
    exec .rfe s = .next { s with mode := .user, pc := a, delay := none }

/-- R188: h.jr and h.jalr to an odd address fault; from an even pc no PC-relative target is odd. -/
def Obligations.OddRegisterTargetsFault : Prop :=
  (∀ (s : State) (a : RegId), s.delay = none → (s.getReg a).toNat % 2 = 1 →
    exec (.jr a) s = .fault .oddJumpTarget ∧ exec (.jalr a) s = .fault .oddJumpTarget) ∧
  ∀ (s : State) (x : BitVec 12), s.pc.toNat % 2 = 0 → (s.relativeTarget x).toNat % 2 = 0

/-! ## Who writes what -/

/-- R36, the side-effect table: an instruction writes a piece of state only if the table lists it as a writer
(a general register: its destination, or the register that is LR or PAIR where it writes those; PAIR by h.mtsr only
where `PAIR_ALIAS` is a special-register index: logs 11 to 13). -/
def Obligations.OnlyListedInstructionsWrite : Prop :=
  ∀ (i : Instr) (s t : State), exec i s = .next t →
    (∀ r, mayWriteReg s.params i r = false → t.getReg r = s.getReg r) ∧
    (writesFlag i = false → t.f = s.f) ∧
    (writesCarryFlag i = false → t.cy = s.cy) ∧
    (writesDivisorFlag i = false → t.divf = s.divf) ∧
    (writesLinkRegister i = false → t.lr = s.lr) ∧
    (writesMachi i = false → t.machi = s.machi) ∧
    (writesMaclo i = false → t.maclo = s.maclo) ∧
    (writesPairCell s.params i = false → t.pair = s.pair) ∧
    (writesMode i = false → t.mode = s.mode) ∧
    (setsDelay i = false → t.delay = none) ∧
    (writesMemory i = false → t.mem = s.mem)

/-! ## Compares (40_compare.md) -/

/-- R130 to R139: each compare, at its encoding, writes F and nothing else but the pc. -/
def Obligations.ComparesWriteTheFlag : Prop :=
  ∀ (s : State) (a b : RegId),
    (WordIs (0x40#8 ++ a ++ b) (.sfeq a b) ∧
      exec (.sfeq a b) s = .next { s with f := decide (s.getReg a = s.getReg b) }.advance) ∧
    (WordIs (0x41#8 ++ a ++ b) (.sfne a b) ∧
      exec (.sfne a b) s = .next { s with f := decide (s.getReg a ≠ s.getReg b) }.advance) ∧
    (WordIs (0x42#8 ++ a ++ b) (.sfgts a b) ∧
      exec (.sfgts a b) s = .next { s with f := (s.getReg b).slt (s.getReg a) }.advance) ∧
    (WordIs (0x43#8 ++ a ++ b) (.sfges a b) ∧
      exec (.sfges a b) s = .next { s with f := (s.getReg b).sle (s.getReg a) }.advance) ∧
    (WordIs (0x44#8 ++ a ++ b) (.sflts a b) ∧
      exec (.sflts a b) s = .next { s with f := (s.getReg a).slt (s.getReg b) }.advance) ∧
    (WordIs (0x45#8 ++ a ++ b) (.sfles a b) ∧
      exec (.sfles a b) s = .next { s with f := (s.getReg a).sle (s.getReg b) }.advance) ∧
    (WordIs (0x46#8 ++ a ++ b) (.sfgtu a b) ∧
      exec (.sfgtu a b) s = .next { s with f := (s.getReg b).ult (s.getReg a) }.advance) ∧
    (WordIs (0x47#8 ++ a ++ b) (.sfgeu a b) ∧
      exec (.sfgeu a b) s = .next { s with f := (s.getReg b).ule (s.getReg a) }.advance) ∧
    (WordIs (0x48#8 ++ a ++ b) (.sfltu a b) ∧
      exec (.sfltu a b) s = .next { s with f := (s.getReg a).ult (s.getReg b) }.advance) ∧
    (WordIs (0x49#8 ++ a ++ b) (.sfleu a b) ∧
      exec (.sfleu a b) s = .next { s with f := (s.getReg a).ule (s.getReg b) }.advance)

/-! ## Extensions and h.nop (41_extend_nop.md) -/

/-- R150 to R153: the low half word or byte is kept, the bits above are its top bit or zero; only rA is written. -/
def Obligations.ExtensionsFillTheHighBits : Prop :=
  ∀ (s : State) (a : RegId),
    (WordIs (0x4B#8 ++ a ++ 0x0#4) (.exths a) ∧
      ∃ v, exec (.exths a) s = .next (s.setReg a v).advance ∧
        ∀ i < 32, v.getLsbD i = (s.getReg a).getLsbD (if i < 16 then i else 15)) ∧
    (WordIs (0x4B#8 ++ a ++ 0x1#4) (.exthz a) ∧
      ∃ v, exec (.exthz a) s = .next (s.setReg a v).advance ∧ v.toNat = (s.getReg a).toNat % 2 ^ 16) ∧
    (WordIs (0x4B#8 ++ a ++ 0x2#4) (.extbs a) ∧
      ∃ v, exec (.extbs a) s = .next (s.setReg a v).advance ∧
        ∀ i < 32, v.getLsbD i = (s.getReg a).getLsbD (if i < 8 then i else 7)) ∧
    (WordIs (0x4B#8 ++ a ++ 0x3#4) (.extbz a) ∧
      ∃ v, exec (.extbz a) s = .next (s.setReg a v).advance ∧ v.toNat = (s.getReg a).toNat % 2 ^ 8)

/-- R154: h.nop is the word 0x4B04 and changes the pc only (to the pending target in a delay slot). -/
def Obligations.NopChangesOnlyThePc : Prop :=
  WordIs 0x4B04 .nop ∧
  ∀ s : State,
    (s.delay = none → exec .nop s = .next { s with pc := s.pc + 2 }) ∧
    (∀ t, s.delay = some t → exec .nop s = .next { s with pc := t, delay := none })

/-! ## Addition, subtraction, negation (42_arith.md) -/

/-- R160 to R163 with R167: the sum or difference modulo 2^32 goes to rA; under the conventional policy CARRY is
the carry out of bit 31, or 1 when there is no borrow, of the old values; under havoc it is any bit. Nothing else
changes but the pc and, under havoc, the count of free values. -/
def Obligations.AddsAndSubtractsModuloWithCarryOut : Prop :=
  ∀ (s : State) (a b d : RegId),
    (WordIs (0x7#4 ++ d ++ a ++ b) (.adds a b d) ∧
      ∃ c k, exec (.adds a b d) s = .next { s.setReg a (s.getReg b + s.getReg d) with cy := c, draws := k }.advance ∧
        (s.params.carryPolicy = .conventional →
          c = decide (2 ^ 32 ≤ (s.getReg b).toNat + (s.getReg d).toNat) ∧ k = s.draws)) ∧
    (WordIs (0xF0#8 ++ a ++ b) (.subs a b) ∧
      ∃ c k, exec (.subs a b) s = .next { s.setReg a (s.getReg a - s.getReg b) with cy := c, draws := k }.advance ∧
        (s.params.carryPolicy = .conventional →
          c = decide ((s.getReg b).toNat ≤ (s.getReg a).toNat) ∧ k = s.draws)) ∧
    (WordIs (0xF1#8 ++ a ++ b) (.addu a b) ∧
      ∃ c k, exec (.addu a b) s = .next { s.setReg a (s.getReg a + s.getReg b) with cy := c, draws := k }.advance ∧
        (s.params.carryPolicy = .conventional →
          c = decide (2 ^ 32 ≤ (s.getReg a).toNat + (s.getReg b).toNat) ∧ k = s.draws)) ∧
    (WordIs (0xF2#8 ++ a ++ b) (.subu a b) ∧
      ∃ c k, exec (.subu a b) s = .next { s.setReg a (s.getReg a - s.getReg b) with cy := c, draws := k }.advance ∧
        (s.params.carryPolicy = .conventional →
          c = decide ((s.getReg b).toNat ≤ (s.getReg a).toNat) ∧ k = s.draws))

/-- R164, R165 with R167: rA + rB + CY and rA - rB + CY - 1 modulo 2^32, with CY read as 0 or 1; the new CARRY
under the conventional policy is bit 32 of the 33-bit sum. -/
def Obligations.AddAndSubtractUseTheCarry : Prop :=
  ∀ (s : State) (a b : RegId),
    (WordIs (0xF3#8 ++ a ++ b) (.addwcs a b) ∧
      ∃ v c k, exec (.addwcs a b) s = .next { s.setReg a v with cy := c, draws := k }.advance ∧
        v = s.getReg a + s.getReg b + BitVec.ofNat 32 s.cy.toNat ∧
        (s.params.carryPolicy = .conventional →
          c = decide (2 ^ 32 ≤ (s.getReg a).toNat + (s.getReg b).toNat + s.cy.toNat) ∧ k = s.draws)) ∧
    (WordIs (0xF4#8 ++ a ++ b) (.subwcs a b) ∧
      ∃ v c k, exec (.subwcs a b) s = .next { s.setReg a v with cy := c, draws := k }.advance ∧
        v = s.getReg a - s.getReg b + BitVec.ofNat 32 s.cy.toNat - 1 ∧
        (s.params.carryPolicy = .conventional →
          c = decide ((s.getReg b).toNat + 1 ≤ (s.getReg a).toNat + s.cy.toNat) ∧ k = s.draws))

/-- R166: rA becomes the two's complement of rB; CARRY is not written. -/
def Obligations.NegationIsTwosComplement : Prop :=
  ∀ (s : State) (a b : RegId),
    WordIs (0xE1#8 ++ a ++ b) (.negs a b) ∧
    ∃ v, exec (.negs a b) s = .next (s.setReg a v).advance ∧ v + s.getReg b = 0

/-- R167: under the conventional policy a chain of h.addu on the low words and h.addwcs on the high words is a
64-bit sum, and h.subu, h.subwcs a 64-bit difference. -/
def Obligations.CarryChainsToSixtyFourBits : Prop :=
  ∀ (s t u : State) (ah al bh bl : RegId), s.params.carryPolicy = .conventional → al ≠ ah → al ≠ bh →
    (exec (.addu al bl) s = .next t → exec (.addwcs ah bh) t = .next u →
      u.getReg ah ++ u.getReg al = (s.getReg ah ++ s.getReg al) + (s.getReg bh ++ s.getReg bl)) ∧
    (exec (.subu al bl) s = .next t → exec (.subwcs ah bh) t = .next u →
      u.getReg ah ++ u.getReg al = (s.getReg ah ++ s.getReg al) - (s.getReg bh ++ s.getReg bl))

/-! ## Branches and jumps (43_branch_jump.md) -/

/-- R180, R181: with no delay slot, the pc goes to its own address plus twice the signed field X when the branch
is taken, else to pc + 2; nothing else changes. -/
def Obligations.BranchesGoByTheFlag : Prop :=
  ∀ (s : State) (x : BitVec 12), s.delay = none →
    (WordIs (0xA#4 ++ x) (.bnf x) ∧
      exec (.bnf x) s = .next { s with pc := if s.f then s.pc + 2 else s.pc + BitVec.ofInt 32 (2 * x.toInt) }) ∧
    (WordIs (0xB#4 ++ x) (.bf x) ∧
      exec (.bf x) s = .next { s with pc := if s.f then s.pc + BitVec.ofInt 32 (2 * x.toInt) else s.pc + 2 })

/-- R182, R183, R186: h.jal and h.jmp leave the jump to their own address plus twice the signed field X pending,
and go on at the delay slot; h.jal writes pc + LINK_OFFSET to LR, h.jmp does not write it. -/
def Obligations.RelativeJumpsHaveOneDelaySlot : Prop :=
  ∀ (s : State) (x : BitVec 12), s.delay = none →
    (WordIs (0x9#4 ++ x) (.jal x) ∧
      exec (.jal x) s =
        .next { s.writeLink (s.pc + if s.params.linkOffset = .two then 2 else 4) with
          delay := some (s.pc + BitVec.ofInt 32 (2 * x.toInt)), pc := s.pc + 2 }) ∧
    (WordIs (0x8#4 ++ x) (.jmp x) ∧
      exec (.jmp x) s = .next { s with delay := some (s.pc + BitVec.ofInt 32 (2 * x.toInt)), pc := s.pc + 2 })

/-- R184, R185: h.jr and h.jalr leave the jump to the old value of rA pending, and fault if it is odd; h.jalr writes
LR, also where rA is the link register; h.jr does not. -/
def Obligations.RegisterJumpsHaveOneDelaySlot : Prop :=
  ∀ (s : State) (a : RegId), s.delay = none →
    (WordIs (0x4B#8 ++ a ++ 0x6#4) (.jr a) ∧
      ((s.getReg a).toNat % 2 = 0 → exec (.jr a) s = .next { s with delay := some (s.getReg a), pc := s.pc + 2 }) ∧
      ((s.getReg a).toNat % 2 = 1 → exec (.jr a) s = .fault .oddJumpTarget)) ∧
    (WordIs (0x4B#8 ++ a ++ 0x5#4) (.jalr a) ∧
      ((s.getReg a).toNat % 2 = 0 →
        exec (.jalr a) s =
          .next { s.writeLink (s.pc + if s.params.linkOffset = .two then 2 else 4) with
            delay := some (s.getReg a), pc := s.pc + 2 }) ∧
      ((s.getReg a).toNat % 2 = 1 → exec (.jalr a) s = .fault .oddJumpTarget))

/-! ## Moves (44_move.md) -/

/-- R200, R203: h.movibse writes the sign-extended 8-bit immediate, its high nibble at bits 11:8; h.mov, encoded
under a given `OPC_MOV`, copies rB. -/
def Obligations.MovesWriteTheDestination : Prop :=
  (∀ (s : State) (a : RegId) (m : BitVec 8),
    WordIs (0xC#4 ++ m.extractLsb' 4 4 ++ a ++ m.extractLsb' 0 4) (.movibse a m) ∧
    ∃ v, exec (.movibse a m) s = .next (s.setReg a v).advance ∧ v.toInt = m.toInt) ∧
  ∀ (s : State) (a b : RegId),
    (∀ k : Byte, isReservedTopByte k = true → decodeRow (some k) (k ++ a ++ b) = some (.mov a b)) ∧
    exec (.mov a b) s = .next (s.setReg a (s.getReg b)).advance

/-- R201, R202, 49_load_store.md R299, R300: the four class 0 instructions decode and are refused by name. -/
def Obligations.ClassZeroInstructionsAreRefused : Prop :=
  (∀ (s : State) (a : RegId) (m : BitVec 8),
    (WordIs (0x2#4 ++ m.extractLsb' 4 4 ++ a ++ m.extractLsb' 0 4) (.movhibsl a m) ∧
      exec (.movhibsl a m) s = .refused (.noSemantics "h.movhibsl")) ∧
    (WordIs (0x3#4 ++ m.extractLsb' 4 4 ++ a ++ m.extractLsb' 0 4) (.movhibse a m) ∧
      exec (.movhibse a m) s = .refused (.noSemantics "h.movhibse"))) ∧
  ∀ (s : State) (a : RegId) (n : BitVec 4),
    (WordIs (0x56#8 ++ a ++ n) (.lhspain a n) ∧ exec (.lhspain a n) s = .refused (.noSemantics "h.lhspain")) ∧
    (WordIs (0x57#8 ++ a ++ n) (.lbspain a n) ∧ exec (.lbspain a n) s = .refused (.noSemantics "h.lbspain"))

/-! ## System (45_system.md, 60_exceptions.md) -/

/-- R210, R211, R215, R323: in either mode, whatever the immediate, h.sys goes to 0xC00 and h.brk to 0xD00 in
Supervisor mode and change nothing else; in a delay slot both fault. -/
def Obligations.TrapsEnterSupervisorAtTheirVector : Prop :=
  ∀ (s : State) (m : BitVec 8),
    (WordIs (0xD0#8 ++ m) (.brk m) ∧
      (s.delay = none → exec (.brk m) s = .next { s with mode := .supervisor, pc := 0x00000D00 }) ∧
      (s.delay ≠ none → exec (.brk m) s = .fault .controlTransferInDelaySlot)) ∧
    (WordIs (0xD8#8 ++ m) (.sys m) ∧
      (s.delay = none → exec (.sys m) s = .next { s with mode := .supervisor, pc := 0x00000C00 }) ∧
      (s.delay ≠ none → exec (.sys m) s = .fault .controlTransferInDelaySlot))

/-- R212: h.rfe in Supervisor mode sets User mode, restores nothing, and goes on as any instruction does; in User
mode it faults. -/
def Obligations.ReturnFromExceptionSetsUserModeOnly : Prop :=
  WordIs 0xD900 .rfe ∧
  ∀ s : State,
    (s.mode = .supervisor →
      exec .rfe s = .next { s with mode := .user, pc := s.delay.getD (s.pc + 2), delay := none }) ∧
    (s.mode = .user → exec .rfe s = .fault .privilegedInUserMode)

/-- R328: h.rfe sets User mode and goes on as any instruction that does not jump: outside a delay slot at pc + 2;
in the delay slot of h.jr rX, which is issued in Supervisor mode, at the even address in rX. Nothing else changes. -/
def Obligations.ReturnIdiomArrivesInUserMode : Prop :=
  ∀ (s : State) (a : RegId), s.mode = .supervisor → s.delay = none →
    exec .rfe s = .next { s with mode := .user, pc := s.pc + 2 } ∧
    ((s.getReg a).toNat % 2 = 0 →
      ∃ t, exec (.jr a) s = .next t ∧ t.mode = .supervisor ∧ t.pc = s.pc + 2 ∧
        exec .rfe t = .next { s with mode := .user, pc := s.getReg a })

/-- R213, R214: in Supervisor mode, with the two indexes of `spr_index` given, h.mtsr and h.mfsr move between a
general register and MACHI or MACLO, selected by the value of the index register; any other index (that
`PAIR_ALIAS` does not name, R30) is refused; while `spr_index` is not given every one is refused; in User mode both
fault. -/
def Obligations.SpecialRegisterMoves : Prop :=
  (∀ a b : RegId, WordIs (0xFE#8 ++ a ++ b) (.mtsr a b) ∧ WordIs (0xFF#8 ++ a ++ b) (.mfsr a b)) ∧
  (∀ (s : State) (a b : RegId) (x : Config.SprIndex), s.mode = .supervisor → s.params.sprIndex = some x →
    (s.getReg a = x.machi → exec (.mtsr a b) s = .next { s with machi := s.getReg b }.advance) ∧
    (s.getReg a = x.maclo → x.maclo ≠ x.machi → exec (.mtsr a b) s = .next { s with maclo := s.getReg b }.advance) ∧
    (s.getReg b = x.machi → exec (.mfsr a b) s = .next (s.setReg a s.machi).advance) ∧
    (s.getReg b = x.maclo → x.maclo ≠ x.machi → exec (.mfsr a b) s = .next (s.setReg a s.maclo).advance) ∧
    (s.getReg a ≠ x.machi → s.getReg a ≠ x.maclo → s.params.pairAlias ≠ .specialRegister (s.getReg a) →
      exec (.mtsr a b) s = .refused .writeOfUnnamedSpecialRegister) ∧
    (s.getReg b ≠ x.machi → s.getReg b ≠ x.maclo → s.params.pairAlias ≠ .specialRegister (s.getReg b) →
      exec (.mfsr a b) s = .refused .readOfUnnamedSpecialRegister)) ∧
  (∀ (s : State) (a b : RegId), s.mode = .supervisor → s.params.sprIndex = none →
    exec (.mtsr a b) s = .refused .writeOfUnnamedSpecialRegister ∧
    exec (.mfsr a b) s = .refused .readOfUnnamedSpecialRegister) ∧
  ∀ (s : State) (a b : RegId), s.mode = .user →
    exec (.mtsr a b) s = .fault .privilegedInUserMode ∧ exec (.mfsr a b) s = .fault .privilegedInUserMode

/-- R331: h.rfe, h.mtsr and h.mfsr fault in User mode, and no other instruction does so for its mode. -/
def Obligations.PrivilegedInstructionsFaultInUserMode : Prop :=
  ∀ (i : Instr) (s : State),
    exec i s = .fault .privilegedInUserMode ↔
      s.mode = .user ∧ (i = .rfe ∨ (∃ a b, i = .mtsr a b) ∨ ∃ a b, i = .mfsr a b)

/-- R332: a step leaves User mode only by h.sys or h.brk, at their handler, and Supervisor mode only by h.rfe. -/
def Obligations.ModeChangesOnlyByTrapsAndReturn : Prop :=
  ∀ s t : State, step s = .next t →
    (s.mode = .user → t.mode = .supervisor →
      ∃ w m, s.fetch16 = .ok w ∧
        ((decodeWord s.params w = .ok (.sys m) ∧ t.pc = 0xC00) ∨ (decodeWord s.params w = .ok (.brk m) ∧ t.pc = 0xD00))) ∧
    (s.mode = .supervisor → t.mode = .user → ∃ w, s.fetch16 = .ok w ∧ decodeWord s.params w = .ok .rfe)

/-- R332, 20_memory.md R78: an instruction outside class 4 does the same in both modes, memory accesses among them.
Both runs draw the same free values (zero divisor, index above 31, CARRY under havoc): they start with the same count
of draws, and in this model a drawn value depends on that count alone, which is the model's choice (log 8). -/
def Obligations.ModeDoesNotMatterToUnprivilegedInstructions : Prop :=
  ∀ (i : Instr) (s : State) (m : Mode), isSystem i = false →
    sameOutcome (fun t u => u = { t with mode := m }) (exec i s) (exec i { s with mode := m })

/-- 10_state.md R29, R332: User code can accumulate but cannot read the result: in User mode two states that differ
at most in MACHI and MACLO have steps of the same kind, whose next states differ at most in MACHI and MACLO. Both
runs draw the same free values: they start with the same count of draws, and in this model a drawn value depends on
that count alone, not on the accumulator, which is the model's choice (log 8). -/
def Obligations.UserModeCannotReadTheAccumulator : Prop :=
  ∀ s t : State, s.mode = .user → agreeOffAccumulator s t → sameOutcome agreeOffAccumulator (step s) (step t)

/-! ## Multiply, divide, accumulate (46_muldiv_mac.md) -/

/-- R230, R231: the signed product is added to, or subtracted from, the 64-bit accumulator modulo 2^64; no general
register is written. -/
def Obligations.MultiplyAccumulateIsSixtyFourBit : Prop :=
  ∀ (s : State) (a b : RegId),
    (WordIs (0xD3#8 ++ a ++ b) (.mas a b) ∧
      ∃ hi lo, exec (.mas a b) s = .next { s with machi := hi, maclo := lo }.advance ∧
        hi ++ lo = (s.machi ++ s.maclo) + BitVec.ofInt 64 ((s.getReg a).toInt * (s.getReg b).toInt)) ∧
    (WordIs (0xD2#8 ++ a ++ b) (.mss a b) ∧
      ∃ hi lo, exec (.mss a b) s = .next { s with machi := hi, maclo := lo }.advance ∧
        hi ++ lo = (s.machi ++ s.maclo) - BitVec.ofInt 64 ((s.getReg a).toInt * (s.getReg b).toInt))

/-- R234, R235: the exact 64-bit product, signed or unsigned; the low half goes to rA, the high half to MACHI, and
MACLO is kept. -/
def Obligations.MultipliesAreExact : Prop :=
  ∀ (s : State) (a b : RegId),
    (WordIs (0x4C#8 ++ a ++ b) (.muls a b) ∧
      ∃ hi lo, exec (.muls a b) s = .next { s.setReg a lo with machi := hi }.advance ∧
        (hi ++ lo).toInt = (s.getReg a).toInt * (s.getReg b).toInt) ∧
    (WordIs (0x4D#8 ++ a ++ b) (.mulu a b) ∧
      ∃ hi lo, exec (.mulu a b) s = .next { s.setReg a lo with machi := hi }.advance ∧
        (hi ++ lo).toNat = (s.getReg a).toNat * (s.getReg b).toNat)

/-- R233, R237: for a divisor that is not zero, the unsigned quotient or remainder goes to rA and DIVF is unchanged
or 0; for a zero divisor DIVF is set and rA holds some value. Nothing else changes but the pc and the count of free
values. -/
def Obligations.UnsignedDivideAndModulus : Prop :=
  ∀ (s : State) (a b : RegId),
    (WordIs (0x4F#8 ++ a ++ b) (.divu a b) ∧
      ∃ v d k, exec (.divu a b) s = .next { s.setReg a v with divf := d, draws := k }.advance ∧
        (if s.getReg b = 0 then d = true
          else v.toNat = (s.getReg a).toNat / (s.getReg b).toNat ∧ (d = s.divf ∨ d = false))) ∧
    (WordIs (0xD7#8 ++ a ++ b) (.modu a b) ∧
      ∃ v d k, exec (.modu a b) s = .next { s.setReg a v with divf := d, draws := k }.advance ∧
        (if s.getReg b = 0 then d = true
          else v.toNat = (s.getReg a).toNat % (s.getReg b).toNat ∧ (d = s.divf ∨ d = false)))

/-- R232, R236, R239: for a divisor that is not zero, the signed quotient and remainder by `numerics`, with the
default truncating toward zero and the remainder taking the dividend's sign; -2^31 by -1 leaves any quotient and
the remainder 0; DIVF is unchanged or 0. For a zero divisor DIVF is set and rA holds some value. -/
def Obligations.SignedDivideAndModulus : Prop :=
  ∀ (s : State) (a b : RegId),
    (WordIs (0x4E#8 ++ a ++ b) (.divs a b) ∧
      ∃ v d k, exec (.divs a b) s = .next { s.setReg a v with divf := d, draws := k }.advance ∧
        (if s.getReg b = 0 then d = true
          else (d = s.divf ∨ d = false) ∧
            (¬ ((s.getReg a).toInt = -2 ^ 31 ∧ (s.getReg b).toInt = -1) → s.params.divs = .truncate →
              v.toInt = (s.getReg a).toInt.tdiv (s.getReg b).toInt) ∧
            (¬ ((s.getReg a).toInt = -2 ^ 31 ∧ (s.getReg b).toInt = -1) → s.params.divs = .given →
              v = Config.givenDivs (s.getReg a) (s.getReg b)))) ∧
    (WordIs (0xD5#8 ++ a ++ b) (.mods a b) ∧
      ∃ v d k, exec (.mods a b) s = .next { s.setReg a v with divf := d, draws := k }.advance ∧
        (if s.getReg b = 0 then d = true
          else (d = s.divf ∨ d = false) ∧
            ((s.getReg a).toInt = -2 ^ 31 ∧ (s.getReg b).toInt = -1 → v = 0) ∧
            (s.params.mods = .truncate → v.toInt = (s.getReg a).toInt.tmod (s.getReg b).toInt) ∧
            (¬ ((s.getReg a).toInt = -2 ^ 31 ∧ (s.getReg b).toInt = -1) → s.params.mods = .given →
              v = Config.givenMods (s.getReg a) (s.getReg b))))

/-- R238: a zero divisor sets DIVF, leaves some value in rA, and raises no exception; another divisor leaves DIVF as
it was or 0; and no instruction reads DIVF: two states that differ in it at most have outcomes of the same kind,
whose next states differ in it at most. In that last clause both runs draw the same free values: they start with the
same count of draws, and in this model a drawn value depends on that count alone, which is the model's choice
(log 8). -/
def Obligations.DivisorFlagIsSetByAZeroDivisorAndReadByNothing : Prop :=
  (∀ (s : State) (a b : RegId) (i : Instr),
    (i = .divs a b ∨ i = .divu a b ∨ i = .mods a b ∨ i = .modu a b) →
    ∃ v d k, exec i s = .next { s.setReg a v with divf := d, draws := k }.advance ∧
      (if s.getReg b = 0 then d = true else d = s.divf ∨ d = false)) ∧
  ∀ (i : Instr) (s t : State), t = { s with divf := t.divf } →
    sameOutcome (fun u v => v = { u with divf := v.divf }) (exec i s) (exec i t)

/-! ## Logic, swaps, shifts, rotates (47_logic_shift.md) -/

/-- R250 to R255, bit by bit: complement, exclusive or, or, and; the bytes or half words end to end. Only rA is
written. -/
def Obligations.LogicAndSwapsBitByBit : Prop :=
  ∀ (s : State) (a b : RegId),
    (WordIs (0xE0#8 ++ a ++ b) (.notu a b) ∧
      ∃ v, exec (.notu a b) s = .next (s.setReg a v).advance ∧ ∀ i < 32, v.getLsbD i = !(s.getReg b).getLsbD i) ∧
    (WordIs (0xE2#8 ++ a ++ b) (.xor a b) ∧
      ∃ v, exec (.xor a b) s = .next (s.setReg a v).advance ∧
        ∀ i < 32, v.getLsbD i = ((s.getReg a).getLsbD i != (s.getReg b).getLsbD i)) ∧
    (WordIs (0xE3#8 ++ a ++ b) (.or a b) ∧
      ∃ v, exec (.or a b) s = .next (s.setReg a v).advance ∧
        ∀ i < 32, v.getLsbD i = ((s.getReg a).getLsbD i || (s.getReg b).getLsbD i)) ∧
    (WordIs (0xE4#8 ++ a ++ b) (.and a b) ∧
      ∃ v, exec (.and a b) s = .next (s.setReg a v).advance ∧
        ∀ i < 32, v.getLsbD i = ((s.getReg a).getLsbD i && (s.getReg b).getLsbD i)) ∧
    (WordIs (0xE5#8 ++ a ++ b) (.swapb a b) ∧
      ∃ v, exec (.swapb a b) s = .next (s.setReg a v).advance ∧
        ∀ i < 32, v.getLsbD i = (s.getReg b).getLsbD (8 * (3 - i / 8) + i % 8)) ∧
    (WordIs (0xE6#8 ++ a ++ b) (.swaph a b) ∧
      ∃ v, exec (.swaph a b) s = .next (s.setReg a v).advance ∧
        ∀ i < 32, v.getLsbD i = (s.getReg b).getLsbD ((i + 16) % 32))

/-- R256 to R261: left shifts multiply modulo 2^32, arithmetic right shifts divide the signed value rounding down,
logical right shifts divide the unsigned value; the amount is the 5-bit immediate or rB[4:0]. Only rA is written. -/
def Obligations.ShiftsMultiplyAndDivide : Prop :=
  (∀ (s : State) (a : RegId) (l : BitVec 5),
    (WordIs (0x75#7 ++ l.extractLsb' 4 1 ++ a ++ l.extractLsb' 0 4) (.shlai a l) ∧
      ∃ v, exec (.shlai a l) s = .next (s.setReg a v).advance ∧
        v.toNat = (s.getReg a).toNat * 2 ^ l.toNat % 2 ^ 32) ∧
    (WordIs (0x76#7 ++ l.extractLsb' 4 1 ++ a ++ l.extractLsb' 0 4) (.shrai a l) ∧
      ∃ v, exec (.shrai a l) s = .next (s.setReg a v).advance ∧ v.toInt = (s.getReg a).toInt / 2 ^ l.toNat) ∧
    (WordIs (0x77#7 ++ l.extractLsb' 4 1 ++ a ++ l.extractLsb' 0 4) (.shrli a l) ∧
      ∃ v, exec (.shrli a l) s = .next (s.setReg a v).advance ∧ v.toNat = (s.getReg a).toNat / 2 ^ l.toNat)) ∧
  ∀ (s : State) (a b : RegId),
    (WordIs (0xDA#8 ++ a ++ b) (.shla a b) ∧
      ∃ v, exec (.shla a b) s = .next (s.setReg a v).advance ∧
        v.toNat = (s.getReg a).toNat * 2 ^ ((s.getReg b).toNat % 32) % 2 ^ 32) ∧
    (WordIs (0xDC#8 ++ a ++ b) (.shra a b) ∧
      ∃ v, exec (.shra a b) s = .next (s.setReg a v).advance ∧
        v.toInt = (s.getReg a).toInt / 2 ^ ((s.getReg b).toNat % 32)) ∧
    (WordIs (0xDE#8 ++ a ++ b) (.shrl a b) ∧
      ∃ v, exec (.shrl a b) s = .next (s.setReg a v).advance ∧
        v.toNat = (s.getReg a).toNat / 2 ^ ((s.getReg b).toNat % 32))

/-- R262, R263: a rotate by k = rB[4:0] moves each bit k places round the register; a rotate left by k is a rotate
right by (32 - k) mod 32. Only rA is written. -/
def Obligations.RotatesMoveBitsRound : Prop :=
  (∀ (s : State) (a b : RegId),
    (WordIs (0xDB#8 ++ a ++ b) (.ror a b) ∧
      ∃ v, exec (.ror a b) s = .next (s.setReg a v).advance ∧
        ∀ i < 32, v.getLsbD i = (s.getReg a).getLsbD ((i + (s.getReg b).toNat % 32) % 32)) ∧
    (WordIs (0xDD#8 ++ a ++ b) (.rol a b) ∧
      ∃ v, exec (.rol a b) s = .next (s.setReg a v).advance ∧
        ∀ i < 32, v.getLsbD ((i + (s.getReg b).toNat % 32) % 32) = (s.getReg a).getLsbD i)) ∧
  ∀ (v : Word) (k : Nat), k < 32 → rotateLeft v k = rotateRight v ((32 - k) % 32)

/-! ## Bits (48_bit.md) -/

/-- R281, R283, R285, and R280, R282, R284 for an index of at most 31: the test copies the bit to F; clear and set
write that bit of rA and leave the other 31. Nothing else changes but the pc. -/
def Obligations.BitInstructionsActOnOneBit : Prop :=
  (∀ (s : State) (a : RegId) (m : BitVec 5),
    (WordIs (0x7B#7 ++ m.extractLsb' 4 1 ++ a ++ m.extractLsb' 0 4) (.testi a m) ∧
      exec (.testi a m) s = .next { s with f := (s.getReg a).getLsbD m.toNat }.advance) ∧
    (WordIs (0x7C#7 ++ m.extractLsb' 4 1 ++ a ++ m.extractLsb' 0 4) (.clri a m) ∧
      ∃ v, exec (.clri a m) s = .next (s.setReg a v).advance ∧
        ∀ i < 32, v.getLsbD i = if i = m.toNat then false else (s.getReg a).getLsbD i) ∧
    (WordIs (0x7D#7 ++ m.extractLsb' 4 1 ++ a ++ m.extractLsb' 0 4) (.seti a m) ∧
      ∃ v, exec (.seti a m) s = .next (s.setReg a v).advance ∧
        ∀ i < 32, v.getLsbD i = if i = m.toNat then true else (s.getReg a).getLsbD i)) ∧
  ∀ (s : State) (a b : RegId), (s.getReg b).toNat ≤ 31 →
    (WordIs (0xF5#8 ++ a ++ b) (.test a b) ∧
      exec (.test a b) s = .next { s with f := (s.getReg a).getLsbD (s.getReg b).toNat }.advance) ∧
    (WordIs (0xFC#8 ++ a ++ b) (.clr a b) ∧
      ∃ v, exec (.clr a b) s = .next (s.setReg a v).advance ∧
        ∀ i < 32, v.getLsbD i = if i = (s.getReg b).toNat then false else (s.getReg a).getLsbD i) ∧
    (WordIs (0xFD#8 ++ a ++ b) (.set a b) ∧
      ∃ v, exec (.set a b) s = .next (s.setReg a v).advance ∧
        ∀ i < 32, v.getLsbD i = if i = (s.getReg b).toNat then true else (s.getReg a).getLsbD i)

/-- R286: with an index above 31 the instruction runs: h.test leaves some F, h.clr and h.set some value in rA, and
everything else as it was. -/
def Obligations.BitIndexAboveThirtyOneLeavesAnyValue : Prop :=
  ∀ (s : State) (a b : RegId), 32 ≤ (s.getReg b).toNat →
    (∃ f k, exec (.test a b) s = .next { s with f := f, draws := k }.advance) ∧
    (∃ v k, exec (.clr a b) s = .next { s.setReg a v with draws := k }.advance) ∧
    (∃ v k, exec (.set a b) s = .next { s.setReg a v with draws := k }.advance)

/-! ## Loads and stores (49_load_store.md) -/

/-- R290 to R292: the word at rB + 4 N goes to rA, the half word at rB + 2 N to r8, the byte at rB + N to r9, N
signed, narrow loads zero-extended; nothing else changes but the pc. -/
def Obligations.LoadsReadAtBasePlusOffset : Prop :=
  ∀ (s : State) (a b : RegId) (n : BitVec 4),
    ((a ≠ 8 → a ≠ 9 → WordIs (0x0#4 ++ n ++ a ++ b) (.lw a n b)) ∧
      s.baseOffset .word b n = s.getReg b + BitVec.ofInt 32 (4 * n.toInt) ∧
      (s.mem.ready .word (s.baseOffset .word b n) →
        exec (.lw a n b) s =
          .next (s.setReg a (s.mem.valueAt s.params.byteOrder .word (s.baseOffset .word b n).toNat)).advance)) ∧
    (WordIs (0x0#4 ++ n ++ 0x8#4 ++ b) (.lhz n b) ∧
      s.baseOffset .half b n = s.getReg b + BitVec.ofInt 32 (2 * n.toInt) ∧
      (s.mem.ready .half (s.baseOffset .half b n) →
        exec (.lhz n b) s =
          .next (s.setReg 8 (s.mem.valueAt s.params.byteOrder .half (s.baseOffset .half b n).toNat)).advance)) ∧
    (WordIs (0x0#4 ++ n ++ 0x9#4 ++ b) (.lbz n b) ∧
      s.baseOffset .byte b n = s.getReg b + BitVec.ofInt 32 n.toInt ∧
      (s.mem.ready .byte (s.baseOffset .byte b n) →
        exec (.lbz n b) s =
          .next (s.setReg 9 (s.mem.valueAt s.params.byteOrder .byte (s.baseOffset .byte b n).toNat)).advance))

/-- R296 to R298: the value at the old PAIR goes to rA, and PAIR moves by N times the width, N signed. Where
`PAIR_ALIAS` makes rA itself PAIR, the loaded value wins over the increment: the model's inference from
92_eei_decisions.md D36 (log 12). -/
def Obligations.LoadsThroughPairIncrementIt : Prop :=
  ∀ (s : State) (a : RegId) (n : BitVec 4),
    (WordIs (0x53#8 ++ a ++ n) (.lwpain a n) ∧
      (s.mem.ready .word s.readPair →
        exec (.lwpain a n) s =
          .next ((s.writePair (s.readPair + BitVec.ofInt 32 (4 * n.toInt))).setReg a
            (s.mem.valueAt s.params.byteOrder .word s.readPair.toNat)).advance)) ∧
    (WordIs (0x54#8 ++ a ++ n) (.lhzpain a n) ∧
      (s.mem.ready .half s.readPair →
        exec (.lhzpain a n) s =
          .next ((s.writePair (s.readPair + BitVec.ofInt 32 (2 * n.toInt))).setReg a
            (s.mem.valueAt s.params.byteOrder .half s.readPair.toNat)).advance)) ∧
    (WordIs (0x55#8 ++ a ++ n) (.lbzpain a n) ∧
      (s.mem.ready .byte s.readPair →
        exec (.lbzpain a n) s =
          .next ((s.writePair (s.readPair + BitVec.ofInt 32 n.toInt)).setReg a
            (s.mem.valueAt s.params.byteOrder .byte s.readPair.toNat)).advance))

/-- R293 to R295: rB goes to the word at rA + 4 N, the low half of r8 to rA + 2 N, the low byte of r9 to rA + N, N
signed; every other byte, and every register and flag, is as before. -/
def Obligations.StoresWriteAtBasePlusOffset : Prop :=
  ∀ (s : State) (a b : RegId) (n : BitVec 4), s.mem.wf →
    ((b ≠ 8 → b ≠ 9 → WordIs (0x1#4 ++ n ++ a ++ b) (.sw n a b)) ∧
      s.baseOffset .word a n = s.getReg a + BitVec.ofInt 32 (4 * n.toInt) ∧
      (s.mem.ready .word (s.baseOffset .word a n) →
        ∃ m, exec (.sw n a b) s = .next { s with mem := m }.advance ∧
          s.mem.afterStore m s.params.byteOrder .word (s.baseOffset .word a n) (s.getReg b))) ∧
    (WordIs (0x1#4 ++ n ++ a ++ 0x8#4) (.sh n a) ∧
      s.baseOffset .half a n = s.getReg a + BitVec.ofInt 32 (2 * n.toInt) ∧
      (s.mem.ready .half (s.baseOffset .half a n) →
        ∃ m, exec (.sh n a) s = .next { s with mem := m }.advance ∧
          s.mem.afterStore m s.params.byteOrder .half (s.baseOffset .half a n) (s.getReg 8))) ∧
    (WordIs (0x1#4 ++ n ++ a ++ 0x9#4) (.sb n a) ∧
      s.baseOffset .byte a n = s.getReg a + BitVec.ofInt 32 n.toInt ∧
      (s.mem.ready .byte (s.baseOffset .byte a n) →
        ∃ m, exec (.sb n a) s = .next { s with mem := m }.advance ∧
          s.mem.afterStore m s.params.byteOrder .byte (s.baseOffset .byte a n) (s.getReg 9)))

/-- R301 to R303: the old value of rB goes to the old address in rA, and rA moves by the width; every other byte,
register and flag is as before. -/
def Obligations.PostIncrementStoresMoveTheAddressRegister : Prop :=
  ∀ (s : State) (a b : RegId), s.mem.wf →
    (WordIs (0x63#8 ++ a ++ b) (.swpai a b) ∧
      (s.mem.ready .word (s.getReg a) →
        ∃ m, exec (.swpai a b) s = .next { s.setReg a (s.getReg a + 4) with mem := m }.advance ∧
          s.mem.afterStore m s.params.byteOrder .word (s.getReg a) (s.getReg b))) ∧
    (WordIs (0x64#8 ++ a ++ b) (.shpai a b) ∧
      (s.mem.ready .half (s.getReg a) →
        ∃ m, exec (.shpai a b) s = .next { s.setReg a (s.getReg a + 2) with mem := m }.advance ∧
          s.mem.afterStore m s.params.byteOrder .half (s.getReg a) (s.getReg b))) ∧
    (WordIs (0x65#8 ++ a ++ b) (.sbpai a b) ∧
      (s.mem.ready .byte (s.getReg a) →
        ∃ m, exec (.sbpai a b) s = .next { s.setReg a (s.getReg a + 1) with mem := m }.advance ∧
          s.mem.afterStore m s.params.byteOrder .byte (s.getReg a) (s.getReg b)))

/-- R304 to R306: rB goes to the old PAIR, and PAIR moves by N times the width, N signed; top byte 0x66 stores a
word and 0x68 a byte by mnemonic, the reverse by page body; every other byte, register and flag is as before. -/
def Obligations.StoresThroughPairIncrementIt : Prop :=
  ∀ (s : State) (n : BitVec 4) (b : RegId), s.mem.wf →
    (WordIs (0x66#8 ++ n ++ b) (.swpain n b) ∧ WordIs (0x67#8 ++ n ++ b) (.shpain n b) ∧
      WordIs (0x68#8 ++ n ++ b) (.sbpain n b)) ∧
    (s.mem.ready .half s.readPair →
      ∃ m, exec (.shpain n b) s =
          .next { s.writePair (s.readPair + BitVec.ofInt 32 (2 * n.toInt)) with mem := m }.advance ∧
        s.mem.afterStore m s.params.byteOrder .half s.readPair (s.getReg b)) ∧
    (s.mem.ready .word s.readPair →
      ∃ m, exec (if s.params.painStoreWidth = .byMnemonic then .swpain n b else .sbpain n b) s =
          .next { s.writePair (s.readPair + BitVec.ofInt 32 (4 * n.toInt)) with mem := m }.advance ∧
        s.mem.afterStore m s.params.byteOrder .word s.readPair (s.getReg b)) ∧
    (s.mem.ready .byte s.readPair →
      ∃ m, exec (if s.params.painStoreWidth = .byMnemonic then .sbpain n b else .swpain n b) s =
          .next { s.writePair (s.readPair + BitVec.ofInt 32 n.toInt) with mem := m }.advance ∧
        s.mem.afterStore m s.params.byteOrder .byte s.readPair (s.getReg b))

/-! ## Reset and the invariant (70_reset_and_hazards.md) -/

/-- R360: after reset no jump is pending, under any parameters, and the mode is RESET_MODE, Supervisor by default. -/
def Obligations.ResetHasNoJumpPendingInSupervisorMode : Prop :=
  State.reset.delay = none ∧ State.reset.mode = .supervisor ∧
  ∀ (p : Config.Params) (pc : Word) (m : Mode),
    (State.resetWith p pc m).delay = none ∧ (State.resetWith p pc m).mode = m ∧ (State.resetWith p pc m).pc = pc

/-- The reset state, with the RESET_PC and the memory that the model chooses (logs 3 and 9), meets the invariant that
every step keeps. -/
def Obligations.ResetMeetsTheMachineInvariant : Prop :=
  State.reset.Inv

/-- From every state whose memory is in the model's canonical form (log 9), whose pc is even and whose pending target
is even, a step leads only to such states. -/
def Obligations.StepKeepsTheMachineInvariant : Prop :=
  ∀ s t : State, s.Inv → step s = .next t → t.Inv

/-- 10_state.md R35, 20_memory.md R66, R76: no step changes a parameter or which addresses hold memory, and no byte
once stored to becomes fetchable again. -/
def Obligations.StepKeepsParametersAndLaunchMemory : Prop :=
  ∀ s t : State, step s = .next t →
    t.params = s.params ∧ t.mem.admitted = s.mem.admitted ∧ ∀ a, a ∈ s.mem.stored → a ∈ t.mem.stored
end

