-- ==== Sys2Proof/Laws/Bytes.lean ====
section
/-! SUPPORT. The values that bytes make up, and the bytes of a value, written out by byte order and width. -/

namespace Sys2Proof.Machine

theorem ofBytes_one (o : Config.ByteOrder) (b : Byte) : ofBytes o [b] = b.setWidth 32 := by
  cases o <;> simp [ofBytes, ofBytesLittle]

theorem ofBytes_big_two (b0 b1 : Byte) : ofBytes .big [b0, b1] = (b0 ++ b1).setWidth 32 := by
  apply BitVec.eq_of_getLsbD_eq
  intro i h
  rw [BitVec.getLsbD_setWidth, BitVec.getLsbD_append]
  by_cases h8 : i < 8
  · simp [ofBytes, ofBytesLittle, h8, h]
  · simp [ofBytes, ofBytesLittle, h8, h, BitVec.getLsbD_of_ge b1 i (by omega)]

theorem ofBytes_little_two (b0 b1 : Byte) : ofBytes .little [b0, b1] = (b1 ++ b0).setWidth 32 := by
  rw [← ofBytes_big_two]
  rfl

theorem ofBytes_big_four (b0 b1 b2 b3 : Byte) : ofBytes .big [b0, b1, b2, b3] = b0 ++ b1 ++ b2 ++ b3 := by
  apply BitVec.eq_of_getLsbD_eq
  intro i h
  rw [BitVec.getLsbD_append, BitVec.getLsbD_append, BitVec.getLsbD_append]
  simp only [ofBytes, ofBytesLittle, List.reverse_cons, List.reverse_nil, List.nil_append, List.cons_append,
    BitVec.getLsbD_or, BitVec.getLsbD_shiftLeft, BitVec.getLsbD_setWidth]
  by_cases h8 : i < 8
  · simp [h8, h]
  · have e3 := BitVec.getLsbD_of_ge b3 i (by omega)
    by_cases h16 : i - 8 < 8
    · simp [h8, h16, h, e3, show i - 8 < 32 by omega]
    · have e2 := BitVec.getLsbD_of_ge b2 (i - 8) (by omega)
      by_cases h24 : i - 8 - 8 < 8
      · simp [h8, h16, h24, h, e3, e2, show i - 8 < 32 by omega, show i - 8 - 8 < 32 by omega]
      · have e1 := BitVec.getLsbD_of_ge b1 (i - 8 - 8) (by omega)
        simp [h8, h16, h24, h, e3, e2, e1, show i - 8 < 32 by omega, show i - 8 - 8 < 32 by omega,
          show i - 8 - 8 - 8 < 32 by omega]

theorem ofBytes_little_four (b0 b1 b2 b3 : Byte) : ofBytes .little [b0, b1, b2, b3] = b3 ++ b2 ++ b1 ++ b0 := by
  rw [← ofBytes_big_four]
  rfl

theorem toBytes_one (o : Config.ByteOrder) (v : Word) : toBytes o 1 v = [v.extractLsb' 0 8] := by
  cases o <;> rfl

theorem toBytes_big_two (v : Word) : toBytes .big 2 v = [v.extractLsb' 8 8, v.extractLsb' 0 8] := rfl

theorem toBytes_little_two (v : Word) : toBytes .little 2 v = [v.extractLsb' 0 8, v.extractLsb' 8 8] := rfl

theorem toBytes_big_four (v : Word) :
    toBytes .big 4 v = [v.extractLsb' 24 8, v.extractLsb' 16 8, v.extractLsb' 8 8, v.extractLsb' 0 8] := rfl

theorem toBytes_little_four (v : Word) :
    toBytes .little 4 v = [v.extractLsb' 0 8, v.extractLsb' 8 8, v.extractLsb' 16 8, v.extractLsb' 24 8] := rfl

@[simp] theorem toBytes_length (o : Config.ByteOrder) (n : Nat) (v : Word) : (toBytes o n v).length = n := by
  cases o <;> simp [toBytes, toBytesLittle]

theorem bytes_append_four (v : Word) :
    v.extractLsb' 24 8 ++ v.extractLsb' 16 8 ++ v.extractLsb' 8 8 ++ v.extractLsb' 0 8 = v := by
  ext i h
  simp only [BitVec.getElem_append, BitVec.getElem_extractLsb']
  by_cases h8 : i < 8
  · simp [h8, BitVec.getLsbD_eq_getElem h]
  · by_cases h16 : i < 16
    · simp [h8, show i - 8 < 8 by omega, show 8 + (i - 8) = i by omega, BitVec.getLsbD_eq_getElem h]
    · by_cases h24 : i < 24
      · simp [h8, show ¬ i - 8 < 8 by omega, show i - 8 - 8 < 8 by omega, show 16 + (i - 8 - 8) = i by omega,
          BitVec.getLsbD_eq_getElem h]
      · simp [h8, show ¬ i - 8 < 8 by omega, show ¬ i - 8 - 8 < 8 by omega, show 24 + (i - 8 - 8 - 8) = i by omega,
          BitVec.getLsbD_eq_getElem h]

theorem bytes_append_two (v : Word) : v.extractLsb' 8 8 ++ v.extractLsb' 0 8 = v.extractLsb' 0 16 := by
  ext i h
  simp only [BitVec.getElem_append, BitVec.getElem_extractLsb']
  by_cases h8 : i < 8
  · simp [h8]
  · simp [h8, show 8 + (i - 8) = i by omega]

/-- A value stored and read back in the same byte order: all of a word. -/
theorem ofBytes_toBytes_four (o : Config.ByteOrder) (v : Word) : ofBytes o (toBytes o 4 v) = v := by
  cases o
  · rw [toBytes_big_four, ofBytes_big_four, bytes_append_four]
  · rw [toBytes_little_four, ofBytes_little_four, bytes_append_four]

/-- The low half of a word. -/
theorem ofBytes_toBytes_two (o : Config.ByteOrder) (v : Word) :
    ofBytes o (toBytes o 2 v) = (v.extractLsb' 0 16).setWidth 32 := by
  cases o
  · rw [toBytes_big_two, ofBytes_big_two, bytes_append_two]
  · rw [toBytes_little_two, ofBytes_little_two, bytes_append_two]

/-- The low byte of a word. -/
theorem ofBytes_toBytes_one (o : Config.ByteOrder) (v : Word) :
    ofBytes o (toBytes o 1 v) = (v.extractLsb' 0 8).setWidth 32 := by
  rw [toBytes_one, ofBytes_one]

end Sys2Proof.Machine
end

