-- ==== Sys2Proof/Laws/State.lean ====
section
/-! SUPPORT. What each update of the state does to each field. -/

namespace Sys2Proof.Machine

/-! ## setReg -/

@[simp] theorem State.setReg_regs (s : State) (r : RegId) (v : Word) : (s.setReg r v).regs = s.regs.set r.toNat v r.isLt := rfl
@[simp] theorem State.setReg_pc (s : State) (r : RegId) (v : Word) : (s.setReg r v).pc = s.pc := rfl
@[simp] theorem State.setReg_delay (s : State) (r : RegId) (v : Word) : (s.setReg r v).delay = s.delay := rfl
@[simp] theorem State.setReg_f (s : State) (r : RegId) (v : Word) : (s.setReg r v).f = s.f := rfl
@[simp] theorem State.setReg_cy (s : State) (r : RegId) (v : Word) : (s.setReg r v).cy = s.cy := rfl
@[simp] theorem State.setReg_divf (s : State) (r : RegId) (v : Word) : (s.setReg r v).divf = s.divf := rfl
@[simp] theorem State.setReg_lr (s : State) (r : RegId) (v : Word) : (s.setReg r v).lr = s.lr := rfl
@[simp] theorem State.setReg_pair (s : State) (r : RegId) (v : Word) : (s.setReg r v).pair = s.pair := rfl
@[simp] theorem State.setReg_machi (s : State) (r : RegId) (v : Word) : (s.setReg r v).machi = s.machi := rfl
@[simp] theorem State.setReg_maclo (s : State) (r : RegId) (v : Word) : (s.setReg r v).maclo = s.maclo := rfl
@[simp] theorem State.setReg_mode (s : State) (r : RegId) (v : Word) : (s.setReg r v).mode = s.mode := rfl
@[simp] theorem State.setReg_mem (s : State) (r : RegId) (v : Word) : (s.setReg r v).mem = s.mem := rfl
@[simp] theorem State.setReg_params (s : State) (r : RegId) (v : Word) : (s.setReg r v).params = s.params := rfl
@[simp] theorem State.setReg_draws (s : State) (r : RegId) (v : Word) : (s.setReg r v).draws = s.draws := rfl

/-! ## setFlag -/

@[simp] theorem State.setFlag_regs (s : State) (b : Bool) : (s.setFlag b).regs = s.regs := rfl
@[simp] theorem State.setFlag_pc (s : State) (b : Bool) : (s.setFlag b).pc = s.pc := rfl
@[simp] theorem State.setFlag_delay (s : State) (b : Bool) : (s.setFlag b).delay = s.delay := rfl
@[simp] theorem State.setFlag_f (s : State) (b : Bool) : (s.setFlag b).f = b := rfl
@[simp] theorem State.setFlag_cy (s : State) (b : Bool) : (s.setFlag b).cy = s.cy := rfl
@[simp] theorem State.setFlag_divf (s : State) (b : Bool) : (s.setFlag b).divf = s.divf := rfl
@[simp] theorem State.setFlag_lr (s : State) (b : Bool) : (s.setFlag b).lr = s.lr := rfl
@[simp] theorem State.setFlag_pair (s : State) (b : Bool) : (s.setFlag b).pair = s.pair := rfl
@[simp] theorem State.setFlag_machi (s : State) (b : Bool) : (s.setFlag b).machi = s.machi := rfl
@[simp] theorem State.setFlag_maclo (s : State) (b : Bool) : (s.setFlag b).maclo = s.maclo := rfl
@[simp] theorem State.setFlag_mode (s : State) (b : Bool) : (s.setFlag b).mode = s.mode := rfl
@[simp] theorem State.setFlag_mem (s : State) (b : Bool) : (s.setFlag b).mem = s.mem := rfl
@[simp] theorem State.setFlag_params (s : State) (b : Bool) : (s.setFlag b).params = s.params := rfl
@[simp] theorem State.setFlag_draws (s : State) (b : Bool) : (s.setFlag b).draws = s.draws := rfl
@[simp] theorem State.setFlag_getReg (s : State) (q : RegId) (b : Bool) : (s.setFlag b).getReg q = s.getReg q := rfl

/-! ## setAccumulator -/

@[simp] theorem State.setAccumulator_regs (s : State) (acc : BitVec 64) : (s.setAccumulator acc).regs = s.regs := rfl
@[simp] theorem State.setAccumulator_pc (s : State) (acc : BitVec 64) : (s.setAccumulator acc).pc = s.pc := rfl
@[simp] theorem State.setAccumulator_delay (s : State) (acc : BitVec 64) : (s.setAccumulator acc).delay = s.delay := rfl
@[simp] theorem State.setAccumulator_f (s : State) (acc : BitVec 64) : (s.setAccumulator acc).f = s.f := rfl
@[simp] theorem State.setAccumulator_cy (s : State) (acc : BitVec 64) : (s.setAccumulator acc).cy = s.cy := rfl
@[simp] theorem State.setAccumulator_divf (s : State) (acc : BitVec 64) : (s.setAccumulator acc).divf = s.divf := rfl
@[simp] theorem State.setAccumulator_lr (s : State) (acc : BitVec 64) : (s.setAccumulator acc).lr = s.lr := rfl
@[simp] theorem State.setAccumulator_pair (s : State) (acc : BitVec 64) : (s.setAccumulator acc).pair = s.pair := rfl
@[simp] theorem State.setAccumulator_machi (s : State) (acc : BitVec 64) : (s.setAccumulator acc).machi = acc.extractLsb' 32 32 := rfl
@[simp] theorem State.setAccumulator_maclo (s : State) (acc : BitVec 64) : (s.setAccumulator acc).maclo = acc.extractLsb' 0 32 := rfl
@[simp] theorem State.setAccumulator_mode (s : State) (acc : BitVec 64) : (s.setAccumulator acc).mode = s.mode := rfl
@[simp] theorem State.setAccumulator_mem (s : State) (acc : BitVec 64) : (s.setAccumulator acc).mem = s.mem := rfl
@[simp] theorem State.setAccumulator_params (s : State) (acc : BitVec 64) : (s.setAccumulator acc).params = s.params := rfl
@[simp] theorem State.setAccumulator_draws (s : State) (acc : BitVec 64) : (s.setAccumulator acc).draws = s.draws := rfl
@[simp] theorem State.setAccumulator_getReg (s : State) (q : RegId) (acc : BitVec 64) : (s.setAccumulator acc).getReg q = s.getReg q := rfl

/-! ## advance -/

@[simp] theorem State.advance_regs (s : State) : (s.advance).regs = s.regs := rfl
@[simp] theorem State.advance_pc (s : State) : (s.advance).pc = s.delay.getD (s.pc + 2) := rfl
@[simp] theorem State.advance_delay (s : State) : (s.advance).delay = none := rfl
@[simp] theorem State.advance_f (s : State) : (s.advance).f = s.f := rfl
@[simp] theorem State.advance_cy (s : State) : (s.advance).cy = s.cy := rfl
@[simp] theorem State.advance_divf (s : State) : (s.advance).divf = s.divf := rfl
@[simp] theorem State.advance_lr (s : State) : (s.advance).lr = s.lr := rfl
@[simp] theorem State.advance_pair (s : State) : (s.advance).pair = s.pair := rfl
@[simp] theorem State.advance_machi (s : State) : (s.advance).machi = s.machi := rfl
@[simp] theorem State.advance_maclo (s : State) : (s.advance).maclo = s.maclo := rfl
@[simp] theorem State.advance_mode (s : State) : (s.advance).mode = s.mode := rfl
@[simp] theorem State.advance_mem (s : State) : (s.advance).mem = s.mem := rfl
@[simp] theorem State.advance_params (s : State) : (s.advance).params = s.params := rfl
@[simp] theorem State.advance_draws (s : State) : (s.advance).draws = s.draws := rfl
@[simp] theorem State.advance_getReg (s : State) (q : RegId) : (s.advance).getReg q = s.getReg q := rfl

/-! ## drawWord -/

@[simp] theorem State.drawWord_regs (s : State) : (s.drawWord.2).regs = s.regs := rfl
@[simp] theorem State.drawWord_pc (s : State) : (s.drawWord.2).pc = s.pc := rfl
@[simp] theorem State.drawWord_delay (s : State) : (s.drawWord.2).delay = s.delay := rfl
@[simp] theorem State.drawWord_f (s : State) : (s.drawWord.2).f = s.f := rfl
@[simp] theorem State.drawWord_cy (s : State) : (s.drawWord.2).cy = s.cy := rfl
@[simp] theorem State.drawWord_divf (s : State) : (s.drawWord.2).divf = s.divf := rfl
@[simp] theorem State.drawWord_lr (s : State) : (s.drawWord.2).lr = s.lr := rfl
@[simp] theorem State.drawWord_pair (s : State) : (s.drawWord.2).pair = s.pair := rfl
@[simp] theorem State.drawWord_machi (s : State) : (s.drawWord.2).machi = s.machi := rfl
@[simp] theorem State.drawWord_maclo (s : State) : (s.drawWord.2).maclo = s.maclo := rfl
@[simp] theorem State.drawWord_mode (s : State) : (s.drawWord.2).mode = s.mode := rfl
@[simp] theorem State.drawWord_mem (s : State) : (s.drawWord.2).mem = s.mem := rfl
@[simp] theorem State.drawWord_params (s : State) : (s.drawWord.2).params = s.params := rfl
@[simp] theorem State.drawWord_draws (s : State) : (s.drawWord.2).draws = s.draws + 1 := rfl
@[simp] theorem State.drawWord_getReg (s : State) (q : RegId) : (s.drawWord.2).getReg q = s.getReg q := rfl

/-! ## drawBit -/

@[simp] theorem State.drawBit_regs (s : State) : (s.drawBit.2).regs = s.regs := rfl
@[simp] theorem State.drawBit_pc (s : State) : (s.drawBit.2).pc = s.pc := rfl
@[simp] theorem State.drawBit_delay (s : State) : (s.drawBit.2).delay = s.delay := rfl
@[simp] theorem State.drawBit_f (s : State) : (s.drawBit.2).f = s.f := rfl
@[simp] theorem State.drawBit_cy (s : State) : (s.drawBit.2).cy = s.cy := rfl
@[simp] theorem State.drawBit_divf (s : State) : (s.drawBit.2).divf = s.divf := rfl
@[simp] theorem State.drawBit_lr (s : State) : (s.drawBit.2).lr = s.lr := rfl
@[simp] theorem State.drawBit_pair (s : State) : (s.drawBit.2).pair = s.pair := rfl
@[simp] theorem State.drawBit_machi (s : State) : (s.drawBit.2).machi = s.machi := rfl
@[simp] theorem State.drawBit_maclo (s : State) : (s.drawBit.2).maclo = s.maclo := rfl
@[simp] theorem State.drawBit_mode (s : State) : (s.drawBit.2).mode = s.mode := rfl
@[simp] theorem State.drawBit_mem (s : State) : (s.drawBit.2).mem = s.mem := rfl
@[simp] theorem State.drawBit_params (s : State) : (s.drawBit.2).params = s.params := rfl
@[simp] theorem State.drawBit_draws (s : State) : (s.drawBit.2).draws = s.draws + 1 := rfl
@[simp] theorem State.drawBit_getReg (s : State) (q : RegId) : (s.drawBit.2).getReg q = s.getReg q := rfl

/-! ## settleDivisorFlag -/

@[simp] theorem State.settleDivisorFlag_regs (s : State) : (s.settleDivisorFlag).regs = s.regs := rfl
@[simp] theorem State.settleDivisorFlag_pc (s : State) : (s.settleDivisorFlag).pc = s.pc := rfl
@[simp] theorem State.settleDivisorFlag_delay (s : State) : (s.settleDivisorFlag).delay = s.delay := rfl
@[simp] theorem State.settleDivisorFlag_f (s : State) : (s.settleDivisorFlag).f = s.f := rfl
@[simp] theorem State.settleDivisorFlag_cy (s : State) : (s.settleDivisorFlag).cy = s.cy := rfl
@[simp] theorem State.settleDivisorFlag_divf (s : State) : (s.settleDivisorFlag).divf = (s.divf && Config.any1 s.draws) := rfl
@[simp] theorem State.settleDivisorFlag_lr (s : State) : (s.settleDivisorFlag).lr = s.lr := rfl
@[simp] theorem State.settleDivisorFlag_pair (s : State) : (s.settleDivisorFlag).pair = s.pair := rfl
@[simp] theorem State.settleDivisorFlag_machi (s : State) : (s.settleDivisorFlag).machi = s.machi := rfl
@[simp] theorem State.settleDivisorFlag_maclo (s : State) : (s.settleDivisorFlag).maclo = s.maclo := rfl
@[simp] theorem State.settleDivisorFlag_mode (s : State) : (s.settleDivisorFlag).mode = s.mode := rfl
@[simp] theorem State.settleDivisorFlag_mem (s : State) : (s.settleDivisorFlag).mem = s.mem := rfl
@[simp] theorem State.settleDivisorFlag_params (s : State) : (s.settleDivisorFlag).params = s.params := rfl
@[simp] theorem State.settleDivisorFlag_draws (s : State) : (s.settleDivisorFlag).draws = s.draws + 1 := rfl
@[simp] theorem State.settleDivisorFlag_getReg (s : State) (q : RegId) : (s.settleDivisorFlag).getReg q = s.getReg q := rfl

/-! ## returnFromException -/

@[simp] theorem State.returnFromException_regs (s : State) : (s.returnFromException).regs = s.regs := rfl
@[simp] theorem State.returnFromException_pc (s : State) : (s.returnFromException).pc = s.delay.getD (s.pc + 2) := rfl
@[simp] theorem State.returnFromException_delay (s : State) : (s.returnFromException).delay = none := rfl
@[simp] theorem State.returnFromException_f (s : State) : (s.returnFromException).f = s.f := rfl
@[simp] theorem State.returnFromException_cy (s : State) : (s.returnFromException).cy = s.cy := rfl
@[simp] theorem State.returnFromException_divf (s : State) : (s.returnFromException).divf = s.divf := rfl
@[simp] theorem State.returnFromException_lr (s : State) : (s.returnFromException).lr = s.lr := rfl
@[simp] theorem State.returnFromException_pair (s : State) : (s.returnFromException).pair = s.pair := rfl
@[simp] theorem State.returnFromException_machi (s : State) : (s.returnFromException).machi = s.machi := rfl
@[simp] theorem State.returnFromException_maclo (s : State) : (s.returnFromException).maclo = s.maclo := rfl
@[simp] theorem State.returnFromException_mode (s : State) : (s.returnFromException).mode = .user := rfl
@[simp] theorem State.returnFromException_mem (s : State) : (s.returnFromException).mem = s.mem := rfl
@[simp] theorem State.returnFromException_params (s : State) : (s.returnFromException).params = s.params := rfl
@[simp] theorem State.returnFromException_draws (s : State) : (s.returnFromException).draws = s.draws := rfl
@[simp] theorem State.returnFromException_getReg (s : State) (q : RegId) : (s.returnFromException).getReg q = s.getReg q := rfl

/-! ## writeLink -/

@[simp] theorem State.writeLink_pc (s : State) (v : Word) : (s.writeLink v).pc = s.pc := by unfold State.writeLink; split <;> rfl
@[simp] theorem State.writeLink_delay (s : State) (v : Word) : (s.writeLink v).delay = s.delay := by unfold State.writeLink; split <;> rfl
@[simp] theorem State.writeLink_f (s : State) (v : Word) : (s.writeLink v).f = s.f := by unfold State.writeLink; split <;> rfl
@[simp] theorem State.writeLink_cy (s : State) (v : Word) : (s.writeLink v).cy = s.cy := by unfold State.writeLink; split <;> rfl
@[simp] theorem State.writeLink_divf (s : State) (v : Word) : (s.writeLink v).divf = s.divf := by unfold State.writeLink; split <;> rfl
@[simp] theorem State.writeLink_pair (s : State) (v : Word) : (s.writeLink v).pair = s.pair := by unfold State.writeLink; split <;> rfl
@[simp] theorem State.writeLink_machi (s : State) (v : Word) : (s.writeLink v).machi = s.machi := by unfold State.writeLink; split <;> rfl
@[simp] theorem State.writeLink_maclo (s : State) (v : Word) : (s.writeLink v).maclo = s.maclo := by unfold State.writeLink; split <;> rfl
@[simp] theorem State.writeLink_mode (s : State) (v : Word) : (s.writeLink v).mode = s.mode := by unfold State.writeLink; split <;> rfl
@[simp] theorem State.writeLink_mem (s : State) (v : Word) : (s.writeLink v).mem = s.mem := by unfold State.writeLink; split <;> rfl
@[simp] theorem State.writeLink_params (s : State) (v : Word) : (s.writeLink v).params = s.params := by unfold State.writeLink; split <;> rfl
@[simp] theorem State.writeLink_draws (s : State) (v : Word) : (s.writeLink v).draws = s.draws := by unfold State.writeLink; split <;> rfl

/-! ## link -/

@[simp] theorem State.link_pc (s : State) : (s.link).pc = s.pc := State.writeLink_pc s _
@[simp] theorem State.link_delay (s : State) : (s.link).delay = s.delay := State.writeLink_delay s _
@[simp] theorem State.link_f (s : State) : (s.link).f = s.f := State.writeLink_f s _
@[simp] theorem State.link_cy (s : State) : (s.link).cy = s.cy := State.writeLink_cy s _
@[simp] theorem State.link_divf (s : State) : (s.link).divf = s.divf := State.writeLink_divf s _
@[simp] theorem State.link_pair (s : State) : (s.link).pair = s.pair := State.writeLink_pair s _
@[simp] theorem State.link_machi (s : State) : (s.link).machi = s.machi := State.writeLink_machi s _
@[simp] theorem State.link_maclo (s : State) : (s.link).maclo = s.maclo := State.writeLink_maclo s _
@[simp] theorem State.link_mode (s : State) : (s.link).mode = s.mode := State.writeLink_mode s _
@[simp] theorem State.link_mem (s : State) : (s.link).mem = s.mem := State.writeLink_mem s _
@[simp] theorem State.link_params (s : State) : (s.link).params = s.params := State.writeLink_params s _
@[simp] theorem State.link_draws (s : State) : (s.link).draws = s.draws := State.writeLink_draws s _

/-! ## writePair -/

@[simp] theorem State.writePair_pc (s : State) (v : Word) : (s.writePair v).pc = s.pc := by unfold State.writePair; split <;> rfl
@[simp] theorem State.writePair_delay (s : State) (v : Word) : (s.writePair v).delay = s.delay := by unfold State.writePair; split <;> rfl
@[simp] theorem State.writePair_f (s : State) (v : Word) : (s.writePair v).f = s.f := by unfold State.writePair; split <;> rfl
@[simp] theorem State.writePair_cy (s : State) (v : Word) : (s.writePair v).cy = s.cy := by unfold State.writePair; split <;> rfl
@[simp] theorem State.writePair_divf (s : State) (v : Word) : (s.writePair v).divf = s.divf := by unfold State.writePair; split <;> rfl
@[simp] theorem State.writePair_lr (s : State) (v : Word) : (s.writePair v).lr = s.lr := by unfold State.writePair; split <;> rfl
@[simp] theorem State.writePair_machi (s : State) (v : Word) : (s.writePair v).machi = s.machi := by unfold State.writePair; split <;> rfl
@[simp] theorem State.writePair_maclo (s : State) (v : Word) : (s.writePair v).maclo = s.maclo := by unfold State.writePair; split <;> rfl
@[simp] theorem State.writePair_mode (s : State) (v : Word) : (s.writePair v).mode = s.mode := by unfold State.writePair; split <;> rfl
@[simp] theorem State.writePair_mem (s : State) (v : Word) : (s.writePair v).mem = s.mem := by unfold State.writePair; split <;> rfl
@[simp] theorem State.writePair_params (s : State) (v : Word) : (s.writePair v).params = s.params := by unfold State.writePair; split <;> rfl
@[simp] theorem State.writePair_draws (s : State) (v : Word) : (s.writePair v).draws = s.draws := by unfold State.writePair; split <;> rfl

/-! ## writeCarry -/

@[simp] theorem State.writeCarry_regs (s : State) (c : Bool) : (s.writeCarry c).regs = s.regs := by unfold State.writeCarry; split <;> rfl
@[simp] theorem State.writeCarry_pc (s : State) (c : Bool) : (s.writeCarry c).pc = s.pc := by unfold State.writeCarry; split <;> rfl
@[simp] theorem State.writeCarry_delay (s : State) (c : Bool) : (s.writeCarry c).delay = s.delay := by unfold State.writeCarry; split <;> rfl
@[simp] theorem State.writeCarry_f (s : State) (c : Bool) : (s.writeCarry c).f = s.f := by unfold State.writeCarry; split <;> rfl
@[simp] theorem State.writeCarry_divf (s : State) (c : Bool) : (s.writeCarry c).divf = s.divf := by unfold State.writeCarry; split <;> rfl
@[simp] theorem State.writeCarry_lr (s : State) (c : Bool) : (s.writeCarry c).lr = s.lr := by unfold State.writeCarry; split <;> rfl
@[simp] theorem State.writeCarry_pair (s : State) (c : Bool) : (s.writeCarry c).pair = s.pair := by unfold State.writeCarry; split <;> rfl
@[simp] theorem State.writeCarry_machi (s : State) (c : Bool) : (s.writeCarry c).machi = s.machi := by unfold State.writeCarry; split <;> rfl
@[simp] theorem State.writeCarry_maclo (s : State) (c : Bool) : (s.writeCarry c).maclo = s.maclo := by unfold State.writeCarry; split <;> rfl
@[simp] theorem State.writeCarry_mode (s : State) (c : Bool) : (s.writeCarry c).mode = s.mode := by unfold State.writeCarry; split <;> rfl
@[simp] theorem State.writeCarry_mem (s : State) (c : Bool) : (s.writeCarry c).mem = s.mem := by unfold State.writeCarry; split <;> rfl
@[simp] theorem State.writeCarry_params (s : State) (c : Bool) : (s.writeCarry c).params = s.params := by unfold State.writeCarry; split <;> rfl
@[simp] theorem State.writeCarry_getReg (s : State) (q : RegId) (c : Bool) : (s.writeCarry c).getReg q = s.getReg q := by simp [State.getReg]

/-! ## setRegOrAny -/

@[simp] theorem State.setRegOrAny_pc (s : State) (a : RegId) (v : Option Word) : (s.setRegOrAny a v).pc = s.pc := by cases v <;> rfl
@[simp] theorem State.setRegOrAny_delay (s : State) (a : RegId) (v : Option Word) : (s.setRegOrAny a v).delay = s.delay := by cases v <;> rfl
@[simp] theorem State.setRegOrAny_f (s : State) (a : RegId) (v : Option Word) : (s.setRegOrAny a v).f = s.f := by cases v <;> rfl
@[simp] theorem State.setRegOrAny_cy (s : State) (a : RegId) (v : Option Word) : (s.setRegOrAny a v).cy = s.cy := by cases v <;> rfl
@[simp] theorem State.setRegOrAny_divf (s : State) (a : RegId) (v : Option Word) : (s.setRegOrAny a v).divf = s.divf := by cases v <;> rfl
@[simp] theorem State.setRegOrAny_lr (s : State) (a : RegId) (v : Option Word) : (s.setRegOrAny a v).lr = s.lr := by cases v <;> rfl
@[simp] theorem State.setRegOrAny_pair (s : State) (a : RegId) (v : Option Word) : (s.setRegOrAny a v).pair = s.pair := by cases v <;> rfl
@[simp] theorem State.setRegOrAny_machi (s : State) (a : RegId) (v : Option Word) : (s.setRegOrAny a v).machi = s.machi := by cases v <;> rfl
@[simp] theorem State.setRegOrAny_maclo (s : State) (a : RegId) (v : Option Word) : (s.setRegOrAny a v).maclo = s.maclo := by cases v <;> rfl
@[simp] theorem State.setRegOrAny_mode (s : State) (a : RegId) (v : Option Word) : (s.setRegOrAny a v).mode = s.mode := by cases v <;> rfl
@[simp] theorem State.setRegOrAny_mem (s : State) (a : RegId) (v : Option Word) : (s.setRegOrAny a v).mem = s.mem := by cases v <;> rfl
@[simp] theorem State.setRegOrAny_params (s : State) (a : RegId) (v : Option Word) : (s.setRegOrAny a v).params = s.params := by cases v <;> rfl

/-! ## setFlagOrAny -/

@[simp] theorem State.setFlagOrAny_regs (s : State) (b : Option Bool) : (s.setFlagOrAny b).regs = s.regs := by cases b <;> rfl
@[simp] theorem State.setFlagOrAny_pc (s : State) (b : Option Bool) : (s.setFlagOrAny b).pc = s.pc := by cases b <;> rfl
@[simp] theorem State.setFlagOrAny_delay (s : State) (b : Option Bool) : (s.setFlagOrAny b).delay = s.delay := by cases b <;> rfl
@[simp] theorem State.setFlagOrAny_cy (s : State) (b : Option Bool) : (s.setFlagOrAny b).cy = s.cy := by cases b <;> rfl
@[simp] theorem State.setFlagOrAny_divf (s : State) (b : Option Bool) : (s.setFlagOrAny b).divf = s.divf := by cases b <;> rfl
@[simp] theorem State.setFlagOrAny_lr (s : State) (b : Option Bool) : (s.setFlagOrAny b).lr = s.lr := by cases b <;> rfl
@[simp] theorem State.setFlagOrAny_pair (s : State) (b : Option Bool) : (s.setFlagOrAny b).pair = s.pair := by cases b <;> rfl
@[simp] theorem State.setFlagOrAny_machi (s : State) (b : Option Bool) : (s.setFlagOrAny b).machi = s.machi := by cases b <;> rfl
@[simp] theorem State.setFlagOrAny_maclo (s : State) (b : Option Bool) : (s.setFlagOrAny b).maclo = s.maclo := by cases b <;> rfl
@[simp] theorem State.setFlagOrAny_mode (s : State) (b : Option Bool) : (s.setFlagOrAny b).mode = s.mode := by cases b <;> rfl
@[simp] theorem State.setFlagOrAny_mem (s : State) (b : Option Bool) : (s.setFlagOrAny b).mem = s.mem := by cases b <;> rfl
@[simp] theorem State.setFlagOrAny_params (s : State) (b : Option Bool) : (s.setFlagOrAny b).params = s.params := by cases b <;> rfl
@[simp] theorem State.setFlagOrAny_getReg (s : State) (q : RegId) (b : Option Bool) : (s.setFlagOrAny b).getReg q = s.getReg q := by simp [State.getReg]

/-! ## writeSpecial -/

@[simp] theorem State.writeSpecial_pc (s : State) (r : SpecialReg) (v : Word) : (s.writeSpecial r v).pc = s.pc := by cases r <;> simp [State.writeSpecial]
@[simp] theorem State.writeSpecial_delay (s : State) (r : SpecialReg) (v : Word) : (s.writeSpecial r v).delay = s.delay := by cases r <;> simp [State.writeSpecial]
@[simp] theorem State.writeSpecial_f (s : State) (r : SpecialReg) (v : Word) : (s.writeSpecial r v).f = s.f := by cases r <;> simp [State.writeSpecial]
@[simp] theorem State.writeSpecial_cy (s : State) (r : SpecialReg) (v : Word) : (s.writeSpecial r v).cy = s.cy := by cases r <;> simp [State.writeSpecial]
@[simp] theorem State.writeSpecial_divf (s : State) (r : SpecialReg) (v : Word) : (s.writeSpecial r v).divf = s.divf := by cases r <;> simp [State.writeSpecial]
@[simp] theorem State.writeSpecial_lr (s : State) (r : SpecialReg) (v : Word) : (s.writeSpecial r v).lr = s.lr := by cases r <;> simp [State.writeSpecial]
@[simp] theorem State.writeSpecial_mode (s : State) (r : SpecialReg) (v : Word) : (s.writeSpecial r v).mode = s.mode := by cases r <;> simp [State.writeSpecial]
@[simp] theorem State.writeSpecial_mem (s : State) (r : SpecialReg) (v : Word) : (s.writeSpecial r v).mem = s.mem := by cases r <;> simp [State.writeSpecial]
@[simp] theorem State.writeSpecial_params (s : State) (r : SpecialReg) (v : Word) : (s.writeSpecial r v).params = s.params := by cases r <;> simp [State.writeSpecial]
@[simp] theorem State.writeSpecial_draws (s : State) (r : SpecialReg) (v : Word) : (s.writeSpecial r v).draws = s.draws := by cases r <;> simp [State.writeSpecial]

/-! ## Values drawn -/

@[simp] theorem State.drawWord_fst (s : State) : s.drawWord.1 = Config.any32 s.draws := rfl
@[simp] theorem State.drawBit_fst (s : State) : s.drawBit.1 = Config.any1 s.draws := rfl

/-! ## The state after reset -/

@[simp] theorem State.resetWith_delay (p : Config.Params) (pc : Word) (m : Mode) :
    (State.resetWith p pc m).delay = none := rfl
@[simp] theorem State.resetWith_pc (p : Config.Params) (pc : Word) (m : Mode) :
    (State.resetWith p pc m).pc = pc := rfl
@[simp] theorem State.resetWith_mode (p : Config.Params) (pc : Word) (m : Mode) :
    (State.resetWith p pc m).mode = m := rfl
@[simp] theorem State.resetWith_mem (p : Config.Params) (pc : Word) (m : Mode) :
    (State.resetWith p pc m).mem = Memory.blank := rfl
@[simp] theorem State.resetWith_params (p : Config.Params) (pc : Word) (m : Mode) :
    (State.resetWith p pc m).params = p := rfl

end Sys2Proof.Machine
end

