-- ==== Sys2Proof/Laws/Memory.lean ====
section
/-! SUPPORT. Memory: reads after writes, the canonical form kept by every operation, and what each access can
answer. -/

namespace Sys2Proof.Machine

/-! ## Lists of cells -/

/-- The canonical form of a list of cells: addresses strictly rising. -/
abbrev Rising (cs : List Host.Cell) : Prop :=
  (cs.map Prod.fst).Pairwise (· < ·)

theorem lookupCell_of_lt {a : Nat} {cs : List Host.Cell} (h : ∀ c ∈ cs, a < c.1) :
    lookupCell a cs = Memory.blankByte := by
  induction cs with
  | nil => rfl
  | cons c cs ih =>
    have hc := h c (by simp)
    simp only [lookupCell]
    rw [if_neg (by omega)]
    exact ih fun d hd => h d (by simp [hd])

theorem Rising.head_lt {c : Host.Cell} {cs : List Host.Cell} (h : Rising (c :: cs)) : ∀ d ∈ cs, c.1 < d.1 := by
  intro d hd
  have := (List.pairwise_cons.mp h).1
  exact this d.1 (List.mem_map_of_mem hd)

theorem Rising.tail {c : Host.Cell} {cs : List Host.Cell} (h : Rising (c :: cs)) : Rising cs :=
  (List.pairwise_cons.mp h).2

/-- Every entry after a write is the written one or an old one at another address. -/
theorem mem_putCell {a : Nat} {b : Byte} {cs : List Host.Cell} {d : Host.Cell} (h : d ∈ putCell a b cs) :
    (d = (a, b) ∧ b ≠ Memory.blankByte) ∨ d ∈ cs := by
  induction cs with
  | nil =>
    simp only [putCell] at h
    split at h <;> simp_all
  | cons c cs ih =>
    simp only [putCell] at h
    split at h
    · split at h <;> simp_all
    · split at h
      · split at h
        · simp_all
        · simp_all
          tauto
      · rcases List.mem_cons.mp h with rfl | h'
        · simp
        · rcases ih h' with h'' | h''
          · exact .inl h''
          · exact .inr (by simp [h''])

theorem Rising.putCell {a : Nat} {b : Byte} {cs : List Host.Cell} (h : Rising cs) : Rising (putCell a b cs) := by
  induction cs with
  | nil =>
    simp only [Machine.putCell]
    split <;> simp [Rising]
  | cons c cs ih =>
    have hlt := h.head_lt
    simp only [Machine.putCell]
    split
    · split
      · exact h
      · rename_i hac _
        refine List.pairwise_cons.mpr ⟨?_, h⟩
        intro k hk
        obtain ⟨d, hd, rfl⟩ := List.mem_map.mp hk
        rcases List.mem_cons.mp hd with rfl | hd'
        · exact hac
        · exact Nat.lt_trans hac (hlt d hd')
    · split
      · rename_i _ hac
        subst hac
        split
        · exact h.tail
        · refine List.pairwise_cons.mpr ⟨?_, h.tail⟩
          intro k hk
          obtain ⟨d, hd, rfl⟩ := List.mem_map.mp hk
          exact hlt d hd
      · rename_i hlt' hne
        refine List.pairwise_cons.mpr ⟨?_, ih h.tail⟩
        intro k hk
        obtain ⟨d, hd, rfl⟩ := List.mem_map.mp hk
        rcases mem_putCell hd with ⟨rfl, _⟩ | hd'
        · show c.1 < a
          omega
        · exact hlt d hd'

/-- Reading after a write: the written byte at its address, the old byte elsewhere. -/
theorem lookupCell_putCell {cs : List Host.Cell} (h : Rising cs) (a k : Nat) (b : Byte) :
    lookupCell k (putCell a b cs) = if k = a then b else lookupCell k cs := by
  induction cs with
  | nil =>
    simp only [putCell, lookupCell]
    by_cases hb : b = Memory.blankByte <;> simp [hb, lookupCell, eq_comm]
  | cons c cs ih =>
    have hlt := h.head_lt
    have ih := ih h.tail
    simp only [putCell]
    split
    · rename_i hac
      have hblank : lookupCell a (c :: cs) = Memory.blankByte := by
        apply lookupCell_of_lt
        intro d hd
        rcases List.mem_cons.mp hd with rfl | hd'
        · exact hac
        · exact Nat.lt_trans hac (hlt d hd')
      by_cases hk : k = a
      · subst hk
        by_cases hb : b = Memory.blankByte
        · rw [if_pos hb, hblank, if_pos rfl, hb]
        · rw [if_neg hb, if_pos rfl]
          simp [lookupCell]
      · by_cases hb : b = Memory.blankByte
        · simp [hb, hk]
        · simp [hb, hk, lookupCell, Ne.symm hk]
    · split
      · rename_i _ hac
        subst hac
        by_cases hk : k = c.1
        · subst hk
          by_cases hb : b = Memory.blankByte
          · rw [if_pos hb, if_pos rfl, hb]
            exact lookupCell_of_lt hlt
          · rw [if_neg hb]
            simp [lookupCell]
        · by_cases hb : b = Memory.blankByte
          · simp [hb, hk, lookupCell, Ne.symm hk]
          · simp [hb, hk, lookupCell, Ne.symm hk]
      · rename_i h1 h2
        simp only [lookupCell, ih]
        by_cases hk : c.1 = k
        · subst hk
          simp [Ne.symm h2]
        · simp [hk]

/-! ## Lists of addresses -/

@[simp] theorem mem_insertAddress {a k : Nat} {l : List Nat} : k ∈ insertAddress a l ↔ k = a ∨ k ∈ l := by
  induction l with
  | nil => simp [insertAddress]
  | cons c cs ih =>
    simp only [insertAddress]
    split
    · simp
    · split
      · rename_i h
        subst h
        simp
      · simp only [List.mem_cons, ih]
        tauto

theorem insertAddress_rising {a : Nat} {l : List Nat} (h : l.Pairwise (· < ·)) :
    (insertAddress a l).Pairwise (· < ·) := by
  induction l with
  | nil => simp [insertAddress]
  | cons c cs ih =>
    obtain ⟨h1, h2⟩ := List.pairwise_cons.mp h
    simp only [insertAddress]
    split
    · rename_i hac
      refine List.pairwise_cons.mpr ⟨?_, h⟩
      intro k hk
      rcases List.mem_cons.mp hk with rfl | hk'
      · exact hac
      · exact Nat.lt_trans hac (h1 k hk')
    · split
      · exact h
      · refine List.pairwise_cons.mpr ⟨?_, ih h2⟩
        intro k hk
        rcases mem_insertAddress.mp hk with rfl | hk'
        · omega
        · exact h1 k hk'

/-! ## Bytes of memory -/

theorem Memory.wf.rising {m : Memory} (h : m.wf) : Rising m.cells := h.1

theorem Memory.byteAt_setByte {m : Memory} (h : m.wf) (a k : Nat) (b : Byte) :
    (m.setByte a b).byteAt k = if k = a then b else m.byteAt k :=
  lookupCell_putCell h.rising a k b

@[simp] theorem Memory.setByte_admitted (m : Memory) (a : Nat) (b : Byte) :
    (m.setByte a b).admitted = m.admitted := rfl

@[simp] theorem Memory.setByte_isAdmitted (m : Memory) (a k : Nat) (b : Byte) :
    (m.setByte a b).isAdmitted k = m.isAdmitted k := rfl

@[simp] theorem Memory.setByte_mem_stored (m : Memory) (a k : Nat) (b : Byte) :
    k ∈ (m.setByte a b).stored ↔ k = a ∨ k ∈ m.stored := mem_insertAddress

theorem Memory.wf.setByte {m : Memory} (h : m.wf) {a : Nat} (ha : m.isAdmitted a = true) (b : Byte) :
    (m.setByte a b).wf := by
  refine ⟨h.rising.putCell, ?_, insertAddress_rising h.2.2.1, ?_, h.2.2.2.2⟩
  · intro c hc
    rcases mem_putCell hc with ⟨rfl, hb⟩ | hc'
    · exact ⟨hb, ha⟩
    · exact h.2.1 c hc'
  · intro k hk
    rcases mem_insertAddress.mp hk with rfl | hk'
    · exact ha
    · exact h.2.2.2.1 k hk'

@[simp] theorem Memory.writeBytes_admitted (m : Memory) (a : Nat) (bs : List Byte) :
    (m.writeBytes a bs).admitted = m.admitted := by
  induction bs generalizing m a with
  | nil => rfl
  | cons b bs ih => simp [Memory.writeBytes, ih]

@[simp] theorem Memory.writeBytes_isAdmitted (m : Memory) (a k : Nat) (bs : List Byte) :
    (m.writeBytes a bs).isAdmitted k = m.isAdmitted k := by
  simp [Memory.isAdmitted]

theorem Memory.writeBytes_mem_stored (m : Memory) (a k : Nat) (bs : List Byte) :
    k ∈ (m.writeBytes a bs).stored ↔ k ∈ m.stored ∨ (a ≤ k ∧ k < a + bs.length) := by
  induction bs generalizing m a with
  | nil => simp [Memory.writeBytes]
  | cons b bs ih =>
    simp only [Memory.writeBytes, ih, Memory.setByte_mem_stored, List.length_cons]
    constructor
    · rintro ((rfl | h) | h)
      · right; omega
      · left; exact h
      · right; omega
    · rintro (h | h)
      · exact .inl (.inr h)
      · rcases Nat.eq_or_lt_of_le h.1 with rfl | h'
        · exact .inl (.inl rfl)
        · right; omega

theorem Memory.admits_iff {m : Memory} {a n : Nat} :
    m.admits a n = true ↔ ∀ i < n, m.isAdmitted (a + i) = true := by
  simp [Memory.admits]

theorem Memory.wf.writeBytes {m : Memory} (h : m.wf) {a : Nat} {bs : List Byte}
    (ha : m.admits a bs.length = true) : (m.writeBytes a bs).wf := by
  induction bs generalizing m a with
  | nil => exact h
  | cons b bs ih =>
    rw [Memory.admits_iff] at ha
    refine ih (h.setByte (by simpa using ha 0 (by simp)) b) ?_
    rw [Memory.admits_iff]
    intro i hi
    have := ha (i + 1) (by simpa using hi)
    simpa [Nat.add_assoc, Nat.add_comm 1 i] using this

/-- Reading after a store of bytes: the stored bytes in their range, the old bytes elsewhere. -/
theorem Memory.byteAt_writeBytes {m : Memory} (h : m.wf) {a : Nat} {bs : List Byte}
    (ha : m.admits a bs.length = true) (k : Nat) :
    (m.writeBytes a bs).byteAt k =
      if hk : a ≤ k ∧ k < a + bs.length then bs[k - a]'(by omega) else m.byteAt k := by
  induction bs generalizing m a with
  | nil =>
    rw [dif_neg (by simp)]
    rfl
  | cons b bs ih =>
    have ha' := Memory.admits_iff.mp ha
    have hset := h.setByte (by simpa using ha' 0 (by simp)) b
    have hrest : (m.setByte a b).admits (a + 1) bs.length = true := by
      rw [Memory.admits_iff]
      intro i hi
      have := ha' (i + 1) (by simpa using hi)
      simpa [Nat.add_assoc, Nat.add_comm 1 i] using this
    simp only [Memory.writeBytes, ih hset hrest, Memory.byteAt_setByte h]
    by_cases hk : k = a
    · subst hk
      simp
    · by_cases hr : a + 1 ≤ k ∧ k < a + 1 + bs.length
      · have : k - a = (k - (a + 1)) + 1 := by omega
        rw [dif_pos hr, dif_pos ⟨by omega, by simp only [List.length_cons]; omega⟩]
        simp [this]
      · rw [dif_neg hr, dif_neg (by simp only [List.length_cons]; omega)]
        simp [hk]

/-- The canonical form is unique: equal bytes are equal lists. -/
theorem Rising.ext {cs ds : List Host.Cell} (hc : Rising cs) (hd : Rising ds)
    (bc : ∀ c ∈ cs, c.2 ≠ Memory.blankByte) (bd : ∀ c ∈ ds, c.2 ≠ Memory.blankByte)
    (h : ∀ a, lookupCell a cs = lookupCell a ds) : cs = ds := by
  induction cs generalizing ds with
  | nil =>
    cases ds with
    | nil => rfl
    | cons d ds =>
      have := h d.1
      simp only [lookupCell, if_pos] at this
      exact absurd this.symm (bd d (by simp))
  | cons c cs ih =>
    cases ds with
    | nil =>
      have := h c.1
      simp only [lookupCell, if_pos] at this
      exact absurd this (bc c (by simp))
    | cons d ds =>
      have hcd : c.1 = d.1 := by
        rcases Nat.lt_trichotomy c.1 d.1 with hlt | heq | hlt
        · have h1 := h c.1
          rw [lookupCell_of_lt (cs := d :: ds)] at h1
          · simp only [lookupCell, if_pos] at h1
            exact absurd h1 (bc c (by simp))
          · intro e he
            rcases List.mem_cons.mp he with rfl | he'
            · exact hlt
            · exact Nat.lt_trans hlt (hd.head_lt e he')
        · exact heq
        · have h1 := h d.1
          rw [lookupCell_of_lt (cs := c :: cs)] at h1
          · simp only [lookupCell, if_pos] at h1
            exact absurd h1.symm (bd d (by simp))
          · intro e he
            rcases List.mem_cons.mp he with rfl | he'
            · exact hlt
            · exact Nat.lt_trans hlt (hc.head_lt e he')
      have hval : c.2 = d.2 := by
        have := h c.1
        simpa [lookupCell, hcd] using this
      have htail : cs = ds := by
        refine ih hc.tail hd.tail (fun e he => bc e (by simp [he])) (fun e he => bd e (by simp [he])) ?_
        intro a
        by_cases ha : a = c.1
        · subst ha
          rw [lookupCell_of_lt hc.head_lt, hcd, lookupCell_of_lt hd.head_lt]
        · have := h a
          simpa [lookupCell, Ne.symm ha, hcd ▸ Ne.symm ha] using this
      rw [htail, Prod.ext hcd hval]

/-! ## The launch memory -/

theorem Memory.placeByte_isAdmitted (m : Memory) (a k : Nat) (b : Byte) :
    (m.placeByte a b).isAdmitted k = (m.isAdmitted k || k == a) := by
  by_cases hm : m.isAdmitted a = true
  · have e : (m.placeByte a b).admitted = m.admitted := if_pos hm
    rw [Memory.isAdmitted, e]
    by_cases hk : k = a
    · subst hk
      simpa [Memory.isAdmitted] using hm
    · simp [hk, Memory.isAdmitted]
  · have e : (m.placeByte a b).admitted = m.admitted ++ [{ base := a, size := 1 }] := if_neg hm
    have e1 : Region.holds { base := a, size := 1 } k = (k == a) := by
      rw [Bool.eq_iff_iff]
      simp only [Region.holds, Bool.and_eq_true, decide_eq_true_eq, beq_iff_eq]
      omega
    simp [Memory.isAdmitted, e, e1]

theorem Memory.wf.placeByte {m : Memory} (h : m.wf) {a : Nat} (ha : a < 2 ^ 32) (b : Byte) :
    (m.placeByte a b).wf := by
  have grow : ∀ k, m.isAdmitted k = true → (m.placeByte a b).isAdmitted k = true := by
    intro k hk
    simp [Memory.placeByte_isAdmitted, hk]
  have here : (m.placeByte a b).isAdmitted a = true := by
    simp [Memory.placeByte_isAdmitted]
  refine ⟨h.rising.putCell, ?_, h.2.2.1.filter _, ?_, ?_⟩
  · intro c hc
    rcases mem_putCell hc with ⟨rfl, hb⟩ | hc'
    · exact ⟨hb, here⟩
    · exact ⟨(h.2.1 c hc').1, grow _ (h.2.1 c hc').2⟩
  · intro k hk
    exact grow k (h.2.2.2.1 k (List.mem_filter.mp hk).1)
  · intro r hr
    simp only [Memory.placeByte] at hr
    split at hr
    · exact h.2.2.2.2 r hr
    · rcases List.mem_append.mp hr with hr' | hr'
      · exact h.2.2.2.2 r hr'
      · simp only [List.mem_singleton] at hr'
        subst hr'
        show a + 1 ≤ 2 ^ 32
        omega

theorem Memory.byteAt_placeByte {m : Memory} (h : m.wf) (a k : Nat) (b : Byte) :
    (m.placeByte a b).byteAt k = if k = a then b else m.byteAt k :=
  lookupCell_putCell h.rising a k b

theorem Memory.placeByte_mem_stored (m : Memory) (a k : Nat) (b : Byte) :
    k ∈ (m.placeByte a b).stored ↔ k ∈ m.stored ∧ k ≠ a := by
  simp [Memory.placeByte]

theorem Memory.wf.placeBytes {m : Memory} (h : m.wf) {a : Nat} {bs : List Byte} (ha : a + bs.length ≤ 2 ^ 32) :
    (m.placeBytes a bs).wf := by
  induction bs generalizing m a with
  | nil => exact h
  | cons b bs ih =>
    simp only [List.length_cons] at ha
    exact ih (h.placeByte (by omega) b) (by omega)

/-! ## Accesses -/

theorem Memory.accessFault_eq_none {m : Memory} {w : Width} {ea : Word} :
    m.accessFault w ea = none ↔ ea.toNat % w.bytes = 0 ∧ m.admits ea.toNat w.bytes = true := by
  unfold Memory.accessFault
  split
  · simp_all
  · split <;> simp_all

/-- When an access has no effect, and why (R65, R66). -/
theorem Memory.accessFault_eq_some {m : Memory} {w : Width} {ea : Word} {e : Fault} :
    m.accessFault w ea = some e ↔
      (ea.toNat % w.bytes ≠ 0 ∧ e = .misaligned) ∨
      (ea.toNat % w.bytes = 0 ∧ m.admits ea.toNat w.bytes = false ∧ e = .outsideMemory) := by
  unfold Memory.accessFault
  split
  · simp_all only [ne_eq, Option.some.injEq, eq_comm (a := e), not_false_eq_true, true_and, false_and, or_false]
  · split <;> simp_all [eq_comm (a := e)]

/-- When a read fails. -/
theorem State.memRead_eq_error {s : State} {w : Width} {ea : Word} {e : Fault} :
    s.memRead w ea = .error e ↔ s.mem.accessFault w ea = some e := by
  unfold State.memRead
  cases s.mem.accessFault w ea <;> simp

/-- When a write fails. -/
theorem State.memWrite_eq_error {s : State} {w : Width} {ea v : Word} {e : Fault} :
    s.memWrite w ea v = .error e ↔ s.mem.accessFault w ea = some e := by
  unfold State.memWrite
  cases s.mem.accessFault w ea <;> simp

/-- Everything a read can answer. -/
theorem State.memRead_eq_ok {s : State} {w : Width} {ea v : Word} :
    s.memRead w ea = .ok v ↔
      ea.toNat % w.bytes = 0 ∧ s.mem.admits ea.toNat w.bytes = true ∧
        v = ofBytes s.params.byteOrder (s.mem.readBytes ea.toNat w.bytes) := by
  unfold State.memRead
  cases h : s.mem.accessFault w ea with
  | none =>
    have := Memory.accessFault_eq_none.mp h
    simp [this, eq_comm]
  | some e =>
    have : ¬ (ea.toNat % w.bytes = 0 ∧ s.mem.admits ea.toNat w.bytes = true) := by
      intro hh
      rw [Memory.accessFault_eq_none.mpr hh] at h
      cases h
    simp only [reduceCtorEq, false_iff]
    tauto

/-- Everything a write can answer. -/
theorem State.memWrite_eq_ok {s t : State} {w : Width} {ea v : Word} :
    s.memWrite w ea v = .ok t ↔
      ea.toNat % w.bytes = 0 ∧ s.mem.admits ea.toNat w.bytes = true ∧
        t = { s with mem := s.mem.writeBytes ea.toNat (toBytes s.params.byteOrder w.bytes v) } := by
  unfold State.memWrite
  cases h : s.mem.accessFault w ea with
  | none =>
    have := Memory.accessFault_eq_none.mp h
    simp [this, eq_comm]
  | some e =>
    have : ¬ (ea.toNat % w.bytes = 0 ∧ s.mem.admits ea.toNat w.bytes = true) := by
      intro hh
      rw [Memory.accessFault_eq_none.mpr hh] at h
      cases h
    simp only [reduceCtorEq, false_iff]
    tauto

/-- A write keeps the canonical form. -/
theorem State.memWrite_wf {s t : State} {w : Width} {ea v : Word} (h : s.mem.wf)
    (ht : s.memWrite w ea v = .ok t) : t.mem.wf := by
  obtain ⟨_, ha, rfl⟩ := State.memWrite_eq_ok.mp ht
  exact h.writeBytes (by simpa using ha)

/-- Everything a fetch can answer. -/
theorem State.fetch16_eq_ok {s : State} {w : HalfWord} :
    s.fetch16 = .ok w ↔
      s.pc.toNat % 2 = 0 ∧ s.mem.admits s.pc.toNat 2 = true ∧
        s.pc.toNat ∉ s.mem.stored ∧ s.pc.toNat + 1 ∉ s.mem.stored ∧
        w = halfWordOfBytes s.params.byteOrder (s.mem.byteAt s.pc.toNat) (s.mem.byteAt (s.pc.toNat + 1)) := by
  unfold State.fetch16
  have hb : (ofBytes s.params.byteOrder (s.mem.readBytes s.pc.toNat 2)).setWidth 16 =
      halfWordOfBytes s.params.byteOrder (s.mem.byteAt s.pc.toNat) (s.mem.byteAt (s.pc.toNat + 1)) := rfl
  rw [hb]
  by_cases h1 : s.pc.toNat % 2 = 0
  · by_cases h2 : s.mem.admits s.pc.toNat 2 = true
    · by_cases h3 : s.pc.toNat ∈ s.mem.stored
      · simp [h1, h2, h3]
      · by_cases h4 : s.pc.toNat + 1 ∈ s.mem.stored
        · simp [h1, h2, h4]
        · simp [h1, h2, h3, h4, eq_comm]
    · simp [h1, h2]
  · simp [h1]

end Sys2Proof.Machine
end

