-- ==== Sys2Proof/Laws/Registers.lean ====
section
/-! SUPPORT. Reads after writes of registers, and what the aliases of LR and PAIR do. -/

namespace Sys2Proof.Machine

theorem State.getReg_setReg (s : State) (r q : RegId) (v : Word) :
    (s.setReg r v).getReg q = if q = r then v else s.getReg q := by
  unfold State.getReg State.setReg
  simp only [Vector.getElem_set]
  by_cases h : q = r
  · simp [h]
  · have : r.toNat ≠ q.toNat := fun e => h (BitVec.eq_of_toNat_eq e.symm)
    simp [h, this]

@[simp] theorem State.getReg_setReg_self (s : State) (r : RegId) (v : Word) : (s.setReg r v).getReg r = v := by
  simp [State.getReg_setReg]

theorem State.getReg_setReg_ne (s : State) {r q : RegId} (v : Word) (h : q ≠ r) :
    (s.setReg r v).getReg q = s.getReg q := by
  simp [State.getReg_setReg, h]

/-! ## Link register (10_state.md R28) -/

theorem State.readLink_of_none {s : State} (h : s.params.lrReg = none) : s.readLink = s.lr := by
  simp [State.readLink, h]

theorem State.readLink_of_some {s : State} {k : RegId} (h : s.params.lrReg = some k) : s.readLink = s.getReg k := by
  simp [State.readLink, h]

theorem State.writeLink_of_none {s : State} (v : Word) (h : s.params.lrReg = none) :
    s.writeLink v = { s with lr := v } := by
  simp [State.writeLink, h]

theorem State.writeLink_of_some {s : State} {k : RegId} (v : Word) (h : s.params.lrReg = some k) :
    s.writeLink v = s.setReg k v := by
  simp [State.writeLink, h]

@[simp] theorem State.readLink_writeLink (s : State) (v : Word) : (s.writeLink v).readLink = v := by
  cases h : s.params.lrReg with
  | none => simp [State.readLink, State.writeLink, h]
  | some k => simp [State.readLink, State.writeLink, h]

/-- The general registers after a write of LR. -/
theorem State.writeLink_getReg (s : State) (v : Word) (q : RegId) :
    (s.writeLink v).getReg q = if s.params.lrReg = some q then v else s.getReg q := by
  cases h : s.params.lrReg with
  | none => simp [State.writeLink, h]; rfl
  | some k => simp [State.writeLink, h, State.getReg_setReg, eq_comm]

/-! ## PAIR (R30) -/

theorem State.writePair_of_alias {s : State} {k : RegId} (v : Word)
    (h : s.params.pairAlias = .generalRegister k) : s.writePair v = s.setReg k v := by
  simp [State.writePair, h]

theorem State.writePair_of_noAlias {s : State} (v : Word)
    (h : s.params.pairAlias = .noAlias) : s.writePair v = { s with pair := v } := by
  simp [State.writePair, h]

@[simp] theorem State.readPair_writePair (s : State) (v : Word) : (s.writePair v).readPair = v := by
  cases h : s.params.pairAlias <;> simp [State.readPair, State.writePair, h]

/-- The general registers after a write of PAIR. -/
theorem State.writePair_getReg (s : State) (v : Word) (q : RegId) :
    (s.writePair v).getReg q = if s.params.pairAlias = .generalRegister q then v else s.getReg q := by
  cases h : s.params.pairAlias with
  | noAlias => simp [State.writePair, h]; rfl
  | specialRegister i => simp [State.writePair, h]; rfl
  | generalRegister k => simp [State.writePair, h, State.getReg_setReg, eq_comm]

/-! ## Accumulator (R29) -/

@[simp] theorem State.accumulator_setAccumulator (s : State) (acc : BitVec 64) :
    (s.setAccumulator acc).accumulator = acc := by
  simp only [State.accumulator, State.setAccumulator]
  ext i h
  simp only [BitVec.getElem_append, BitVec.getElem_extractLsb']
  split
  · simp [BitVec.getLsbD_eq_getElem h]
  · rw [show 32 + (i - 32) = i by omega, BitVec.getLsbD_eq_getElem h]

end Sys2Proof.Machine
end

