-- ==== Sys2Proof/Laws/Control.lean ====
section
/-! SUPPORT. For each shared operation that answers an outcome, all it can answer as a next state. -/

namespace Sys2Proof.Machine

theorem State.branch_eq_next {s t : State} {c : Bool} {a : Word} :
    s.branch c a = .next t ↔ s.delay = none ∧ t = if c then { s with pc := a } else s.advance := by
  unfold State.branch
  cases s.delay <;> simp [eq_comm]

theorem State.delayedJump_eq_next {s t : State} {a : Word} :
    s.delayedJump a = .next t ↔ s.delay = none ∧ t = { s with delay := some a, pc := s.pc + 2 } := by
  unfold State.delayedJump
  cases s.delay <;> simp [eq_comm]

theorem State.delayedJumpToRegister_eq_next {s t : State} {a : Word} :
    s.delayedJumpToRegister a = .next t ↔
      s.delay = none ∧ a.getLsbD 0 = false ∧ t = { s with delay := some a, pc := s.pc + 2 } := by
  unfold State.delayedJumpToRegister
  cases h : s.delay with
  | some d => simp
  | none => cases h0 : a.getLsbD 0 <;> simp [State.delayedJump_eq_next, h]

theorem State.takeException_eq_next {s t : State} {e : Exc} :
    s.takeException e = .next t ↔
      s.delay = none ∧ t = { s with mode := .supervisor, pc := e.vector, delay := none } := by
  unfold State.takeException
  cases s.delay <;> simp [eq_comm]

theorem State.privileged_eq_next {s t : State} {r : Result} :
    s.privileged r = .next t ↔ s.mode = .supervisor ∧ r = .next t := by
  unfold State.privileged
  cases s.mode <;> simp

theorem State.compare_eq_next {s t : State} {b : Bool} :
    s.compare b = .next t ↔ t = (s.setFlag b).advance := by
  simp [State.compare, eq_comm]

theorem State.writeResult_eq_next {s t : State} {a : RegId} {v : Word} :
    s.writeResult a v = .next t ↔ t = (s.setReg a v).advance := by
  simp [State.writeResult, eq_comm]

theorem State.writeSum_eq_next {s t : State} {a : RegId} {r : Word × Bool} :
    s.writeSum a r = .next t ↔ t = ((s.setReg a r.1).writeCarry r.2).advance := by
  simp [State.writeSum, eq_comm]

theorem State.writeProduct_eq_next {s t : State} {a : RegId} {p : BitVec 64} :
    s.writeProduct a p = .next t ↔
      t = ({ s with machi := p.extractLsb' 32 32 }.setReg a (p.extractLsb' 0 32)).advance := by
  unfold State.writeProduct
  rw [Host.Outcome.next.injEq]
  exact eq_comm

theorem State.writeQuotient_eq_next {s t : State} {a : RegId} {d : Word} {r : Option Word} :
    s.writeQuotient a d r = .next t ↔
      (d = 0 ∧ t = { s.setRegOrAny a none with divf := true }.advance) ∨
      (d ≠ 0 ∧ t = (s.setRegOrAny a r).settleDivisorFlag.advance) := by
  unfold State.writeQuotient
  by_cases h : d = 0
  · rw [if_pos h, Host.Outcome.next.injEq]
    constructor
    · rintro rfl
      exact .inl ⟨h, rfl⟩
    · rintro (⟨_, rfl⟩ | ⟨h', _⟩)
      · rfl
      · exact absurd h h'
  · rw [if_neg h, Host.Outcome.next.injEq]
    constructor
    · rintro rfl
      exact .inr ⟨h, rfl⟩
    · rintro (⟨h', _⟩ | ⟨_, rfl⟩)
      · exact absurd h' h
      · rfl

theorem State.load_eq_next {s t : State} {w : Width} {a : RegId} {ea : Word} :
    s.load w a ea = .next t ↔ ∃ v, s.memRead w ea = .ok v ∧ t = (s.setReg a v).advance := by
  unfold State.load
  cases s.memRead w ea <;> simp [eq_comm]

theorem State.store_eq_next {s t : State} {w : Width} {ea v : Word} :
    s.store w ea v = .next t ↔ ∃ u, s.memWrite w ea v = .ok u ∧ t = u.advance := by
  unfold State.store
  cases s.memWrite w ea v <;> simp [eq_comm]

theorem State.loadThroughPair_eq_next {s t : State} {w : Width} {a : RegId} {n : BitVec 4} :
    s.loadThroughPair w a n = .next t ↔
      ∃ v, s.memRead w s.readPair = .ok v ∧
        t = ((s.writePair (s.readPair + scaledOffset w n)).setReg a v).advance := by
  unfold State.loadThroughPair
  cases s.memRead w s.readPair <;> simp [eq_comm]

theorem State.storePostIncrement_eq_next {s t : State} {w : Width} {a b : RegId} :
    s.storePostIncrement w a b = .next t ↔
      ∃ u, s.memWrite w (s.getReg a) (s.getReg b) = .ok u ∧
        t = (u.setReg a (s.getReg a + BitVec.ofNat 32 w.bytes)).advance := by
  unfold State.storePostIncrement
  cases s.memWrite w (s.getReg a) (s.getReg b) <;> simp [eq_comm]

theorem State.storeThroughPair_eq_next {s t : State} {w : Width} {n : BitVec 4} {b : RegId} :
    s.storeThroughPair w n b = .next t ↔
      ∃ u, s.memWrite w s.readPair (s.getReg b) = .ok u ∧
        t = (u.writePair (s.readPair + scaledOffset w n)).advance := by
  unfold State.storeThroughPair
  cases s.memWrite w s.readPair (s.getReg b) <;> simp [eq_comm]

/-! ## When a load or a store faults: exactly where its access does -/

theorem State.load_eq_fault {s : State} {w : Width} {a : RegId} {ea : Word} {e : Fault} :
    s.load w a ea = .fault e ↔ s.mem.accessFault w ea = some e := by
  rw [← State.memRead_eq_error]
  unfold State.load
  cases s.memRead w ea <;> simp

theorem State.store_eq_fault {s : State} {w : Width} {ea v : Word} {e : Fault} :
    s.store w ea v = .fault e ↔ s.mem.accessFault w ea = some e := by
  rw [← State.memWrite_eq_error (v := v)]
  unfold State.store
  cases s.memWrite w ea v <;> simp

theorem State.loadThroughPair_eq_fault {s : State} {w : Width} {a : RegId} {n : BitVec 4} {e : Fault} :
    s.loadThroughPair w a n = .fault e ↔ s.mem.accessFault w s.readPair = some e := by
  rw [← State.memRead_eq_error]
  unfold State.loadThroughPair
  cases s.memRead w s.readPair <;> simp

theorem State.storePostIncrement_eq_fault {s : State} {w : Width} {a b : RegId} {e : Fault} :
    s.storePostIncrement w a b = .fault e ↔ s.mem.accessFault w (s.getReg a) = some e := by
  rw [← State.memWrite_eq_error (v := s.getReg b)]
  unfold State.storePostIncrement
  cases s.memWrite w (s.getReg a) (s.getReg b) <;> simp

theorem State.storeThroughPair_eq_fault {s : State} {w : Width} {n : BitVec 4} {b : RegId} {e : Fault} :
    s.storeThroughPair w n b = .fault e ↔ s.mem.accessFault w s.readPair = some e := by
  rw [← State.memWrite_eq_error (v := s.getReg b)]
  unfold State.storeThroughPair
  cases s.memWrite w s.readPair (s.getReg b) <;> simp

/-- Everything a step can answer as a next state: the meaning of the instruction fetched and decoded. -/
theorem step_eq_next {s t : State} :
    step s = .next t ↔
      ∃ w i, s.fetch16 = .ok w ∧ decodeWord s.params w = .ok i ∧ exec i s = .next t := by
  unfold step
  cases hf : s.fetch16 with
  | error e => simp
  | ok w =>
    cases hd : decodeWord s.params w with
    | error e => simp [hd]
    | ok i => simp [hd]

end Sys2Proof.Machine
end

