-- ==== Sys2Proof/Laws/Decode.lean ====
section
/-! SUPPORT. Nibbles and split immediates: taking a word apart and putting it together. -/

namespace Sys2Proof

@[simp] theorem ofNibbles_nibble3 (n3 n2 n1 n0 : BitVec 4) : (ofNibbles n3 n2 n1 n0).extractLsb' 12 4 = n3 := by
  apply BitVec.eq_of_getLsbD_eq
  intro i h
  rw [ofNibbles, BitVec.getLsbD_extractLsb', BitVec.getLsbD_append, BitVec.getLsbD_append, BitVec.getLsbD_append]
  rw [if_neg (by omega), if_neg (by omega), if_neg (by omega), show 12 + i - 4 - 4 - 4 = i by omega]
  simp [h]

@[simp] theorem ofNibbles_nibble2 (n3 n2 n1 n0 : BitVec 4) : (ofNibbles n3 n2 n1 n0).extractLsb' 8 4 = n2 := by
  apply BitVec.eq_of_getLsbD_eq
  intro i h
  rw [ofNibbles, BitVec.getLsbD_extractLsb', BitVec.getLsbD_append, BitVec.getLsbD_append, BitVec.getLsbD_append]
  rw [if_neg (by omega), if_neg (by omega), if_pos (by omega), show 8 + i - 4 - 4 = i by omega]
  simp [h]

@[simp] theorem ofNibbles_nibble1 (n3 n2 n1 n0 : BitVec 4) : (ofNibbles n3 n2 n1 n0).extractLsb' 4 4 = n1 := by
  apply BitVec.eq_of_getLsbD_eq
  intro i h
  rw [ofNibbles, BitVec.getLsbD_extractLsb', BitVec.getLsbD_append, BitVec.getLsbD_append]
  rw [if_neg (by omega), if_pos (by omega), show 4 + i - 4 = i by omega]
  simp [h]

@[simp] theorem ofNibbles_nibble0 (n3 n2 n1 n0 : BitVec 4) : (ofNibbles n3 n2 n1 n0).extractLsb' 0 4 = n0 := by
  apply BitVec.eq_of_getLsbD_eq
  intro i h
  rw [ofNibbles, BitVec.getLsbD_extractLsb', BitVec.getLsbD_append]
  rw [if_pos (by omega), show 0 + i = i by omega]
  simp [h]

@[simp] theorem ofNibbles_topByte (n3 n2 n1 n0 : BitVec 4) : (ofNibbles n3 n2 n1 n0).extractLsb' 8 8 = n3 ++ n2 := by
  apply BitVec.eq_of_getLsbD_eq
  intro i h
  rw [ofNibbles, BitVec.getLsbD_extractLsb', BitVec.getLsbD_append, BitVec.getLsbD_append, BitVec.getLsbD_append,
    BitVec.getLsbD_append]
  rw [if_neg (by omega), if_neg (by omega), show 8 + i - 4 - 4 = i by omega]
  simp [h]

/-- Every word is made of its nibbles. -/
theorem ofNibbles_of_word (w : HalfWord) :
    ofNibbles (w.extractLsb' 12 4) (w.extractLsb' 8 4) (w.extractLsb' 4 4) (w.extractLsb' 0 4) = w := by
  apply BitVec.eq_of_getLsbD_eq
  intro i h
  rw [ofNibbles, BitVec.getLsbD_append, BitVec.getLsbD_append, BitVec.getLsbD_append]
  by_cases h4 : i < 4
  · simp [h4]
  · by_cases h8 : i - 4 < 4
    · simp [h4, h8, show 4 + (i - 4) = i by omega]
    · by_cases h12 : i - 4 - 4 < 4
      · simp [h4, h8, h12, show 8 + (i - 4 - 4) = i by omega]
      · simp [h4, h8, h12, show 12 + (i - 4 - 4 - 4) = i by omega, show i - 4 - 4 - 4 < 4 by omega]

/-- To prove something of every word, prove it of every four nibbles. -/
theorem exists_nibbles (w : HalfWord) : ∃ n3 n2 n1 n0, w = ofNibbles n3 n2 n1 n0 :=
  ⟨_, _, _, _, (ofNibbles_of_word w).symm⟩

/-- The decoder on a word given by its nibbles. -/
theorem decodeRow_ofNibbles (o : Option Byte) (n3 n2 n1 n0 : BitVec 4) :
    decodeRow o (ofNibbles n3 n2 n1 n0) =
      if o = some (n3 ++ n2) ∧ isReservedTopByte (n3 ++ n2) = true then some (.mov n1 n0)
      else decodeNibbles n3 n2 n1 n0 := by
  simp [decodeRow, isMovWord]

/-- A word whose top byte is not wholly reserved is read by the opcode map alone (R109). -/
theorem decodeRow_of_not_reserved (o : Option Byte) {n3 n2 : BitVec 4} (n1 n0 : BitVec 4)
    (h : isReservedTopByte (n3 ++ n2) = false) :
    decodeRow o (ofNibbles n3 n2 n1 n0) = decodeNibbles n3 n2 n1 n0 := by
  rw [decodeRow_ofNibbles, if_neg]
  simp [h]

/-- Everything the decoder of a machine can answer. -/
theorem decodeWord_eq_ok {p : Config.Params} {w : HalfWord} {i : Instr} :
    decodeWord p w = .ok i ↔ decodeRow p.opcMov w = some i ∧ isImplemented p i = true := by
  unfold decodeWord
  cases h : decodeRow p.opcMov w with
  | none => simp
  | some j =>
    by_cases hj : isImplemented p j = true
    · simp only [hj, if_true, Except.ok.injEq, Option.some.injEq]
      constructor
      · rintro rfl
        exact ⟨rfl, hj⟩
      · exact fun h => h.1
    · simp only [hj, Bool.false_eq_true, if_false, reduceCtorEq, Option.some.injEq, false_iff, not_and]
      rintro rfl
      exact hj

/-! ## Immediates -/

theorem split8 (m : BitVec 8) : m.extractLsb' 4 4 ++ m.extractLsb' 0 4 = m := by
  apply BitVec.eq_of_getLsbD_eq
  intro i h
  rw [BitVec.getLsbD_append]
  by_cases h4 : i < 4
  · simp [h4]
  · simp [h4, show 4 + (i - 4) = i by omega, show i - 4 < 4 by omega]

theorem split12 (x : BitVec 12) : x.extractLsb' 8 4 ++ x.extractLsb' 4 4 ++ x.extractLsb' 0 4 = x := by
  apply BitVec.eq_of_getLsbD_eq
  intro i h
  rw [BitVec.getLsbD_append, BitVec.getLsbD_append]
  by_cases h4 : i < 4
  · simp [h4]
  · by_cases h8 : i - 4 < 4
    · simp [h4, h8, show 4 + (i - 4) = i by omega]
    · simp [h4, h8, show 8 + (i - 4 - 4) = i by omega, show i - 4 - 4 < 4 by omega]

theorem split5 (l : BitVec 5) : l.extractLsb' 4 1 ++ l.extractLsb' 0 4 = l := by
  apply BitVec.eq_of_getLsbD_eq
  intro i h
  rw [BitVec.getLsbD_append]
  by_cases h4 : i < 4
  · simp [h4]
  · have : i = 4 := by omega
    subst this
    simp

@[simp] theorem append8_high (a b : BitVec 4) : (a ++ b : BitVec 8).extractLsb' 4 4 = a := by
  revert a b; decide

@[simp] theorem append8_low (a b : BitVec 4) : (a ++ b : BitVec 8).extractLsb' 0 4 = b := by
  revert a b; decide

@[simp] theorem append5_high (a : BitVec 1) (b : BitVec 4) : (a ++ b : BitVec 5).extractLsb' 4 1 = a := by
  revert a b; decide

@[simp] theorem append5_low (a : BitVec 1) (b : BitVec 4) : (a ++ b : BitVec 5).extractLsb' 0 4 = b := by
  revert a b; decide

@[simp] theorem append12_high (a b c : BitVec 4) : (a ++ b ++ c : BitVec 12).extractLsb' 8 4 = a := by
  apply BitVec.eq_of_getLsbD_eq
  intro i h
  rw [BitVec.getLsbD_extractLsb', BitVec.getLsbD_append, BitVec.getLsbD_append]
  rw [if_neg (by omega), if_neg (by omega), show 8 + i - 4 - 4 = i by omega]
  simp [h]

@[simp] theorem append12_mid (a b c : BitVec 4) : (a ++ b ++ c : BitVec 12).extractLsb' 4 4 = b := by
  apply BitVec.eq_of_getLsbD_eq
  intro i h
  rw [BitVec.getLsbD_extractLsb', BitVec.getLsbD_append, BitVec.getLsbD_append]
  rw [if_neg (by omega), if_pos (by omega), show 4 + i - 4 = i by omega]
  simp [h]

@[simp] theorem append12_low (a b c : BitVec 4) : (a ++ b ++ c : BitVec 12).extractLsb' 0 4 = c := by
  apply BitVec.eq_of_getLsbD_eq
  intro i h
  rw [BitVec.getLsbD_extractLsb', BitVec.getLsbD_append]
  rw [if_pos (by omega), show 0 + i = i by omega]
  simp [h]

/-! ## Words as the formats write them -/

theorem ofNibbles_of_op8 (k : BitVec 8) (a b : BitVec 4) :
    (k ++ a ++ b : HalfWord) = ofNibbles (k.extractLsb' 4 4) (k.extractLsb' 0 4) a b := by
  apply BitVec.eq_of_getLsbD_eq
  intro i h
  rw [ofNibbles, BitVec.getLsbD_append, BitVec.getLsbD_append, BitVec.getLsbD_append, BitVec.getLsbD_append,
    BitVec.getLsbD_append]
  by_cases h4 : i < 4
  · simp [h4]
  · by_cases h8 : i - 4 < 4
    · simp [h4, h8]
    · by_cases h12 : i - 4 - 4 < 4
      · simp [h4, h8, h12]
      · simp [h4, h8, h12, show 4 + (i - 4 - 4 - 4) = i - 4 - 4 by omega, show i - 4 - 4 - 4 < 4 by omega]

/-- Masking a word nibble by nibble. -/
theorem ofNibbles_and (a3 a2 a1 a0 b3 b2 b1 b0 : BitVec 4) :
    ofNibbles a3 a2 a1 a0 &&& ofNibbles b3 b2 b1 b0 =
      ofNibbles (a3 &&& b3) (a2 &&& b2) (a1 &&& b1) (a0 &&& b0) := by
  apply BitVec.eq_of_getLsbD_eq
  intro i h
  simp only [ofNibbles]
  rw [BitVec.getLsbD_and]
  rw [BitVec.getLsbD_append, BitVec.getLsbD_append, BitVec.getLsbD_append, BitVec.getLsbD_append,
    BitVec.getLsbD_append, BitVec.getLsbD_append, BitVec.getLsbD_append, BitVec.getLsbD_append,
    BitVec.getLsbD_append]
  split <;> [skip; (split <;> [skip; split])] <;> simp [BitVec.getLsbD_and]

end Sys2Proof
end

