-- ==== Sys2Proof/Laws/PerInstr.lean ====
section
/-! SUPPORT. The family EncodingRow: every instruction's encoding matches the match and mask of its row in
spec/opcode_table.json (30_encoding.md R104). h.mov, whose row is not decoded (R109), has the top byte `OPC_MOV`
instead. -/

namespace Sys2Proof.Laws

/-- Match and mask of the instruction's row (R104). -/
def rowOf : Instr → HalfWord × HalfWord
  | .sfeq .. => (0x4000, 0xFF00)
  | .sfne .. => (0x4100, 0xFF00)
  | .sfgts .. => (0x4200, 0xFF00)
  | .sfges .. => (0x4300, 0xFF00)
  | .sflts .. => (0x4400, 0xFF00)
  | .sfles .. => (0x4500, 0xFF00)
  | .sfgtu .. => (0x4600, 0xFF00)
  | .sfgeu .. => (0x4700, 0xFF00)
  | .sfltu .. => (0x4800, 0xFF00)
  | .sfleu .. => (0x4900, 0xFF00)
  | .exths .. => (0x4B00, 0xFF0F)
  | .exthz .. => (0x4B01, 0xFF0F)
  | .extbs .. => (0x4B02, 0xFF0F)
  | .extbz .. => (0x4B03, 0xFF0F)
  | .nop => (0x4B04, 0xFFFF)
  | .adds .. => (0x7000, 0xF000)
  | .subs .. => (0xF000, 0xFF00)
  | .addu .. => (0xF100, 0xFF00)
  | .subu .. => (0xF200, 0xFF00)
  | .addwcs .. => (0xF300, 0xFF00)
  | .subwcs .. => (0xF400, 0xFF00)
  | .negs .. => (0xE100, 0xFF00)
  | .bnf .. => (0xA000, 0xF000)
  | .bf .. => (0xB000, 0xF000)
  | .jal .. => (0x9000, 0xF000)
  | .jmp .. => (0x8000, 0xF000)
  | .jr .. => (0x4B06, 0xFF0F)
  | .jalr .. => (0x4B05, 0xFF0F)
  | .movibse .. => (0xC000, 0xF000)
  | .movhibsl .. => (0x2000, 0xF000)
  | .movhibse .. => (0x3000, 0xF000)
  | .mov .. => (0xE000, 0xFF00)
  | .brk .. => (0xD000, 0xFF00)
  | .sys .. => (0xD800, 0xFF00)
  | .rfe => (0xD900, 0xFFFF)
  | .mtsr .. => (0xFE00, 0xFF00)
  | .mfsr .. => (0xFF00, 0xFF00)
  | .mas .. => (0xD300, 0xFF00)
  | .mss .. => (0xD200, 0xFF00)
  | .mods .. => (0xD500, 0xFF00)
  | .modu .. => (0xD700, 0xFF00)
  | .muls .. => (0x4C00, 0xFF00)
  | .mulu .. => (0x4D00, 0xFF00)
  | .divs .. => (0x4E00, 0xFF00)
  | .divu .. => (0x4F00, 0xFF00)
  | .notu .. => (0xE000, 0xFF00)
  | .xor .. => (0xE200, 0xFF00)
  | .or .. => (0xE300, 0xFF00)
  | .and .. => (0xE400, 0xFF00)
  | .swapb .. => (0xE500, 0xFF00)
  | .swaph .. => (0xE600, 0xFF00)
  | .shlai .. => (0xEA00, 0xFE00)
  | .shrai .. => (0xEC00, 0xFE00)
  | .shrli .. => (0xEE00, 0xFE00)
  | .shla .. => (0xDA00, 0xFF00)
  | .shra .. => (0xDC00, 0xFF00)
  | .shrl .. => (0xDE00, 0xFF00)
  | .ror .. => (0xDB00, 0xFF00)
  | .rol .. => (0xDD00, 0xFF00)
  | .test .. => (0xF500, 0xFF00)
  | .testi .. => (0xF600, 0xFE00)
  | .clr .. => (0xFC00, 0xFF00)
  | .clri .. => (0xF800, 0xFE00)
  | .set .. => (0xFD00, 0xFF00)
  | .seti .. => (0xFA00, 0xFE00)
  | .lw .. => (0x0000, 0xF000)
  | .lhz .. => (0x0080, 0xF0F0)
  | .lbz .. => (0x0090, 0xF0F0)
  | .sw .. => (0x1000, 0xF000)
  | .sh .. => (0x1008, 0xF00F)
  | .sb .. => (0x1009, 0xF00F)
  | .lwpain .. => (0x5300, 0xFF00)
  | .lhzpain .. => (0x5400, 0xFF00)
  | .lbzpain .. => (0x5500, 0xFF00)
  | .lhspain .. => (0x5600, 0xFF00)
  | .lbspain .. => (0x5700, 0xFF00)
  | .swpai .. => (0x6300, 0xFF00)
  | .shpai .. => (0x6400, 0xFF00)
  | .sbpai .. => (0x6500, 0xFF00)
  | .swpain .. => (0x6600, 0xFF00)
  | .shpain .. => (0x6700, 0xFF00)
  | .sbpain .. => (0x6800, 0xFF00)

/-- The word of an instruction has the fixed bits of its row; h.mov's has the top byte `OPC_MOV` (R109). -/
def EncodingRow.Statement (i : Instr) : Prop :=
  ∀ (p : Config.Params) (w : HalfWord), encode p i = some w →
    match i with
    | .mov _ _ => p.opcMov = some (w.extractLsb' 8 8)
    | _ => w &&& (rowOf i).2 = (rowOf i).1

/-! ## The fixed bits of each kind of row -/

theorem and_ones : ∀ x : BitVec 4, x &&& 15#4 = x := by decide

theorem mask_F000 (n3 n2 n1 n0 : BitVec 4) : ofNibbles n3 n2 n1 n0 &&& 0xF000 = ofNibbles n3 0 0 0 := by
  rw [show (0xF000 : HalfWord) = ofNibbles 0xF 0 0 0 from rfl, ofNibbles_and]
  simp [and_ones]

theorem mask_FF00 (n3 n2 n1 n0 : BitVec 4) : ofNibbles n3 n2 n1 n0 &&& 0xFF00 = ofNibbles n3 n2 0 0 := by
  rw [show (0xFF00 : HalfWord) = ofNibbles 0xF 0xF 0 0 from rfl, ofNibbles_and]
  simp [and_ones]

theorem mask_FF0F (n3 n2 n1 n0 : BitVec 4) : ofNibbles n3 n2 n1 n0 &&& 0xFF0F = ofNibbles n3 n2 0 n0 := by
  rw [show (0xFF0F : HalfWord) = ofNibbles 0xF 0xF 0 0xF from rfl, ofNibbles_and]
  simp [and_ones]

theorem mask_F0F0 (n3 n2 n1 n0 : BitVec 4) : ofNibbles n3 n2 n1 n0 &&& 0xF0F0 = ofNibbles n3 0 n1 0 := by
  rw [show (0xF0F0 : HalfWord) = ofNibbles 0xF 0 0xF 0 from rfl, ofNibbles_and]
  simp [and_ones]

theorem mask_F00F (n3 n2 n1 n0 : BitVec 4) : ofNibbles n3 n2 n1 n0 &&& 0xF00F = ofNibbles n3 0 0 n0 := by
  rw [show (0xF00F : HalfWord) = ofNibbles 0xF 0 0 0xF from rfl, ofNibbles_and]
  simp [and_ones]

theorem mask_FE00 (n3 : BitVec 4) (top : BitVec 3) (a : RegId) (imm : BitVec 5) :
    encodeRI5 n3 top a imm &&& 0xFE00 = ofNibbles n3 (top ++ 0#1) 0 0 := by
  have nibble : ∀ (x : BitVec 3) (y : BitVec 1), (x ++ y : BitVec 4) &&& 0xE = x ++ 0#1 := by decide
  rw [encodeRI5, show (0xFE00 : HalfWord) = ofNibbles 0xF 0xE 0 0 from rfl, ofNibbles_and, nibble]
  simp [and_ones]

/-! ## The family -/

theorem EncodingRow.sfeq (a b : RegId) : EncodingRow.Statement (.sfeq a b) := by
  intro p w h
  cases h
  exact mask_FF00 ..

theorem EncodingRow.sfne (a b : RegId) : EncodingRow.Statement (.sfne a b) := by
  intro p w h
  cases h
  exact mask_FF00 ..

theorem EncodingRow.sfgts (a b : RegId) : EncodingRow.Statement (.sfgts a b) := by
  intro p w h
  cases h
  exact mask_FF00 ..

theorem EncodingRow.sfges (a b : RegId) : EncodingRow.Statement (.sfges a b) := by
  intro p w h
  cases h
  exact mask_FF00 ..

theorem EncodingRow.sflts (a b : RegId) : EncodingRow.Statement (.sflts a b) := by
  intro p w h
  cases h
  exact mask_FF00 ..

theorem EncodingRow.sfles (a b : RegId) : EncodingRow.Statement (.sfles a b) := by
  intro p w h
  cases h
  exact mask_FF00 ..

theorem EncodingRow.sfgtu (a b : RegId) : EncodingRow.Statement (.sfgtu a b) := by
  intro p w h
  cases h
  exact mask_FF00 ..

theorem EncodingRow.sfgeu (a b : RegId) : EncodingRow.Statement (.sfgeu a b) := by
  intro p w h
  cases h
  exact mask_FF00 ..

theorem EncodingRow.sfltu (a b : RegId) : EncodingRow.Statement (.sfltu a b) := by
  intro p w h
  cases h
  exact mask_FF00 ..

theorem EncodingRow.sfleu (a b : RegId) : EncodingRow.Statement (.sfleu a b) := by
  intro p w h
  cases h
  exact mask_FF00 ..

theorem EncodingRow.exths (a : RegId) : EncodingRow.Statement (.exths a) := by
  intro p w h
  cases h
  exact mask_FF0F ..

theorem EncodingRow.exthz (a : RegId) : EncodingRow.Statement (.exthz a) := by
  intro p w h
  cases h
  exact mask_FF0F ..

theorem EncodingRow.extbs (a : RegId) : EncodingRow.Statement (.extbs a) := by
  intro p w h
  cases h
  exact mask_FF0F ..

theorem EncodingRow.extbz (a : RegId) : EncodingRow.Statement (.extbz a) := by
  intro p w h
  cases h
  exact mask_FF0F ..

theorem EncodingRow.nop : EncodingRow.Statement (.nop) := by
  intro p w h
  cases h
  rfl

theorem EncodingRow.adds (a b d : RegId) : EncodingRow.Statement (.adds a b d) := by
  intro p w h
  cases h
  exact mask_F000 ..

theorem EncodingRow.subs (a b : RegId) : EncodingRow.Statement (.subs a b) := by
  intro p w h
  cases h
  exact mask_FF00 ..

theorem EncodingRow.addu (a b : RegId) : EncodingRow.Statement (.addu a b) := by
  intro p w h
  cases h
  exact mask_FF00 ..

theorem EncodingRow.subu (a b : RegId) : EncodingRow.Statement (.subu a b) := by
  intro p w h
  cases h
  exact mask_FF00 ..

theorem EncodingRow.addwcs (a b : RegId) : EncodingRow.Statement (.addwcs a b) := by
  intro p w h
  cases h
  exact mask_FF00 ..

theorem EncodingRow.subwcs (a b : RegId) : EncodingRow.Statement (.subwcs a b) := by
  intro p w h
  cases h
  exact mask_FF00 ..

theorem EncodingRow.negs (a b : RegId) : EncodingRow.Statement (.negs a b) := by
  intro p w h
  cases h
  exact mask_FF00 ..

theorem EncodingRow.bnf (x : BitVec 12) : EncodingRow.Statement (.bnf x) := by
  intro p w h
  cases h
  exact mask_F000 ..

theorem EncodingRow.bf (x : BitVec 12) : EncodingRow.Statement (.bf x) := by
  intro p w h
  cases h
  exact mask_F000 ..

theorem EncodingRow.jal (x : BitVec 12) : EncodingRow.Statement (.jal x) := by
  intro p w h
  cases h
  exact mask_F000 ..

theorem EncodingRow.jmp (x : BitVec 12) : EncodingRow.Statement (.jmp x) := by
  intro p w h
  cases h
  exact mask_F000 ..

theorem EncodingRow.jr (a : RegId) : EncodingRow.Statement (.jr a) := by
  intro p w h
  cases h
  exact mask_FF0F ..

theorem EncodingRow.jalr (a : RegId) : EncodingRow.Statement (.jalr a) := by
  intro p w h
  cases h
  exact mask_FF0F ..

theorem EncodingRow.movibse (a : RegId) (m : BitVec 8) : EncodingRow.Statement (.movibse a m) := by
  intro p w h
  cases h
  exact mask_F000 ..

theorem EncodingRow.movhibsl (a : RegId) (m : BitVec 8) : EncodingRow.Statement (.movhibsl a m) := by
  intro p w h
  cases h
  exact mask_F000 ..

theorem EncodingRow.movhibse (a : RegId) (m : BitVec 8) : EncodingRow.Statement (.movhibse a m) := by
  intro p w h
  cases h
  exact mask_F000 ..

theorem EncodingRow.mov (a b : RegId) : EncodingRow.Statement (.mov a b) := by
  intro p w h
  simp only [encode] at h
  split at h
  · split at h
    · rename_i k hk _
      cases h
      have e : ∀ k : Byte, k.extractLsb' 4 4 ++ k.extractLsb' 0 4 = k := split8
      simp [hk, e]
    · cases h
  · cases h

theorem EncodingRow.brk (m : BitVec 8) : EncodingRow.Statement (.brk m) := by
  intro p w h
  cases h
  exact mask_FF00 ..

theorem EncodingRow.sys (m : BitVec 8) : EncodingRow.Statement (.sys m) := by
  intro p w h
  cases h
  exact mask_FF00 ..

theorem EncodingRow.rfe : EncodingRow.Statement (.rfe) := by
  intro p w h
  cases h
  rfl

theorem EncodingRow.mtsr (a b : RegId) : EncodingRow.Statement (.mtsr a b) := by
  intro p w h
  cases h
  exact mask_FF00 ..

theorem EncodingRow.mfsr (a b : RegId) : EncodingRow.Statement (.mfsr a b) := by
  intro p w h
  cases h
  exact mask_FF00 ..

theorem EncodingRow.mas (a b : RegId) : EncodingRow.Statement (.mas a b) := by
  intro p w h
  cases h
  exact mask_FF00 ..

theorem EncodingRow.mss (a b : RegId) : EncodingRow.Statement (.mss a b) := by
  intro p w h
  cases h
  exact mask_FF00 ..

theorem EncodingRow.mods (a b : RegId) : EncodingRow.Statement (.mods a b) := by
  intro p w h
  cases h
  exact mask_FF00 ..

theorem EncodingRow.modu (a b : RegId) : EncodingRow.Statement (.modu a b) := by
  intro p w h
  cases h
  exact mask_FF00 ..

theorem EncodingRow.muls (a b : RegId) : EncodingRow.Statement (.muls a b) := by
  intro p w h
  cases h
  exact mask_FF00 ..

theorem EncodingRow.mulu (a b : RegId) : EncodingRow.Statement (.mulu a b) := by
  intro p w h
  cases h
  exact mask_FF00 ..

theorem EncodingRow.divs (a b : RegId) : EncodingRow.Statement (.divs a b) := by
  intro p w h
  cases h
  exact mask_FF00 ..

theorem EncodingRow.divu (a b : RegId) : EncodingRow.Statement (.divu a b) := by
  intro p w h
  cases h
  exact mask_FF00 ..

theorem EncodingRow.notu (a b : RegId) : EncodingRow.Statement (.notu a b) := by
  intro p w h
  cases h
  exact mask_FF00 ..

theorem EncodingRow.xor (a b : RegId) : EncodingRow.Statement (.xor a b) := by
  intro p w h
  cases h
  exact mask_FF00 ..

theorem EncodingRow.or (a b : RegId) : EncodingRow.Statement (.or a b) := by
  intro p w h
  cases h
  exact mask_FF00 ..

theorem EncodingRow.and (a b : RegId) : EncodingRow.Statement (.and a b) := by
  intro p w h
  cases h
  exact mask_FF00 ..

theorem EncodingRow.swapb (a b : RegId) : EncodingRow.Statement (.swapb a b) := by
  intro p w h
  cases h
  exact mask_FF00 ..

theorem EncodingRow.swaph (a b : RegId) : EncodingRow.Statement (.swaph a b) := by
  intro p w h
  cases h
  exact mask_FF00 ..

theorem EncodingRow.shlai (a : RegId) (l : BitVec 5) : EncodingRow.Statement (.shlai a l) := by
  intro p w h
  cases h
  exact mask_FE00 ..

theorem EncodingRow.shrai (a : RegId) (l : BitVec 5) : EncodingRow.Statement (.shrai a l) := by
  intro p w h
  cases h
  exact mask_FE00 ..

theorem EncodingRow.shrli (a : RegId) (l : BitVec 5) : EncodingRow.Statement (.shrli a l) := by
  intro p w h
  cases h
  exact mask_FE00 ..

theorem EncodingRow.shla (a b : RegId) : EncodingRow.Statement (.shla a b) := by
  intro p w h
  cases h
  exact mask_FF00 ..

theorem EncodingRow.shra (a b : RegId) : EncodingRow.Statement (.shra a b) := by
  intro p w h
  cases h
  exact mask_FF00 ..

theorem EncodingRow.shrl (a b : RegId) : EncodingRow.Statement (.shrl a b) := by
  intro p w h
  cases h
  exact mask_FF00 ..

theorem EncodingRow.ror (a b : RegId) : EncodingRow.Statement (.ror a b) := by
  intro p w h
  cases h
  exact mask_FF00 ..

theorem EncodingRow.rol (a b : RegId) : EncodingRow.Statement (.rol a b) := by
  intro p w h
  cases h
  exact mask_FF00 ..

theorem EncodingRow.test (a b : RegId) : EncodingRow.Statement (.test a b) := by
  intro p w h
  cases h
  exact mask_FF00 ..

theorem EncodingRow.testi (a : RegId) (m : BitVec 5) : EncodingRow.Statement (.testi a m) := by
  intro p w h
  cases h
  exact mask_FE00 ..

theorem EncodingRow.clr (a b : RegId) : EncodingRow.Statement (.clr a b) := by
  intro p w h
  cases h
  exact mask_FF00 ..

theorem EncodingRow.clri (a : RegId) (m : BitVec 5) : EncodingRow.Statement (.clri a m) := by
  intro p w h
  cases h
  exact mask_FE00 ..

theorem EncodingRow.set (a b : RegId) : EncodingRow.Statement (.set a b) := by
  intro p w h
  cases h
  exact mask_FF00 ..

theorem EncodingRow.seti (a : RegId) (m : BitVec 5) : EncodingRow.Statement (.seti a m) := by
  intro p w h
  cases h
  exact mask_FE00 ..

theorem EncodingRow.lw (a : RegId) (n : BitVec 4) (b : RegId) : EncodingRow.Statement (.lw a n b) := by
  intro p w h
  cases h
  exact mask_F000 ..

theorem EncodingRow.lhz (n : BitVec 4) (b : RegId) : EncodingRow.Statement (.lhz n b) := by
  intro p w h
  cases h
  exact mask_F0F0 ..

theorem EncodingRow.lbz (n : BitVec 4) (b : RegId) : EncodingRow.Statement (.lbz n b) := by
  intro p w h
  cases h
  exact mask_F0F0 ..

theorem EncodingRow.sw (n : BitVec 4) (a b : RegId) : EncodingRow.Statement (.sw n a b) := by
  intro p w h
  cases h
  exact mask_F000 ..

theorem EncodingRow.sh (n : BitVec 4) (a : RegId) : EncodingRow.Statement (.sh n a) := by
  intro p w h
  cases h
  exact mask_F00F ..

theorem EncodingRow.sb (n : BitVec 4) (a : RegId) : EncodingRow.Statement (.sb n a) := by
  intro p w h
  cases h
  exact mask_F00F ..

theorem EncodingRow.lwpain (a : RegId) (n : BitVec 4) : EncodingRow.Statement (.lwpain a n) := by
  intro p w h
  cases h
  exact mask_FF00 ..

theorem EncodingRow.lhzpain (a : RegId) (n : BitVec 4) : EncodingRow.Statement (.lhzpain a n) := by
  intro p w h
  cases h
  exact mask_FF00 ..

theorem EncodingRow.lbzpain (a : RegId) (n : BitVec 4) : EncodingRow.Statement (.lbzpain a n) := by
  intro p w h
  cases h
  exact mask_FF00 ..

theorem EncodingRow.lhspain (a : RegId) (n : BitVec 4) : EncodingRow.Statement (.lhspain a n) := by
  intro p w h
  cases h
  exact mask_FF00 ..

theorem EncodingRow.lbspain (a : RegId) (n : BitVec 4) : EncodingRow.Statement (.lbspain a n) := by
  intro p w h
  cases h
  exact mask_FF00 ..

theorem EncodingRow.swpai (a b : RegId) : EncodingRow.Statement (.swpai a b) := by
  intro p w h
  cases h
  exact mask_FF00 ..

theorem EncodingRow.shpai (a b : RegId) : EncodingRow.Statement (.shpai a b) := by
  intro p w h
  cases h
  exact mask_FF00 ..

theorem EncodingRow.sbpai (a b : RegId) : EncodingRow.Statement (.sbpai a b) := by
  intro p w h
  cases h
  exact mask_FF00 ..

theorem EncodingRow.swpain (n : BitVec 4) (b : RegId) : EncodingRow.Statement (.swpain n b) := by
  intro p w h
  cases h
  exact mask_FF00 ..

theorem EncodingRow.shpain (n : BitVec 4) (b : RegId) : EncodingRow.Statement (.shpain n b) := by
  intro p w h
  cases h
  exact mask_FF00 ..

theorem EncodingRow.sbpain (n : BitVec 4) (b : RegId) : EncodingRow.Statement (.sbpain n b) := by
  intro p w h
  cases h
  exact mask_FF00 ..

end Sys2Proof.Laws
end

