-- ==== Sys2Proof/Tests/Slice0.lean ====
section
/-! SUPPORT. The model's own tests. Words, operands and results are those of the rules' examples and of
95_test_vectors.md. -/

namespace Sys2Proof.Tests

open Sys2Proof Sys2Proof.Machine

/-! ## Ill-formed terms are refused by each check of WellFormed -/

theorem test_wf_lw_r8 : (Instr.lw 8 0 1).wellFormed Config.resetParams = false := by decide
theorem test_wf_lw_r9 : (Instr.lw 9 0 1).wellFormed Config.resetParams = false := by decide
theorem test_wf_sw_r8 : (Instr.sw 0 1 8).wellFormed Config.resetParams = false := by decide
theorem test_wf_sw_r9 : (Instr.sw 0 1 9).wellFormed Config.resetParams = false := by decide
theorem test_wf_mov_without_opcode : (Instr.mov 1 2).wellFormed Config.resetParams = false := by decide
theorem test_wf_mov_opcode_not_reserved :
    (Instr.mov 1 2).wellFormed { Config.resetParams with opcMov := some 0xE0 } = false := by decide
theorem test_wf_absent :
    (Instr.muls 1 2).wellFormed { Config.resetParams with absent := [.muls] } = false := by decide

/-! ## Decoding: every constructor, by a word written from its encoding (R104) -/

theorem test_decode_compare :
    decodeTableWord 16 0x4034 = some (.sfeq 3 4) ∧ decodeTableWord 16 0x4134 = some (.sfne 3 4) ∧
    decodeTableWord 16 0x4212 = some (.sfgts 1 2) ∧ decodeTableWord 16 0x4334 = some (.sfges 3 4) ∧
    decodeTableWord 16 0x4434 = some (.sflts 3 4) ∧ decodeTableWord 16 0x4534 = some (.sfles 3 4) ∧
    decodeTableWord 16 0x4634 = some (.sfgtu 3 4) ∧ decodeTableWord 16 0x4734 = some (.sfgeu 3 4) ∧
    decodeTableWord 16 0x4834 = some (.sfltu 3 4) ∧ decodeTableWord 16 0x4934 = some (.sfleu 3 4) := by decide

theorem test_decode_extend_nop :
    decodeTableWord 16 0x4B70 = some (.exths 7) ∧ decodeTableWord 16 0x4B71 = some (.exthz 7) ∧
    decodeTableWord 16 0x4B72 = some (.extbs 7) ∧ decodeTableWord 16 0x4B73 = some (.extbz 7) ∧
    decodeTableWord 16 0x4B04 = some .nop := by decide

theorem test_decode_arith :
    decodeTableWord 16 0x7312 = some (.adds 1 2 3) ∧ decodeTableWord 16 0xF012 = some (.subs 1 2) ∧
    decodeTableWord 16 0xF112 = some (.addu 1 2) ∧ decodeTableWord 16 0xF212 = some (.subu 1 2) ∧
    decodeTableWord 16 0xF312 = some (.addwcs 1 2) ∧ decodeTableWord 16 0xF412 = some (.subwcs 1 2) ∧
    decodeTableWord 16 0xE112 = some (.negs 1 2) := by decide

theorem test_decode_branch_jump :
    decodeTableWord 16 0xAFFE = some (.bnf 0xFFE) ∧ decodeTableWord 16 0xB123 = some (.bf 0x123) ∧
    decodeTableWord 16 0x9010 = some (.jal 0x010) ∧ decodeTableWord 16 0x8FFE = some (.jmp 0xFFE) ∧
    decodeTableWord 16 0x4B56 = some (.jr 5) ∧ decodeTableWord 16 0x4B55 = some (.jalr 5) := by decide

theorem test_decode_move :
    decodeTableWord 16 0xCA25 = some (.movibse 2 0xA5) ∧ decodeTableWord 16 0x2132 = some (.movhibsl 3 0x12) ∧
    decodeTableWord 16 0x3132 = some (.movhibse 3 0x12) := by decide

theorem test_decode_mov_with_opcode :
    decodeRow (some 0x4A) 0x4A34 = some (.mov 3 4) ∧ decodeRow none 0xE034 = some (.notu 3 4) := by decide

theorem test_decode_system :
    decodeTableWord 16 0xD001 = some (.brk 1) ∧ decodeTableWord 16 0xD842 = some (.sys 0x42) ∧
    decodeTableWord 16 0xD900 = some .rfe ∧ decodeTableWord 16 0xFE12 = some (.mtsr 1 2) ∧
    decodeTableWord 16 0xFF56 = some (.mfsr 5 6) := by decide

theorem test_decode_muldiv :
    decodeTableWord 16 0xD312 = some (.mas 1 2) ∧ decodeTableWord 16 0xD212 = some (.mss 1 2) ∧
    decodeTableWord 16 0xD512 = some (.mods 1 2) ∧ decodeTableWord 16 0xD712 = some (.modu 1 2) ∧
    decodeTableWord 16 0x4C12 = some (.muls 1 2) ∧ decodeTableWord 16 0x4D12 = some (.mulu 1 2) ∧
    decodeTableWord 16 0x4E12 = some (.divs 1 2) ∧ decodeTableWord 16 0x4F12 = some (.divu 1 2) := by decide

theorem test_decode_logic_shift :
    decodeTableWord 16 0xE012 = some (.notu 1 2) ∧ decodeTableWord 16 0xE212 = some (.xor 1 2) ∧
    decodeTableWord 16 0xE312 = some (.or 1 2) ∧ decodeTableWord 16 0xE412 = some (.and 1 2) ∧
    decodeTableWord 16 0xE512 = some (.swapb 1 2) ∧ decodeTableWord 16 0xE612 = some (.swaph 1 2) ∧
    decodeTableWord 16 0xEB10 = some (.shlai 1 16) ∧ decodeTableWord 16 0xEC14 = some (.shrai 1 4) ∧
    decodeTableWord 16 0xEF1F = some (.shrli 1 31) ∧ decodeTableWord 16 0xDA12 = some (.shla 1 2) ∧
    decodeTableWord 16 0xDC12 = some (.shra 1 2) ∧ decodeTableWord 16 0xDE12 = some (.shrl 1 2) ∧
    decodeTableWord 16 0xDB12 = some (.ror 1 2) ∧ decodeTableWord 16 0xDD12 = some (.rol 1 2) := by decide

theorem test_decode_bit :
    decodeTableWord 16 0xF512 = some (.test 1 2) ∧ decodeTableWord 16 0xF710 = some (.testi 1 16) ∧
    decodeTableWord 16 0xFC12 = some (.clr 1 2) ∧ decodeTableWord 16 0xF814 = some (.clri 1 4) ∧
    decodeTableWord 16 0xFD12 = some (.set 1 2) ∧ decodeTableWord 16 0xFB1F = some (.seti 1 31) := by decide

theorem test_decode_load_store :
    decodeTableWord 16 0x0F12 = some (.lw 1 0xF 2) ∧ decodeTableWord 16 0x0182 = some (.lhz 1 2) ∧
    decodeTableWord 16 0x0392 = some (.lbz 3 2) ∧ decodeTableWord 16 0x1F12 = some (.sw 0xF 1 2) ∧
    decodeTableWord 16 0x1118 = some (.sh 1 1) ∧ decodeTableWord 16 0x1719 = some (.sb 7 1) := by decide

theorem test_decode_post_increment :
    decodeTableWord 16 0x5318 = some (.lwpain 1 8) ∧ decodeTableWord 16 0x5411 = some (.lhzpain 1 1) ∧
    decodeTableWord 16 0x551F = some (.lbzpain 1 0xF) ∧ decodeTableWord 16 0x5611 = some (.lhspain 1 1) ∧
    decodeTableWord 16 0x5711 = some (.lbspain 1 1) ∧ decodeTableWord 16 0x6312 = some (.swpai 1 2) ∧
    decodeTableWord 16 0x6412 = some (.shpai 1 2) ∧ decodeTableWord 16 0x6512 = some (.sbpai 1 2) ∧
    decodeTableWord 16 0x66F2 = some (.swpain 0xF 2) ∧ decodeTableWord 16 0x6782 = some (.shpain 8 2) ∧
    decodeTableWord 16 0x6872 = some (.sbpain 7 2) := by decide

theorem test_decode_reserved :
    decodeTableWord 16 0x4B14 = none ∧ decodeTableWord 16 0xD901 = none ∧ decodeTableWord 16 0x4A00 = none ∧
    decodeTableWord 16 0x69FF = none := by decide

theorem test_decode_truncated :
    decodeBytes Config.resetParams [0x4B] = .error .truncated := by decide

/-! ## One step -/

/-- User mode at 0x100, with the given registers. -/
def at100 (rs : List (RegId × Word)) : State :=
  rs.foldl (fun s r => s.setReg r.1 r.2) (State.resetWith Config.resetParams 0x100 .user)

/-- The same in Supervisor mode. -/
def supAt100 (rs : List (RegId × Word)) : State :=
  { at100 rs with mode := .supervisor }

/-- The same with the bytes 11 22 33 44 55 66 77 88 at 0x1000 and a value in PAIR. -/
def withData (pair : Word) (s : State) : State :=
  { s with
    pair := pair
    mem  := s.mem.placeBytes 0x1000 [0x11, 0x22, 0x33, 0x44, 0x55, 0x66, 0x77, 0x88] }

/-- The state after one step that runs the word, if there is one. -/
def after (w : Nat) (s : State) : Option State :=
  match step (s.withFetchWord 16 w) with
  | .next t => some t
  | _ => none

/-- The fault of one step that runs the word, if it faults. -/
def faultOf (w : Nat) (s : State) : Option Fault :=
  match step (s.withFetchWord 16 w) with
  | .fault e => some e
  | _ => none

/-- The refusal of one step that runs the word, if it is refused. -/
def refusalOf (w : Nat) (s : State) : Option Refusal :=
  match step (s.withFetchWord 16 w) with
  | .refused e => some e
  | _ => none

def regAfter (w : Nat) (s : State) (r : RegId) : Option Word :=
  (after w s).map fun t => t.getReg r

def flagAfter (w : Nat) (s : State) : Option Bool :=
  (after w s).map State.f

def regCarryAfter (w : Nat) (s : State) (r : RegId) : Option (Word × Bool) :=
  (after w s).map fun t => (t.getReg r, t.cy)

def pcAfter (w : Nat) (s : State) : Option (Word × Option Word) :=
  (after w s).map fun t => (t.pc, t.delay)

def bytesAfter (w : Nat) (s : State) (a n : Nat) : Option (List Byte) :=
  (after w s).map fun t => t.mem.readBytes a n

theorem test_reset_memory_is_canonical : State.reset.mem.wf := by decide

theorem test_reset_runs_a_placed_word :
    regAfter 0xC017 State.reset 1 = some 7 ∧ pcAfter 0xC017 State.reset = some (0x2002, none) := by decide

theorem test_sfeq : flagAfter 0x4034 (at100 [(3, 0xFFFFFFFF), (4, 1)]) = some false := by decide
theorem test_sfne : flagAfter 0x4134 (at100 [(3, 0xFFFFFFFF), (4, 1)]) = some true := by decide
theorem test_sfgts : flagAfter 0x4212 (at100 [(1, 0x7FFFFFFF), (2, 0x80000000)]) = some true := by decide
theorem test_sfges : flagAfter 0x4334 (at100 [(3, 0xFFFFFFFF), (4, 1)]) = some false := by decide
theorem test_sflts : flagAfter 0x4434 (at100 [(3, 0xFFFFFFFF), (4, 1)]) = some true := by decide
theorem test_sfles : flagAfter 0x4533 (at100 [(3, 0xFFFFFFFF)]) = some true := by decide
theorem test_sfgtu : flagAfter 0x4634 (at100 [(3, 0xFFFFFFFF), (4, 1)]) = some true := by decide
theorem test_sfgeu : flagAfter 0x4733 (at100 [(3, 0xFFFFFFFF)]) = some true := by decide
theorem test_sfltu : flagAfter 0x4834 (at100 [(3, 0xFFFFFFFF), (4, 1)]) = some false := by decide
theorem test_sfleu : flagAfter 0x4934 (at100 [(3, 0xFFFFFFFF), (4, 1)]) = some false := by decide

theorem test_exths : regAfter 0x4B70 (at100 [(7, 0x1234A5C6)]) 7 = some 0xFFFFA5C6 := by decide
theorem test_exthz : regAfter 0x4B71 (at100 [(7, 0x1234A5C6)]) 7 = some 0x0000A5C6 := by decide
theorem test_extbs : regAfter 0x4B72 (at100 [(7, 0x1234A5C6)]) 7 = some 0xFFFFFFC6 := by decide
theorem test_extbz : regAfter 0x4B73 (at100 [(7, 0x1234A5C6)]) 7 = some 0x000000C6 := by decide
theorem test_nop : pcAfter 0x4B04 (at100 []) = some (0x102, none) := by decide

theorem test_adds : regCarryAfter 0x7312 (at100 [(2, 0xFFFFFFFF), (3, 2)]) 1 = some (1, true) := by decide
theorem test_subs : regCarryAfter 0xF012 (at100 [(1, 5), (2, 7)]) 1 = some (0xFFFFFFFE, false) := by decide
theorem test_addu : regCarryAfter 0xF111 (at100 [(1, 0x80000000)]) 1 = some (0, true) := by decide
theorem test_subu : regCarryAfter 0xF211 (at100 [(1, 9)]) 1 = some (0, true) := by decide
theorem test_addwcs :
    regCarryAfter 0xF312 { at100 [(1, 0xFFFFFFFF), (2, 0)] with cy := true } 1 = some (0, true) := by decide
theorem test_subwcs : regCarryAfter 0xF412 (at100 []) 1 = some (0xFFFFFFFF, false) := by decide
theorem test_negs : regAfter 0xE112 (at100 [(2, 1)]) 1 = some 0xFFFFFFFF := by decide

theorem test_bnf_taken : pcAfter 0xAFFE (at100 []) = some (0xFC, none) := by decide
theorem test_bf_not_taken : pcAfter 0xBFFE (at100 []) = some (0x102, none) := by decide
theorem test_bf_wraps : pcAfter 0xB800 { at100 [] with f := true } = some (0xFFFFF100, none) := by decide
theorem test_jal : pcAfter 0x9010 (at100 []) = some (0x102, some 0x120) := by decide
theorem test_jal_link : (after 0x9010 (at100 [])).map State.lr = some 0x102 := by decide
theorem test_jmp : pcAfter 0x8FFE (at100 []) = some (0x102, some 0xFC) := by decide
theorem test_jr : pcAfter 0x4B56 (at100 [(5, 0x400)]) = some (0x102, some 0x400) := by decide
theorem test_jr_odd : faultOf 0x4B56 (at100 [(5, 0x401)]) = some .oddJumpTarget := by decide
theorem test_jalr : pcAfter 0x4B55 (at100 [(5, 0x400)]) = some (0x102, some 0x400) := by decide
theorem test_jalr_link_register_is_target :
    (after 0x4B55 { at100 [(5, 0x400)] with params := { Config.resetParams with lrReg := some 5 } }).map
      (fun t => (t.getReg 5, t.delay)) = some (0x102, some 0x400) := by decide
theorem test_delay_slot : pcAfter 0xC017 { at100 [] with delay := some 0x400 } = some (0x400, none) := by decide
theorem test_branch_in_delay_slot :
    faultOf 0xB001 { at100 [] with delay := some 0x400 } = some .controlTransferInDelaySlot := by decide

theorem test_movibse : regAfter 0xCA25 (at100 []) 2 = some 0xFFFFFFA5 := by decide
theorem test_movhibsl : refusalOf 0x2132 (at100 []) = some (.noSemantics "h.movhibsl") := by decide
theorem test_movhibse : refusalOf 0x3132 (at100 []) = some (.noSemantics "h.movhibse") := by decide
theorem test_mov :
    regAfter 0x4A34 { at100 [(4, 0x12345678)] with params := { Config.resetParams with opcMov := some 0x4A } } 3 =
      some 0x12345678 := by decide

theorem test_brk : (after 0xD001 (at100 [])).map (fun t => (t.pc, t.mode)) = some (0xD00, .supervisor) := by decide
theorem test_sys : (after 0xD800 (at100 [])).map (fun t => (t.pc, t.mode)) = some (0xC00, .supervisor) := by decide
theorem test_rfe : (after 0xD900 (supAt100 [])).map (fun t => (t.pc, t.mode)) = some (0x102, .user) := by decide
theorem test_rfe_user : faultOf 0xD900 (at100 []) = some .privilegedInUserMode := by decide
theorem test_mtsr : (after 0xFE12 (supAt100 [(1, 3), (2, 0xDEADBEEF)])).map State.machi = some 0xDEADBEEF := by decide
theorem test_mtsr_unnamed :
    refusalOf 0xFE12 (supAt100 [(1, 5)]) = some .writeOfUnnamedSpecialRegister := by decide
theorem test_mfsr : regAfter 0xFF56 { supAt100 [(6, 4)] with maclo := 0x10 } 5 = some 0x10 := by decide

theorem test_mas :
    (after 0xD312 { at100 [(1, 0x80000000), (2, 0x80000000)] with machi := 0xC0000000 }).map State.accumulator =
      some 0 := by decide
theorem test_mss :
    (after 0xD212 { at100 [(1, 3), (2, 4)] with maclo := 10 }).map State.accumulator =
      some 0xFFFFFFFFFFFFFFFE := by decide
theorem test_mods : regAfter 0xD512 (at100 [(1, 0xFFFFFFF9), (2, 2)]) 1 = some 0xFFFFFFFF := by decide
theorem test_modu : regAfter 0xD712 (at100 [(1, 0xFFFFFFF9), (2, 2)]) 1 = some 1 := by decide
theorem test_muls :
    (after 0x4C12 (at100 [(1, 0xFFFFFFFF), (2, 2)])).map (fun t => (t.getReg 1, t.machi)) =
      some (0xFFFFFFFE, 0xFFFFFFFF) := by decide
theorem test_mulu :
    (after 0x4D12 (at100 [(1, 0xFFFFFFFF), (2, 2)])).map (fun t => (t.getReg 1, t.machi)) =
      some (0xFFFFFFFE, 1) := by decide
theorem test_divs : regAfter 0x4E12 (at100 [(1, 0xFFFFFFF9), (2, 2)]) 1 = some 0xFFFFFFFD := by decide
theorem test_divs_by_zero : (after 0x4E12 (at100 [(1, 7)])).map State.divf = some true := by decide
theorem test_divu : regAfter 0x4F12 (at100 [(1, 0xFFFFFFF9), (2, 2)]) 1 = some 0x7FFFFFFC := by decide

theorem test_notu : regAfter 0xE012 (at100 [(2, 0x12345678)]) 1 = some 0xEDCBA987 := by decide
theorem test_xor : regAfter 0xE212 (at100 [(1, 0xFF00FF00), (2, 0x0FF00FF0)]) 1 = some 0xF0F0F0F0 := by decide
theorem test_or : regAfter 0xE312 (at100 [(1, 0xFF00FF00), (2, 0x0FF00FF0)]) 1 = some 0xFFF0FFF0 := by decide
theorem test_and : regAfter 0xE412 (at100 [(1, 0xFF00FF00), (2, 0x0FF00FF0)]) 1 = some 0x0F000F00 := by decide
theorem test_swapb : regAfter 0xE512 (at100 [(2, 0x12345678)]) 1 = some 0x78563412 := by decide
theorem test_swaph : regAfter 0xE612 (at100 [(2, 0x12345678)]) 1 = some 0x56781234 := by decide
theorem test_shlai : regAfter 0xEB10 (at100 [(1, 0x80000001)]) 1 = some 0x00010000 := by decide
theorem test_shrai : regAfter 0xED10 (at100 [(1, 0x80000010)]) 1 = some 0xFFFF8000 := by decide
theorem test_shrli : regAfter 0xEF10 (at100 [(1, 0x80000010)]) 1 = some 0x00008000 := by decide
theorem test_shla : regAfter 0xDA12 (at100 [(1, 0x80000011), (2, 36)]) 1 = some 0x110 := by decide
theorem test_shra : regAfter 0xDC12 (at100 [(1, 0x80000011), (2, 31)]) 1 = some 0xFFFFFFFF := by decide
theorem test_shrl : regAfter 0xDE12 (at100 [(1, 0x80000011), (2, 0xFFFFFFFF)]) 1 = some 1 := by decide
theorem test_ror : regAfter 0xDB12 (at100 [(1, 0x12345678), (2, 8)]) 1 = some 0x78123456 := by decide
theorem test_rol : regAfter 0xDD12 (at100 [(1, 0x12345678), (2, 8)]) 1 = some 0x34567812 := by decide

theorem test_test : flagAfter 0xF512 (at100 [(1, 0x80000010), (2, 31)]) = some true := by decide
theorem test_testi : flagAfter 0xF710 (at100 [(1, 0x80010010)]) = some true := by decide
theorem test_clr : regAfter 0xFC12 (at100 [(1, 0xFFFFFFFF), (2, 31)]) 1 = some 0x7FFFFFFF := by decide
theorem test_clri : regAfter 0xF910 (at100 [(1, 0xFFFFFFFF)]) 1 = some 0xFFFEFFFF := by decide
theorem test_set : regAfter 0xFD11 (at100 [(1, 3)]) 1 = some 0xB := by decide
theorem test_seti : regAfter 0xFB1F (at100 []) 1 = some 0x80000000 := by decide

theorem test_lw : regAfter 0x0F12 (withData 0 (at100 [(2, 0x1008)])) 1 = some 0x55667788 := by decide
theorem test_lw_little :
    regAfter 0x0112 { withData 0 (at100 [(2, 0x1000)]) with
      params := { Config.resetParams with byteOrder := .little } } 1 = some 0x88776655 := by decide
theorem test_lhz : regAfter 0x0F82 (withData 0 (at100 [(2, 0x1008)])) 8 = some 0x7788 := by decide
theorem test_lbz : regAfter 0x0392 (withData 0 (at100 [(2, 0x1000)])) 9 = some 0x44 := by decide
theorem test_sw : bytesAfter 0x1112 (at100 [(1, 0x2000), (2, 0xAABBCCDD)]) 0x2003 6 =
    some [0, 0xAA, 0xBB, 0xCC, 0xDD, 0] := by decide
theorem test_sh : bytesAfter 0x1118 (at100 [(1, 0x2000), (8, 0xAABBCCDD)]) 0x2001 4 =
    some [0, 0xCC, 0xDD, 0] := by decide
theorem test_sb : bytesAfter 0x1F19 (at100 [(1, 0x2000), (9, 0xAABBCCDD)]) 0x1FFE 3 =
    some [0, 0xDD, 0] := by decide
theorem test_lwpain : (after 0x531F (withData 0x1004 (at100 []))).map (fun t => (t.getReg 1, t.pair)) =
    some (0x55667788, 0x1000) := by decide
theorem test_lhzpain : (after 0x5411 (withData 0x1002 (at100 []))).map (fun t => (t.getReg 1, t.pair)) =
    some (0x3344, 0x1004) := by decide
theorem test_lbzpain : (after 0x551F (withData 0x1003 (at100 []))).map (fun t => (t.getReg 1, t.pair)) =
    some (0x44, 0x1002) := by decide
theorem test_lhspain : refusalOf 0x5611 (at100 []) = some (.noSemantics "h.lhspain") := by decide
theorem test_lbspain : refusalOf 0x5711 (at100 []) = some (.noSemantics "h.lbspain") := by decide
theorem test_swpai_same_register :
    (after 0x6311 (at100 [(1, 0x2000)])).map (fun t => (t.mem.readBytes 0x2000 4, t.getReg 1)) =
      some ([0, 0, 0x20, 0], 0x2004) := by decide
theorem test_shpai : (after 0x6412 (at100 [(1, 0x2000), (2, 0xAABBCCDD)])).map
    (fun t => (t.mem.readBytes 0x2000 3, t.getReg 1)) = some ([0xCC, 0xDD, 0], 0x2002) := by decide
theorem test_sbpai_top_of_memory : (after 0x6512 (at100 [(1, 0xFFFFFFFF), (2, 0xAABBCCDD)])).map
    (fun t => (t.mem.byteAt 0xFFFFFFFF, t.getReg 1)) = some (0xDD, 0) := by decide
theorem test_swpain : (after 0x66F2 { at100 [(2, 0xAABBCCDD)] with pair := 0x2000 }).map
    (fun t => (t.mem.readBytes 0x2000 4, t.pair)) = some ([0xAA, 0xBB, 0xCC, 0xDD], 0x1FFC) := by decide
theorem test_swpain_misaligned : faultOf 0x6612 { at100 [] with pair := 0x2002 } = some .misaligned := by decide
theorem test_shpain : (after 0x6782 { at100 [(2, 0xAABBCCDD)] with pair := 0x2000 }).map
    (fun t => (t.mem.readBytes 0x2000 2, t.pair)) = some ([0xCC, 0xDD], 0x1FF0) := by decide
theorem test_sbpain : (after 0x6872 { at100 [(2, 0xAABBCCDD)] with pair := 0x2000 }).map
    (fun t => (t.mem.readBytes 0x2000 2, t.pair)) = some ([0xDD, 0], 0x2007) := by decide

theorem test_lbzpain_into_the_register_that_is_pair :
    regAfter 0x5501 { withData 0 (at100 [(0, 0x1003)]) with
      params := { Config.resetParams with pairAlias := .generalRegister 0 } } 0 = some 0x44 := by decide
theorem test_lw_outside_launch_memory :
    faultOf 0x0012 { at100 [(2, 0x2000)] with
      mem := { admitted := [{ base := 0x100, size := 2 }], cells := [], stored := [] } } =
      some .outsideMemory := by decide

theorem test_reserved_word : faultOf 0x4B14 (at100 []) = some .reservedEncoding := by decide
theorem test_odd_pc : faultOf 0x4B04 { at100 [] with pc := 0x101 } = some .oddPc := by decide
theorem test_pc_wraps : pcAfter 0x4B04 { at100 [] with pc := 0xFFFFFFFE } = some (0, none) := by decide

/-! ## Witnesses: for each statement with hypotheses, a state and operands that meet them, by clause -/

/-- A machine whose launch memory is only the bytes 0x1000 .. 0x100F. -/
def smallMemory : State :=
  { supAt100 [(1, 0x1010), (2, 0x1000)] with
    mem := { admitted := [{ base := 0x1000, size := 0x10 }], cells := [], stored := [] } }

theorem witness_DecodeOfEncodeIsTheInstruction :
    (Instr.lw 7 0xF 8).wellFormed Config.resetParams = true ∧
    (Instr.sw 0xF 8 10).wellFormed Config.resetParams = true ∧
    (Instr.mov 0 15).wellFormed { Config.resetParams with opcMov := some 0xE9 } = true := by decide

theorem witness_EncodeOfDecodeIsTheWord :
    decodeRow Config.resetParams.opcMov 0x0FAF = some (.lw 10 15 15) ∧
    decodeWord Config.resetParams 0x0FAF = .ok (.lw 10 15 15) := ⟨by decide, rfl⟩

/-- A machine without h.muls. -/
def noMuls : State :=
  { at100 [] with params := { Config.resetParams with absent := [.muls] } }

theorem witness_ReservedWordsAreExactlyTheListed :
    ((at100 []).withFetchWord 16 0x4B14).params.opcMov = none ∧
    ((at100 []).withFetchWord 16 0x4B14).fetch16 = .ok 0x4B14 ∧ isListedReserved 0x4B14 = true ∧
    ((at100 []).withFetchWord 16 0xE9FF).fetch16 = .ok 0xE9FF ∧ isListedReserved 0xE9FF = true ∧
    (noMuls.withFetchWord 16 0x4C12).fetch16 = .ok 0x4C12 ∧
    decodeRow noMuls.params.opcMov 0x4C12 = some (.muls 1 2) ∧ isImplemented noMuls.params (.muls 1 2) = false :=
  ⟨rfl, rfl, by decide, rfl, by decide, rfl, by decide, by decide⟩

theorem witness_AbsentInstructionsAreReservedAndClassZeroRefused :
    isImplemented noMuls.params (.muls 1 2) = false ∧
    (noMuls.withFetchWord 16 0x4C12).fetch16 = .ok 0x4C12 ∧
    decodeRow noMuls.params.opcMov 0x4C12 = some (.muls 1 2) ∧
    (noMuls.withFetchWord 16 0x5711).fetch16 = .ok 0x5711 ∧
    decodeRow noMuls.params.opcMov 0x5711 = some (.lbspain 1 1) ∧ classOf noMuls.params (.lbspain 1 1) = 0 :=
  ⟨by decide, rfl, by decide, rfl, by decide, by decide⟩

theorem witness_LargerMaskWinsOverlaps :
    (7 : RegId) ≠ 8 ∧ (7 : RegId) ≠ 9 ∧ (10 : RegId) ≠ 8 ∧ (10 : RegId) ≠ 9 := by decide

theorem witness_TopByteE0IsNotuAndMovNeedsAnOpcode :
    isReservedTopByte 0x4A = true ∧ isReservedTopByte 0xE9 = true := by decide

/-- The last instruction of memory, h.nop at 0xFFFFFFFE. -/
def atTop : State :=
  { at100 [] with pc := 0xFFFFFFFE }.withFetchWord 16 0x4B04

theorem witness_StepRunsTheDecodedInstruction :
    atTop.pc.toNat % 2 = 0 ∧ atTop.mem.isAdmitted atTop.pc.toNat = true ∧
    atTop.mem.isAdmitted (atTop.pc.toNat + 1) = true ∧ atTop.pc.toNat ∉ atTop.mem.stored ∧
    atTop.pc.toNat + 1 ∉ atTop.mem.stored ∧
    decodeBytes atTop.params [atTop.mem.byteAt atTop.pc.toNat, atTop.mem.byteAt (atTop.pc.toNat + 1)] =
      .ok (.nop, []) :=
  ⟨by decide, by decide, by decide, by decide, by decide, rfl⟩

theorem witness_PlacedWordIsRun :
    (at100 []).mem.wf ∧ (at100 []).pc.toNat % 2 = 0 ∧ decodeWord (at100 []).params 0x4B04 = .ok .nop :=
  ⟨by decide, by decide, rfl⟩

theorem witness_MemReadAssemblesTheBytes :
    smallMemory.mem.ready .word 0x100C ∧ ¬ smallMemory.mem.ready .word 0x100E ∧
    ¬ smallMemory.mem.ready .word 0x1010 ∧ smallMemory.mem.ready .byte 0x100F := by decide

theorem witness_MemWriteStoresTheBytes :
    smallMemory.mem.wf ∧ smallMemory.mem.ready .word 0x100C ∧ smallMemory.mem.ready .byte 0x1000 := by decide

theorem witness_MisalignedAccessesFault :
    ((at100 [(2, 0x1002)]).baseOffset .word 2 0).toNat % 4 ≠ 0 ∧
    ((at100 [(2, 0x1001)]).baseOffset .half 2 0).toNat % 2 ≠ 0 ∧
    ((at100 [(1, 0x1003)]).baseOffset .word 1 0xF).toNat % 4 ≠ 0 ∧
    ((at100 [(1, 0x1001)]).baseOffset .half 1 7).toNat % 2 ≠ 0 ∧
    (withData 0x1002 (at100 [])).readPair.toNat % 4 ≠ 0 ∧
    (withData 0x1001 (at100 [])).readPair.toNat % 2 ≠ 0 ∧
    ((at100 [(1, 0xFFFFFFFF)]).getReg 1).toNat % 4 ≠ 0 ∧
    ((at100 [(1, 0xFFFFFFFF)]).getReg 1).toNat % 2 ≠ 0 ∧
    (at100 []).params.painStoreWidth = .byMnemonic ∧
    ({ at100 [] with params := { Config.resetParams with painStoreWidth := .byPageBody } } :
      State).params.painStoreWidth = .byPageBody := by decide

theorem witness_AccessesOutsideLaunchMemoryAreStuck :
    smallMemory.mem.touchesOutside .word (smallMemory.baseOffset .word 1 0) ∧
    smallMemory.mem.touchesOutside .half (smallMemory.baseOffset .half 1 0) ∧
    smallMemory.mem.touchesOutside .byte (smallMemory.baseOffset .byte 1 0) ∧
    smallMemory.mem.touchesOutside .word (smallMemory.baseOffset .word 2 0xF) ∧
    smallMemory.mem.touchesOutside .half (smallMemory.baseOffset .half 2 0xF) ∧
    smallMemory.mem.touchesOutside .byte (smallMemory.baseOffset .byte 2 0xF) ∧
    smallMemory.mem.touchesOutside .word (smallMemory.getReg 1) ∧
    smallMemory.mem.touchesOutside .half (smallMemory.getReg 1) ∧
    smallMemory.mem.touchesOutside .byte (smallMemory.getReg 1) ∧
    smallMemory.mem.touchesOutside .word smallMemory.readPair ∧
    smallMemory.mem.touchesOutside .half smallMemory.readPair ∧
    smallMemory.mem.touchesOutside .byte smallMemory.readPair ∧
    smallMemory.params.painStoreWidth = .byMnemonic := by decide

/-- LR is r15 and PAIR is r0. -/
def aliased : State :=
  { withData 0 (at100 [(0, 0x1004)]) with
    params := { Config.resetParams with lrReg := some 15, pairAlias := .generalRegister 0 } }

/-- PAIR is the special register of index 0. -/
def pairIsSpecial : State :=
  { supAt100 [(1, 3), (2, 4), (3, 5)] with params := { Config.resetParams with pairAlias := .specialRegister 0 } }

theorem witness_AliasesOfLinkRegisterAndPair :
    (at100 []).params.lrReg = none ∧ (∀ k, (at100 []).params.pairAlias ≠ .generalRegister k) ∧
    (∀ k, pairIsSpecial.params.pairAlias ≠ .generalRegister k) ∧
    aliased.params.lrReg = some 15 ∧ aliased.params.pairAlias = .generalRegister 0 ∧
    aliased.mem.ready .word (aliased.getReg 0) ∧ aliased.mem.ready .half (aliased.getReg 0) ∧
    aliased.mem.ready .byte (aliased.getReg 0) ∧
    pairIsSpecial.mode = .supervisor ∧ pairIsSpecial.params.sprIndex = some { machi := 3, maclo := 4 } ∧
    pairIsSpecial.getReg 0 ≠ 3 ∧ pairIsSpecial.getReg 0 ≠ 4 ∧
    pairIsSpecial.params.pairAlias = .specialRegister (pairIsSpecial.getReg 0) := by decide

theorem witness_OtherInstructionsGoOnInSequence :
    isControlTransfer .nop = false ∧ atTop.delay = none ∧ ∃ t, exec .nop atTop = .next t :=
  ⟨by decide, rfl, _, rfl⟩

theorem witness_DelaySlotGoesOnAtTheTarget :
    ({ at100 [] with delay := some 0x400 } : State).delay = some 0x400 ∧
    ∃ t, exec (.movibse 1 7) { at100 [] with delay := some 0x400 } = .next t :=
  ⟨rfl, _, rfl⟩

theorem witness_ControlTransferInADelaySlotFaults :
    ({ supAt100 [] with delay := some 0 } : State).delay = some 0 ∧ isControlTransfer (.bf 0) = true ∧
    isControlTransfer (.brk 0xFF) = true ∧ (supAt100 []).mode = .supervisor := by decide

theorem witness_OddRegisterTargetsFault :
    (at100 [(5, 0xFFFFFFFF)]).delay = none ∧ ((at100 [(5, 0xFFFFFFFF)]).getReg 5).toNat % 2 = 1 ∧
    (at100 []).pc.toNat % 2 = 0 := by decide

theorem witness_OnlyListedInstructionsWrite :
    (∃ t, exec .nop (at100 []) = .next t) ∧ mayWriteReg Config.resetParams .nop 0 = false ∧
    writesFlag .nop = false ∧ writesCarryFlag .nop = false ∧ writesDivisorFlag .nop = false ∧
    writesLinkRegister .nop = false ∧ writesMachi .nop = false ∧ writesMaclo (.muls 1 2) = false ∧
    writesPairCell Config.resetParams (.mtsr 1 2) = false ∧ writesMode .nop = false ∧ setsDelay .nop = false ∧
    writesMemory .nop = false :=
  ⟨⟨_, rfl⟩, by decide⟩

theorem witness_NopChangesOnlyThePc :
    (at100 []).delay = none ∧ ({ at100 [] with delay := some 0x400 } : State).delay = some 0x400 := by decide

theorem witness_AddsAndSubtractsModuloWithCarryOut : (at100 []).params.carryPolicy = .conventional := by decide

theorem witness_AddAndSubtractUseTheCarry : (at100 []).params.carryPolicy = .conventional := by decide

theorem witness_CarryChainsToSixtyFourBits :
    (at100 []).params.carryPolicy = .conventional ∧ (1 : RegId) ≠ 2 ∧ (1 : RegId) ≠ 3 ∧
    (∃ t u, exec (.addu 1 4) (at100 [(1, 0xFFFFFFFF), (4, 1)]) = .next t ∧ exec (.addwcs 2 3) t = .next u) ∧
    ∃ t u, exec (.subu 1 4) (at100 [(4, 1)]) = .next t ∧ exec (.subwcs 2 3) t = .next u :=
  ⟨by decide, by decide, by decide, ⟨_, _, rfl, rfl⟩, _, _, rfl, rfl⟩

theorem witness_BranchesGoByTheFlag : (at100 []).delay = none := by decide

theorem witness_RelativeJumpsHaveOneDelaySlot : (at100 []).delay = none := by decide

theorem witness_RegisterJumpsHaveOneDelaySlot :
    (at100 [(5, 0xFFFFFFFE)]).delay = none ∧ ((at100 [(5, 0xFFFFFFFE)]).getReg 5).toNat % 2 = 0 ∧
    (at100 [(5, 0xFFFFFFFF)]).delay = none ∧ ((at100 [(5, 0xFFFFFFFF)]).getReg 5).toNat % 2 = 1 := by decide

theorem witness_TrapsEnterSupervisorAtTheirVector :
    (at100 []).delay = none ∧ (at100 []).mode = .user ∧
    ({ at100 [] with delay := some 0x400 } : State).delay ≠ none := by decide

theorem witness_MovesWriteTheDestination : isReservedTopByte 0x4A = true ∧ isReservedTopByte 0xE9 = true := by decide

theorem witness_ReturnFromExceptionSetsUserModeOnly :
    (supAt100 []).mode = .supervisor ∧ (at100 []).mode = .user := by decide

theorem witness_ReturnIdiomArrivesInUserMode :
    (supAt100 [(1, 0xFFFFFFFE)]).mode = .supervisor ∧ (supAt100 [(1, 0xFFFFFFFE)]).delay = none ∧
    ((supAt100 [(1, 0xFFFFFFFE)]).getReg 1).toNat % 2 = 0 := by decide

theorem witness_SpecialRegisterMoves :
    pairIsSpecial.mode = .supervisor ∧ pairIsSpecial.params.sprIndex = some { machi := 3, maclo := 4 } ∧
    pairIsSpecial.getReg 1 = 3 ∧ pairIsSpecial.getReg 2 = 4 ∧ (4 : Word) ≠ 3 ∧
    (pairIsSpecial.getReg 3 ≠ 3 ∧ pairIsSpecial.getReg 3 ≠ 4 ∧
      pairIsSpecial.params.pairAlias ≠ .specialRegister (pairIsSpecial.getReg 3)) ∧
    ({ supAt100 [] with params := { Config.resetParams with sprIndex := none } } : State).params.sprIndex = none ∧
    (at100 []).mode = .user := by decide

theorem witness_ModeChangesOnlyByTrapsAndReturn :
    (∃ t, step ((at100 []).withFetchWord 16 0xD800) = .next t ∧ t.mode = .supervisor) ∧
    (∃ t, step ((at100 []).withFetchWord 16 0xD001) = .next t ∧ t.mode = .supervisor) ∧
    (at100 []).mode = .user ∧
    (∃ t, step ((supAt100 []).withFetchWord 16 0xD900) = .next t ∧ t.mode = .user) ∧
    (supAt100 []).mode = .supervisor :=
  ⟨⟨_, rfl, rfl⟩, ⟨_, rfl, rfl⟩, rfl, ⟨_, rfl, rfl⟩, rfl⟩

theorem witness_ModeDoesNotMatterToUnprivilegedInstructions :
    isSystem (.lw 1 0 2) = false ∧ isSystem (.mas 1 2) = false := by decide

theorem witness_UserModeCannotReadTheAccumulator :
    (at100 []).mode = .user ∧ agreeOffAccumulator (at100 []) { at100 [] with machi := 1, maclo := 2 } :=
  ⟨rfl, rfl⟩

theorem witness_UnsignedDivideAndModulus :
    (at100 []).getReg 2 = 0 ∧ (at100 [(2, 0xFFFFFFFF)]).getReg 2 ≠ 0 := by decide

/-- -2^31 and -1. -/
def overflowing : State :=
  at100 [(1, 0x80000000), (2, 0xFFFFFFFF)]

/-- A machine whose signed rounding is not the default. -/
def givenRounding : State :=
  { at100 [(1, 7), (2, 0xFFFFFFFE)] with params := { Config.resetParams with divs := .given, mods := .given } }

theorem witness_SignedDivideAndModulus :
    (at100 []).getReg 2 = 0 ∧ overflowing.getReg 2 ≠ 0 ∧ (overflowing.getReg 1).toInt = -2 ^ 31 ∧ (overflowing.getReg 2).toInt = -1 ∧
    overflowing.params.mods = .truncate ∧
    ¬ (((at100 [(1, 0x80000001), (2, 0xFFFFFFFF)]).getReg 1).toInt = -2 ^ 31 ∧
      ((at100 [(1, 0x80000001), (2, 0xFFFFFFFF)]).getReg 2).toInt = -1) ∧
    (at100 []).params.divs = .truncate ∧ givenRounding.getReg 2 ≠ 0 ∧
    ¬ ((givenRounding.getReg 1).toInt = -2 ^ 31 ∧ (givenRounding.getReg 2).toInt = -1) ∧
    givenRounding.params.divs = .given ∧ givenRounding.params.mods = .given := by decide

theorem witness_DivisorFlagIsSetByAZeroDivisorAndReadByNothing :
    (at100 [(1, 7)]).getReg 2 = 0 ∧ overflowing.getReg 2 ≠ 0 ∧
    ((Instr.divs 1 2) = .divs 1 2 ∨ (Instr.divs 1 2) = .divu 1 2 ∨ (Instr.divs 1 2) = .mods 1 2 ∨
      (Instr.divs 1 2) = .modu 1 2) ∧
    ({ at100 [] with divf := true } : State) =
      { at100 [] with divf := ({ at100 [] with divf := true } : State).divf } := by decide

theorem witness_RotatesMoveBitsRound : (0 < 32) ∧ (31 < 32) := by decide

theorem witness_BitInstructionsActOnOneBit :
    ((at100 [(2, 31)]).getReg 2).toNat ≤ 31 ∧ ((at100 []).getReg 2).toNat ≤ 31 := by decide

theorem witness_BitIndexAboveThirtyOneLeavesAnyValue :
    32 ≤ ((at100 [(2, 32)]).getReg 2).toNat ∧ 32 ≤ ((at100 [(2, 0xFFFFFFFF)]).getReg 2).toNat := by decide

theorem witness_LoadsReadAtBasePlusOffset :
    smallMemory.mem.ready .word (smallMemory.baseOffset .word 1 0xF) ∧
    smallMemory.mem.ready .half (smallMemory.baseOffset .half 1 0xF) ∧
    smallMemory.mem.ready .byte (smallMemory.baseOffset .byte 1 0xF) ∧
    (0 : RegId) ≠ 8 ∧ (0 : RegId) ≠ 9 := by decide

theorem witness_LoadsThroughPairIncrementIt :
    ({ smallMemory with pair := 0x100C } : State).mem.ready .word
      ({ smallMemory with pair := 0x100C } : State).readPair ∧
    ({ smallMemory with pair := 0x100E } : State).mem.ready .half
      ({ smallMemory with pair := 0x100E } : State).readPair ∧
    ({ smallMemory with pair := 0x100F } : State).mem.ready .byte
      ({ smallMemory with pair := 0x100F } : State).readPair := by decide

theorem witness_StoresWriteAtBasePlusOffset :
    smallMemory.mem.wf ∧ smallMemory.mem.ready .word (smallMemory.baseOffset .word 2 3) ∧
    smallMemory.mem.ready .half (smallMemory.baseOffset .half 2 7) ∧
    smallMemory.mem.ready .byte (smallMemory.baseOffset .byte 2 7) ∧
    (15 : RegId) ≠ 8 ∧ (15 : RegId) ≠ 9 := by decide

theorem witness_PostIncrementStoresMoveTheAddressRegister :
    smallMemory.mem.wf ∧ smallMemory.mem.ready .word (smallMemory.getReg 2) ∧
    smallMemory.mem.ready .half (smallMemory.getReg 2) ∧ smallMemory.mem.ready .byte (smallMemory.getReg 2) := by
  decide

theorem witness_StoresThroughPairIncrementIt :
    (at100 []).mem.wf ∧ (at100 []).mem.ready .half (at100 []).readPair ∧
    (at100 []).mem.ready .word (at100 []).readPair ∧ (at100 []).mem.ready .byte (at100 []).readPair ∧
    (at100 []).params.painStoreWidth = .byMnemonic := by decide

theorem witness_StepKeepsTheMachineInvariant :
    atTop.Inv ∧ ∃ t, step atTop = .next t :=
  ⟨by decide, _, rfl⟩

theorem witness_StepKeepsParametersAndLaunchMemory :
    (∃ t, step ((at100 [(1, 0x2000)]).withFetchWord 16 0x6512) = .next t) ∧
    (0x3000 ∈ ((at100 []).mem.setByte 0x3000 1).stored ∧
      ∃ t, step ({ at100 [] with mem := (at100 []).mem.setByte 0x3000 1 }.withFetchWord 16 0x4B04) = .next t) :=
  ⟨⟨_, rfl⟩, by decide, _, rfl⟩

end Sys2Proof.Tests
end

/-! ## What a step does with the word it fetches, and classes of instructions (00_scope.md R8, R13) -/

namespace Sys2Proof

/-- The word of an instruction that is not implemented (R8). -/
theorem decodeWord_of_not_implemented {p : Config.Params} {w : HalfWord} {i : Instr}
    (hrow : decodeRow p.opcMov w = some i) (habsent : isImplemented p i = false) :
    decodeWord p w = .error .notImplemented := by
  simp [decodeWord, hrow, habsent]

/-- Two bytes decode as the half word they make up does, with no byte left (R90, R67). -/
theorem decodeBytes_two_eq_ok {p : Config.Params} {b0 b1 : Byte} {i : Instr} {rest : List Byte} :
    decodeBytes p [b0, b1] = .ok (i, rest) ↔
      decodeWord p (halfWordOfBytes p.byteOrder b0 b1) = .ok i ∧ rest = [] := by
  simp only [decodeBytes]
  cases decodeWord p (halfWordOfBytes p.byteOrder b0 b1) with
  | error e => simp
  | ok j => simp only [Except.ok.injEq, Prod.mk.injEq, eq_comm]

end Sys2Proof

namespace Sys2Proof.Machine

/-! ### One step, by the answers of the fetch and of the decoder -/

theorem step_of_decodeWord_ok {s : State} {w : HalfWord} {i : Instr}
    (hfetch : s.fetch16 = .ok w) (hdecode : decodeWord s.params w = .ok i) : step s = exec i s := by
  simp [step, hfetch, hdecode]

theorem step_of_decodeWord_error {s : State} {w : HalfWord} {e : DecodeError}
    (hfetch : s.fetch16 = .ok w) (hdecode : decodeWord s.params w = .error e) :
    step s = .fault .reservedEncoding := by
  simp [step, hfetch, hdecode]

/-- Executing the word of an instruction that is not implemented (R8, and 30_encoding.md R108). -/
theorem step_of_not_implemented {s : State} {w : HalfWord} {i : Instr} (hfetch : s.fetch16 = .ok w)
    (hrow : decodeRow s.params.opcMov w = some i) (habsent : isImplemented s.params i = false) :
    step s = .fault .reservedEncoding :=
  step_of_decodeWord_error hfetch (decodeWord_of_not_implemented hrow habsent)

/-- Executing the word of an implemented instruction. -/
theorem step_of_implemented {s : State} {w : HalfWord} {i : Instr} (hfetch : s.fetch16 = .ok w)
    (hrow : decodeRow s.params.opcMov w = some i) (himpl : isImplemented s.params i = true) :
    step s = exec i s :=
  step_of_decodeWord_ok hfetch (decodeWord_eq_ok.mpr ⟨hrow, himpl⟩)

/-- The two bytes of an instruction are admitted when each of them is. -/
theorem Memory.admits_two {m : Memory} {a : Nat} :
    m.admits a 2 = true ↔ m.isAdmitted a = true ∧ m.isAdmitted (a + 1) = true := by
  rw [Memory.admits_iff]
  constructor
  · exact fun h => ⟨h 0 (by decide), h 1 (by decide)⟩
  · rintro ⟨h0, h1⟩ i hi
    obtain rfl | rfl : i = 0 ∨ i = 1 := by omega
    · exact h0
    · exact h1

/-! ### Classes (R2, R8) -/

/-- An instruction can be listed absent exactly where its class is 2 or 3. -/
theorem optionalOf_eq_none_iff {p : Config.Params} {i : Instr} :
    optionalOf p i = none ↔ classOf p i ≠ 2 ∧ classOf p i ≠ 3 := by
  cases i with
  | swpain n b => cases h : p.painStoreWidth <;> simp [optionalOf, classOf, h]
  | sbpain n b => cases h : p.painStoreWidth <;> simp [optionalOf, classOf, h]
  | _ => simp [optionalOf, classOf]

theorem isImplemented_of_optionalOf_none {p : Config.Params} {i : Instr} (h : optionalOf p i = none) :
    isImplemented p i = true := by
  simp [isImplemented, h]

theorem isImplemented_of_class_zero {p : Config.Params} {i : Instr} (h : classOf p i = 0) :
    isImplemented p i = true :=
  isImplemented_of_optionalOf_none (optionalOf_eq_none_iff.mpr (by simp [h]))

/-- Only a class 2 or 3 instruction can be absent. -/
theorem class_of_not_implemented {p : Config.Params} {i : Instr} (h : isImplemented p i = false) :
    classOf p i = 2 ∨ classOf p i = 3 := by
  by_contra hclass
  rw [not_or] at hclass
  have himpl := isImplemented_of_optionalOf_none (optionalOf_eq_none_iff.mpr hclass)
  simp [h] at himpl

/-- The four instructions of class 0 are those with a mnemonic to be refused by. -/
theorem classOf_eq_zero_iff {p : Config.Params} {i : Instr} :
    classOf p i = 0 ↔ ∃ m, classZeroMnemonic i = some m := by
  cases i with
  | swpain n b => cases h : p.painStoreWidth <;> simp [classOf, classZeroMnemonic, h]
  | sbpain n b => cases h : p.painStoreWidth <;> simp [classOf, classZeroMnemonic, h]
  | _ => simp [classOf, classZeroMnemonic]

/-- The meaning of a class 0 instruction is its refusal (44_move.md R201, R202; 49_load_store.md R299, R300). -/
theorem exec_of_classZeroMnemonic {i : Instr} {m : String} (h : classZeroMnemonic i = some m) (s : State) :
    exec i s = .refused (.noSemantics m) := by
  cases i with
  | movhibsl a k => cases h; rfl
  | movhibse a k => cases h; rfl
  | lhspain a n => cases h; rfl
  | lbspain a n => cases h; rfl
  | _ => cases h

/-! ### The statements of 00_scope.md -/

/-- Settles O4: what is absent is of class 2 or 3 and faults in the decoder; what is of class 0 is never absent, so
its word decodes, and its meaning is the refusal. -/
theorem absentInstructionsAreReservedAndClassZeroRefused :
    Obligations.AbsentInstructionsAreReservedAndClassZeroRefused := by
  refine ⟨fun _ _ => class_of_not_implemented, fun _ _ _ => step_of_not_implemented, ?_⟩
  intro s w i hfetch hrow hclass
  obtain ⟨m, hm⟩ := classOf_eq_zero_iff.mp hclass
  have hstep := step_of_implemented hfetch hrow (isImplemented_of_class_zero hclass)
  exact ⟨m, hm, hstep.trans (exec_of_classZeroMnemonic hm s)⟩

/-- Settles O8: the conditions on the pc and its two bytes are those under which the fetch answers a half word, and
that half word is the one the two bytes decode as. -/
theorem stepRunsTheDecodedInstruction : Obligations.StepRunsTheDecodedInstruction := by
  intro s i heven hadm0 hadm1 hstored0 hstored1 hbytes
  have hfetch : s.fetch16 =
      .ok (halfWordOfBytes s.params.byteOrder (s.mem.byteAt s.pc.toNat) (s.mem.byteAt (s.pc.toNat + 1))) :=
    State.fetch16_eq_ok.mpr ⟨heven, Memory.admits_two.mpr ⟨hadm0, hadm1⟩, hstored0, hstored1, rfl⟩
  obtain ⟨hdecode, -⟩ := decodeBytes_two_eq_ok.mp hbytes
  exact step_of_decodeWord_ok hfetch hdecode

end Sys2Proof.Machine

/-! ## What an instruction can do, said once (10_state.md R23, R36) -/

namespace Sys2Proof.Machine

/-! ### Fields and registers after the shared operations -/

theorem State.setRegOrAny_getReg_ne (s : State) {a r : RegId} (v : Option Word) (h : r ≠ a) :
    (s.setRegOrAny a v).getReg r = s.getReg r := by
  cases v with
  | none => exact State.getReg_setReg_ne _ _ h
  | some v => exact State.getReg_setReg_ne _ _ h

theorem State.link_getReg_of_ne {s : State} {r : RegId} (h : s.params.lrReg ≠ some r) :
    s.link.getReg r = s.getReg r := by
  rw [State.link, State.writeLink_getReg, if_neg h]

/-- PAIR is reached by index only where `PAIR_ALIAS` is that index (R30, 45_system.md R213). -/
theorem pairAlias_of_specialRegOf {p : Config.Params} {x : Word} (h : specialRegOf p x = some .pair) :
    p.pairAlias = .specialRegister x := by
  unfold specialRegOf at h
  cases hidx : p.sprIndex with
  | none => simp [hidx] at h
  | some idx =>
    simp only [hidx] at h
    split_ifs at h
    · cases h
    · cases h
    · cases hpair : p.pairAlias with
      | specialRegister j => simpa [hpair, eq_comm] using h
      | noAlias | generalRegister k => simp [hpair] at h

/-- PAIR as a special register is its own cell (R30). -/
theorem State.writePair_of_specialRegister {s : State} {x : Word} (v : Word)
    (h : s.params.pairAlias = .specialRegister x) : s.writePair v = { s with pair := v } := by
  simp [State.writePair, h]

/-- A write of a special register writes no general register. -/
theorem State.writeSpecial_getReg {s : State} {x : Word} {k : SpecialReg} (v : Word) (r : RegId)
    (h : specialRegOf s.params x = some k) : (s.writeSpecial k v).getReg r = s.getReg r := by
  cases k with
  | machi => rfl
  | maclo => rfl
  | pair => rw [State.writeSpecial, State.writePair_of_specialRegister v (pairAlias_of_specialRegOf h)]; rfl

/-! ### The side-effect table (R36) -/

theorem mayWriteReg_eq_false_iff {p : Config.Params} {i : Instr} {r : RegId} :
    mayWriteReg p i r = false ↔
      destination i ≠ some r ∧ (writesLinkRegister i = true → p.lrReg ≠ some r) ∧
        (incrementsPair i = true → p.pairAlias ≠ .generalRegister r) := by
  simp [mayWriteReg, and_assoc]

theorem incrementsPair_of_writesPairCell_eq_false {p : Config.Params} {i : Instr}
    (h : writesPairCell p i = false) : incrementsPair i = false := by
  cases i with
  | mtsr a b => rfl
  | _ => exact h

/-! ### Inversion -/

/-- `u` is `s` with the results of `i` written and the pc not yet advanced: the forms a meaning can take that goes
on in sequence (R23), each with what the side-effect table of R36 says of an instruction of that form. -/
inductive Writes (i : Instr) (s : State) : State → Prop where
  | nothing : Writes i s s
  | flag (b : Option Bool) (hflag : writesFlag i = true) : Writes i s (s.setFlagOrAny b)
  | register (a : RegId) (v : Option Word) (hdest : destination i = some a) : Writes i s (s.setRegOrAny a v)
  | sum (a : RegId) (v : Word) (c : Bool) (hdest : destination i = some a) (hcarry : writesCarryFlag i = true) :
      Writes i s ((s.setReg a v).writeCarry c)
  | product (a : RegId) (hi lo : Word) (hdest : destination i = some a) (hmachi : writesMachi i = true) :
      Writes i s ({ s with machi := hi }.setReg a lo)
  | quotientByZero (a : RegId) (hdest : destination i = some a) (hdivf : writesDivisorFlag i = true) :
      Writes i s { s.setRegOrAny a none with divf := true }
  | quotient (a : RegId) (v : Option Word) (hdest : destination i = some a) (hdivf : writesDivisorFlag i = true) :
      Writes i s (s.setRegOrAny a v).settleDivisorFlag
  | accumulator (acc : BitVec 64) (hmachi : writesMachi i = true) (hmaclo : writesMaclo i = true) :
      Writes i s (s.setAccumulator acc)
  | loadThroughPair (a : RegId) (p v : Word) (hdest : destination i = some a) (hpair : incrementsPair i = true) :
      Writes i s ((s.writePair p).setReg a v)
  | store (m : Memory) (w : Width) (ea v : Word) (hwrite : s.memWrite w ea v = .ok { s with mem := m })
      (hmem : writesMemory i = true) : Writes i s { s with mem := m }
  | storePostIncrement (m : Memory) (w : Width) (ea v : Word) (a : RegId) (x : Word)
      (hwrite : s.memWrite w ea v = .ok { s with mem := m })
      (hmem : writesMemory i = true) (hdest : destination i = some a) : Writes i s ({ s with mem := m }.setReg a x)
  | storeThroughPair (m : Memory) (w : Width) (ea v p : Word) (hwrite : s.memWrite w ea v = .ok { s with mem := m })
      (hmem : writesMemory i = true) (hpair : incrementsPair i = true) : Writes i s ({ s with mem := m }.writePair p)
  | special (a b : RegId) (k : SpecialReg) (hinstr : i = .mtsr a b)
      (hspecial : specialRegOf s.params (s.getReg a) = some k) : Writes i s (s.writeSpecial k (s.getReg b))
  | userMode (hmode : writesMode i = true) : Writes i s { s with mode := .user }

/-- `t` follows a control transfer of `i` from `s` (43_branch_jump.md R180 to R188, 60_exceptions.md R323). A jump goes
to a PC-relative target or to an even value of a register. -/
inductive Transfers (i : Instr) (s : State) : State → Prop where
  | branch (x : BitVec 12) : Transfers i s { s with pc := s.relativeTarget x }
  | jump (a : Word) (ha : (∃ x, a = s.relativeTarget x) ∨ a.getLsbD 0 = false) (hjump : setsDelay i = true) :
      Transfers i s { s with delay := some a, pc := s.pc + 2 }
  | linkedJump (a : Word) (ha : (∃ x, a = s.relativeTarget x) ∨ a.getLsbD 0 = false) (hjump : setsDelay i = true)
      (hlink : writesLinkRegister i = true) : Transfers i s { s.link with delay := some a, pc := s.pc + 2 }
  | trap (e : Exc) (hmode : writesMode i = true) :
      Transfers i s { s with mode := .supervisor, pc := e.vector, delay := none }

/-- A write leaves everything but memory. -/
theorem State.eq_withMem_of_memWrite {s u : State} {w : Width} {ea v : Word} (h : s.memWrite w ea v = .ok u) :
    ∃ m, u = { s with mem := m } := by
  obtain ⟨-, -, rfl⟩ := State.memWrite_eq_ok.mp h
  exact ⟨_, rfl⟩

/-- All that an instruction can answer as a next state: its results written and then the pc advanced (R23), or,
outside a delay slot (43_branch_jump.md R187), a transfer of control. -/
theorem exec_eq_next {i : Instr} {s t : State} (h : exec i s = .next t) :
    (∃ u, Writes i s u ∧ t = u.advance) ∨
      (isControlTransfer i = true ∧ s.delay = none ∧ Transfers i s t) := by
  cases i with
  | sfeq a b | sfne a b | sfgts a b | sfges a b | sflts a b | sfles a b | sfgtu a b | sfgeu a b | sfltu a b
  | sfleu a b =>
    obtain rfl := State.compare_eq_next.mp h
    exact .inl ⟨_, .flag (some _) rfl, rfl⟩
  | test a b =>
    cases h
    exact .inl ⟨_, .flag _ rfl, rfl⟩
  | testi a m =>
    cases h
    exact .inl ⟨_, .flag (some _) rfl, rfl⟩
  | nop =>
    cases h
    exact .inl ⟨_, .nothing, rfl⟩
  | exths a | exthz a | extbs a | extbz a | negs a b | movibse a m | mov a b | notu a b | xor a b | or a b | and a b
  | swapb a b | swaph a b | shlai a l | shrai a l | shrli a l | shla a b | shra a b | shrl a b | ror a b | rol a b
  | clri a m | seti a m =>
    obtain rfl := State.writeResult_eq_next.mp h
    exact .inl ⟨_, .register a (some _) rfl, rfl⟩
  | clr a b | set a b =>
    cases h
    exact .inl ⟨_, .register a _ rfl, rfl⟩
  | adds a b d | subs a b | addu a b | subu a b | addwcs a b | subwcs a b =>
    obtain rfl := State.writeSum_eq_next.mp h
    exact .inl ⟨_, .sum a _ _ rfl rfl, rfl⟩
  | muls a b | mulu a b =>
    obtain rfl := State.writeProduct_eq_next.mp h
    exact .inl ⟨_, .product a _ _ rfl rfl, rfl⟩
  | divs a b | divu a b | mods a b | modu a b =>
    obtain ⟨-, rfl⟩ | ⟨-, rfl⟩ := State.writeQuotient_eq_next.mp h
    · exact .inl ⟨_, .quotientByZero a rfl rfl, rfl⟩
    · exact .inl ⟨_, .quotient a _ rfl rfl, rfl⟩
  | mas a b | mss a b =>
    cases h
    exact .inl ⟨_, .accumulator _ rfl rfl, rfl⟩
  | lw a n b =>
    obtain ⟨v, -, rfl⟩ := State.load_eq_next.mp h
    exact .inl ⟨_, .register a (some v) rfl, rfl⟩
  | lhz n b =>
    obtain ⟨v, -, rfl⟩ := State.load_eq_next.mp h
    exact .inl ⟨_, .register halfRegister (some v) rfl, rfl⟩
  | lbz n b =>
    obtain ⟨v, -, rfl⟩ := State.load_eq_next.mp h
    exact .inl ⟨_, .register byteRegister (some v) rfl, rfl⟩
  | lwpain a n | lhzpain a n | lbzpain a n =>
    obtain ⟨v, -, rfl⟩ := State.loadThroughPair_eq_next.mp h
    exact .inl ⟨_, .loadThroughPair a _ v rfl rfl, rfl⟩
  | sw n a b | sh n a | sb n a =>
    obtain ⟨u, hwrite, rfl⟩ := State.store_eq_next.mp h
    obtain ⟨m, rfl⟩ := State.eq_withMem_of_memWrite hwrite
    exact .inl ⟨_, .store m _ _ _ hwrite rfl, rfl⟩
  | swpai a b | shpai a b | sbpai a b =>
    obtain ⟨u, hwrite, rfl⟩ := State.storePostIncrement_eq_next.mp h
    obtain ⟨m, rfl⟩ := State.eq_withMem_of_memWrite hwrite
    exact .inl ⟨_, .storePostIncrement m _ _ _ a _ hwrite rfl rfl, rfl⟩
  | swpain n b | shpain n b | sbpain n b =>
    obtain ⟨u, hwrite, rfl⟩ := State.storeThroughPair_eq_next.mp h
    obtain ⟨m, rfl⟩ := State.eq_withMem_of_memWrite hwrite
    exact .inl ⟨_, .storeThroughPair m _ _ _ _ hwrite rfl rfl, rfl⟩
  | bnf x | bf x =>
    obtain ⟨hdelay, rfl⟩ := State.branch_eq_next.mp h
    split
    · exact .inr ⟨rfl, hdelay, .branch x⟩
    · exact .inl ⟨_, .nothing, rfl⟩
  | jmp x =>
    obtain ⟨hdelay, rfl⟩ := State.delayedJump_eq_next.mp h
    exact .inr ⟨rfl, hdelay, .jump _ (.inl ⟨x, rfl⟩) rfl⟩
  | jr a =>
    obtain ⟨hdelay, heven, rfl⟩ := State.delayedJumpToRegister_eq_next.mp h
    exact .inr ⟨rfl, hdelay, .jump _ (.inr heven) rfl⟩
  | jal x =>
    obtain ⟨hdelay, rfl⟩ := State.delayedJump_eq_next.mp h
    rw [State.link_delay] at hdelay
    rw [State.link_pc]
    exact .inr ⟨rfl, hdelay, .linkedJump _ (.inl ⟨x, rfl⟩) rfl rfl⟩
  | jalr a =>
    obtain ⟨hdelay, heven, rfl⟩ := State.delayedJumpToRegister_eq_next.mp h
    rw [State.link_delay] at hdelay
    rw [State.link_pc]
    exact .inr ⟨rfl, hdelay, .linkedJump _ (.inr heven) rfl rfl⟩
  | brk m | sys m =>
    obtain ⟨hdelay, rfl⟩ := State.takeException_eq_next.mp h
    exact .inr ⟨rfl, hdelay, .trap _ rfl⟩
  | rfe =>
    obtain ⟨-, h⟩ := State.privileged_eq_next.mp h
    cases h
    exact .inl ⟨_, .userMode rfl, rfl⟩
  | mtsr a b =>
    obtain ⟨-, h⟩ := State.privileged_eq_next.mp h
    cases hspecial : specialRegOf s.params (s.getReg a) with
    | none => simp [hspecial] at h
    | some k =>
      simp only [hspecial, Host.Outcome.next.injEq] at h
      exact .inl ⟨_, .special a b k rfl hspecial, h.symm⟩
  | mfsr a b =>
    obtain ⟨-, h⟩ := State.privileged_eq_next.mp h
    cases hspecial : specialRegOf s.params (s.getReg b) with
    | none => simp [hspecial] at h
    | some k =>
      simp only [hspecial, State.writeResult_eq_next] at h
      exact .inl ⟨_, .register a (some _) rfl, h⟩
  | movhibsl a m | movhibse a m | lhspain a n | lbspain a n => cases h

/-! ### What the written results leave unchanged -/

theorem State.getReg_withMem (s : State) (m : Memory) (r : RegId) : { s with mem := m }.getReg r = s.getReg r := rfl

theorem Writes.pc {i : Instr} {s u : State} (h : Writes i s u) : u.pc = s.pc := by
  cases h <;> simp

theorem Writes.delay {i : Instr} {s u : State} (h : Writes i s u) : u.delay = s.delay := by
  cases h <;> simp

theorem Writes.params {i : Instr} {s u : State} (h : Writes i s u) : u.params = s.params := by
  cases h <;> simp

theorem Writes.f {i : Instr} {s u : State} (h : Writes i s u) (hi : writesFlag i = false) : u.f = s.f := by
  cases h with
  | flag b hflag => simp [hi] at hflag
  | _ => simp

theorem Writes.cy {i : Instr} {s u : State} (h : Writes i s u) (hi : writesCarryFlag i = false) : u.cy = s.cy := by
  cases h with
  | sum a v c hdest hcarry => simp [hi] at hcarry
  | _ => simp

theorem Writes.divf {i : Instr} {s u : State} (h : Writes i s u) (hi : writesDivisorFlag i = false) :
    u.divf = s.divf := by
  cases h with
  | quotientByZero a hdest hdivf => simp [hi] at hdivf
  | quotient a v hdest hdivf => simp [hi] at hdivf
  | _ => simp

theorem Writes.lr {i : Instr} {s u : State} (h : Writes i s u) : u.lr = s.lr := by
  cases h <;> simp

theorem Writes.machi {i : Instr} {s u : State} (h : Writes i s u) (hi : writesMachi i = false) :
    u.machi = s.machi := by
  cases h with
  | product a hi' lo hdest hmachi => simp [hi] at hmachi
  | accumulator acc hmachi hmaclo => simp [hi] at hmachi
  | special a b k hinstr hspecial => simp [hinstr, writesMachi] at hi
  | _ => simp

theorem Writes.maclo {i : Instr} {s u : State} (h : Writes i s u) (hi : writesMaclo i = false) :
    u.maclo = s.maclo := by
  cases h with
  | accumulator acc hmachi hmaclo => simp [hi] at hmaclo
  | special a b k hinstr hspecial => simp [hinstr, writesMaclo] at hi
  | _ => simp

theorem Writes.pair {i : Instr} {s u : State} (h : Writes i s u) (hi : writesPairCell s.params i = false) :
    u.pair = s.pair := by
  have hinc := incrementsPair_of_writesPairCell_eq_false hi
  cases h with
  | loadThroughPair a p v hdest hpair => simp [hinc] at hpair
  | storeThroughPair m w ea v p hwrite hmem hpair => simp [hinc] at hpair
  | special a b k hinstr hspecial =>
    cases k with
    | machi => rfl
    | maclo => rfl
    | pair => simp [hinstr, writesPairCell, pairAlias_of_specialRegOf hspecial] at hi
  | _ => simp

theorem Writes.mode {i : Instr} {s u : State} (h : Writes i s u) (hi : writesMode i = false) : u.mode = s.mode := by
  cases h with
  | userMode hmode => simp [hi] at hmode
  | _ => simp

/-- Memory after the results are written: as before, or as a write leaves it. -/
theorem Writes.mem_cases {i : Instr} {s u : State} (h : Writes i s u) :
    u.mem = s.mem ∨ (writesMemory i = true ∧ ∃ w ea v s', s.memWrite w ea v = .ok s' ∧ u.mem = s'.mem) := by
  cases h with
  | store m w ea v hwrite hmem => exact .inr ⟨hmem, w, ea, v, _, hwrite, rfl⟩
  | storePostIncrement m w ea v a x hwrite hmem hdest => exact .inr ⟨hmem, w, ea, v, _, hwrite, rfl⟩
  | storeThroughPair m w ea v p hwrite hmem hpair =>
    exact .inr ⟨hmem, w, ea, v, _, hwrite, State.writePair_mem _ p⟩
  | _ => simp

theorem Writes.mem {i : Instr} {s u : State} (h : Writes i s u) (hi : writesMemory i = false) : u.mem = s.mem := by
  obtain hsame | ⟨hmem, -⟩ := h.mem_cases
  · exact hsame
  · simp [hi] at hmem

theorem Writes.getReg {i : Instr} {s u : State} (h : Writes i s u) {r : RegId}
    (hr : mayWriteReg s.params i r = false) : u.getReg r = s.getReg r := by
  obtain ⟨hne, -, hpairReg⟩ := mayWriteReg_eq_false_iff.mp hr
  have hdest_ne : ∀ {a}, destination i = some a → r ≠ a := by
    rintro a hdest rfl
    exact hne hdest
  cases h with
  | register a v hdest => exact State.setRegOrAny_getReg_ne s v (hdest_ne hdest)
  | sum a v c hdest hcarry => rw [State.writeCarry_getReg, State.getReg_setReg_ne s v (hdest_ne hdest)]
  | product a hi lo hdest hmachi => exact State.getReg_setReg_ne _ lo (hdest_ne hdest)
  | quotientByZero a hdest hdivf => exact State.setRegOrAny_getReg_ne s none (hdest_ne hdest)
  | quotient a v hdest hdivf =>
    rw [State.settleDivisorFlag_getReg, State.setRegOrAny_getReg_ne s v (hdest_ne hdest)]
  | loadThroughPair a p v hdest hpair =>
    rw [State.getReg_setReg_ne _ v (hdest_ne hdest), State.writePair_getReg, if_neg (hpairReg hpair)]
  | storePostIncrement m w ea v a x hwrite hmem hdest => exact State.getReg_setReg_ne _ x (hdest_ne hdest)
  | storeThroughPair m w ea v p hwrite hmem hpair =>
    rw [State.writePair_getReg, if_neg (hpairReg hpair), State.getReg_withMem]
  | special a b k hinstr hspecial => exact State.writeSpecial_getReg _ r hspecial
  | store m w ea v hwrite hmem => rfl
  | userMode hmode => rfl
  | _ => simp

/-! ### What a transfer of control leaves unchanged -/

theorem Transfers.params {i : Instr} {s t : State} (h : Transfers i s t) : t.params = s.params := by
  cases h <;> simp

theorem Transfers.mem {i : Instr} {s t : State} (h : Transfers i s t) : t.mem = s.mem := by
  cases h <;> simp

theorem Transfers.flags_and_accumulator {i : Instr} {s t : State} (h : Transfers i s t) :
    t.f = s.f ∧ t.cy = s.cy ∧ t.divf = s.divf ∧ t.machi = s.machi ∧ t.maclo = s.maclo ∧ t.pair = s.pair := by
  cases h <;> simp

theorem Transfers.lr {i : Instr} {s t : State} (h : Transfers i s t) (hi : writesLinkRegister i = false) :
    t.lr = s.lr := by
  cases h with
  | linkedJump a ha hjump hlink => simp [hi] at hlink
  | _ => rfl

theorem Transfers.mode {i : Instr} {s t : State} (h : Transfers i s t) (hi : writesMode i = false) :
    t.mode = s.mode := by
  cases h with
  | trap e hmode => simp [hi] at hmode
  | _ => simp

theorem Transfers.delay {i : Instr} {s t : State} (h : Transfers i s t) (hi : setsDelay i = false)
    (hdelay : s.delay = none) : t.delay = none := by
  cases h with
  | branch x => exact hdelay
  | jump a ha hjump => simp [hi] at hjump
  | linkedJump a ha hjump hlink => simp [hi] at hjump
  | trap e hmode => rfl

theorem Transfers.getReg {i : Instr} {s t : State} (h : Transfers i s t) {r : RegId}
    (hr : mayWriteReg s.params i r = false) : t.getReg r = s.getReg r := by
  obtain ⟨-, hlinkReg, -⟩ := mayWriteReg_eq_false_iff.mp hr
  cases h with
  | linkedJump a ha hjump hlink => exact State.link_getReg_of_ne (hlinkReg hlink)
  | _ => rfl

/-! ### Memory and parameters -/

/-- Memory after an instruction: as before, or as a write of an instruction that writes memory leaves it. -/
theorem exec_mem_cases {i : Instr} {s t : State} (h : exec i s = .next t) :
    t.mem = s.mem ∨ (writesMemory i = true ∧ ∃ w ea v s', s.memWrite w ea v = .ok s' ∧ t.mem = s'.mem) := by
  obtain ⟨u, hwrites, rfl⟩ | ⟨-, -, htransfers⟩ := exec_eq_next h
  · exact hwrites.mem_cases
  · exact .inl htransfers.mem

theorem exec_params {i : Instr} {s t : State} (h : exec i s = .next t) : t.params = s.params := by
  obtain ⟨u, hwrites, rfl⟩ | ⟨-, -, htransfers⟩ := exec_eq_next h
  · exact hwrites.params
  · exact htransfers.params

theorem State.memWrite_admitted {s u : State} {w : Width} {ea v : Word} (h : s.memWrite w ea v = .ok u) :
    u.mem.admitted = s.mem.admitted := by
  obtain ⟨-, -, rfl⟩ := State.memWrite_eq_ok.mp h
  exact Memory.writeBytes_admitted _ _ _

theorem State.memWrite_keeps_stored {s u : State} {w : Width} {ea v : Word} (h : s.memWrite w ea v = .ok u)
    {a : Nat} (ha : a ∈ s.mem.stored) : a ∈ u.mem.stored := by
  obtain ⟨-, -, rfl⟩ := State.memWrite_eq_ok.mp h
  exact (Memory.writeBytes_mem_stored _ _ _ _).mpr (.inl ha)

theorem exec_keeps_wf {i : Instr} {s t : State} (hwf : s.mem.wf) (h : exec i s = .next t) : t.mem.wf := by
  obtain hsame | ⟨-, w, ea, v, s', hwrite, hmem⟩ := exec_mem_cases h
  · rwa [hsame]
  · rw [hmem]
    exact State.memWrite_wf hwf hwrite

/-! ### Even addresses (R24, 43_branch_jump.md R188) -/

theorem toNat_mod_two_eq_zero_iff (v : Word) : v.toNat % 2 = 0 ↔ v.getLsbD 0 = false := by
  rw [BitVec.getLsbD, Nat.testBit_zero, decide_eq_false_iff_not, ← ne_eq, Nat.mod_two_ne_one]

/-- Wrapping round at 2^32 does not change whether an address is even. -/
theorem toNat_add_mod_two (a b : Word) : (a + b).toNat % 2 = (a.toNat + b.toNat) % 2 := by
  rw [BitVec.toNat_add, Nat.mod_mod_of_dvd _ (by decide)]

theorem displacement_even (x : BitVec 12) : (displacement x).toNat % 2 = 0 := by
  rw [toNat_mod_two_eq_zero_iff]
  simp only [displacement, BitVec.getLsbD_signExtend, BitVec.getLsbD_append]
  rfl

/-- No PC-relative target of an even pc is odd. -/
theorem State.relativeTarget_even {s : State} (hpc : s.pc.toNat % 2 = 0) (x : BitVec 12) :
    (s.relativeTarget x).toNat % 2 = 0 := by
  have hx := displacement_even x
  rw [State.relativeTarget, toNat_add_mod_two]
  omega

theorem State.pc_add_two_even {s : State} (hpc : s.pc.toNat % 2 = 0) : (s.pc + 2).toNat % 2 = 0 := by
  have h2 : (2 : Word).toNat = 2 := rfl
  rw [toNat_add_mod_two]
  omega

theorem Exc.vector_even (e : Exc) : e.vector.toNat % 2 = 0 := by
  cases e <;> rfl

/-- The pc and a pending target are even. -/
def State.TargetsEven (s : State) : Prop :=
  s.pc.toNat % 2 = 0 ∧ ∀ a, s.delay = some a → a.toNat % 2 = 0

theorem State.inv_iff {s : State} : s.Inv ↔ s.mem.wf ∧ s.TargetsEven := by
  simp only [State.Inv, State.TargetsEven]
  cases s.delay <;> simp

theorem State.TargetsEven.advance {s : State} (h : s.TargetsEven) : s.advance.TargetsEven := by
  obtain ⟨hpc, hdelay⟩ := h
  refine ⟨?_, by simp⟩
  rw [State.advance_pc]
  cases hd : s.delay with
  | none => exact State.pc_add_two_even hpc
  | some a => exact hdelay a hd

theorem Writes.even {i : Instr} {s u : State} (h : Writes i s u) (heven : s.TargetsEven) : u.TargetsEven := by
  rwa [State.TargetsEven, h.pc, h.delay]

theorem Transfers.even {i : Instr} {s t : State} (h : Transfers i s t) (hdelay : s.delay = none)
    (heven : s.TargetsEven) : t.TargetsEven := by
  obtain ⟨hpc, -⟩ := heven
  have htarget : ∀ {a}, (∃ x, a = s.relativeTarget x) ∨ a.getLsbD 0 = false → a.toNat % 2 = 0 := by
    rintro a (⟨x, rfl⟩ | ha)
    · exact State.relativeTarget_even hpc x
    · exact (toNat_mod_two_eq_zero_iff a).mpr ha
  cases h with
  | branch x => exact ⟨State.relativeTarget_even hpc x, by simp [hdelay]⟩
  | jump a ha hjump => exact ⟨State.pc_add_two_even hpc, by simpa using htarget ha⟩
  | linkedJump a ha hjump hlink => exact ⟨State.pc_add_two_even hpc, by simpa using htarget ha⟩
  | trap e hmode => exact ⟨e.vector_even, by simp⟩

theorem exec_keeps_even {i : Instr} {s t : State} (heven : s.TargetsEven) (h : exec i s = .next t) : t.TargetsEven := by
  obtain ⟨u, hwrites, rfl⟩ | ⟨-, hdelay, htransfers⟩ := exec_eq_next h
  · exact (hwrites.even heven).advance
  · exact htransfers.even hdelay heven

/-! ### The statements of who writes what, of the pc and of what every step keeps -/

/-- Settles O21: in each form an instruction can take, a piece of state that the table does not list is left alone. -/
theorem onlyListedInstructionsWrite : Obligations.OnlyListedInstructionsWrite := by
  intro i s t h
  obtain ⟨u, hw, rfl⟩ | ⟨-, hdelay, ht⟩ := exec_eq_next h
  · exact ⟨fun _ => hw.getReg, hw.f, hw.cy, hw.divf, fun _ => hw.lr, hw.machi, hw.maclo, hw.pair, hw.mode,
      fun _ => rfl, hw.mem⟩
  · obtain ⟨hf, hcy, hdivf, hmachi, hmaclo, hpair⟩ := ht.flags_and_accumulator
    exact ⟨fun _ => ht.getReg, fun _ => hf, fun _ => hcy, fun _ => hdivf, ht.lr, fun _ => hmachi, fun _ => hmaclo,
      fun _ => hpair, ht.mode, fun hi => ht.delay hi hdelay, fun _ => ht.mem⟩

/-- Settles O59: memory changes only by a write, and every place control goes on at is even. -/
theorem stepKeepsTheMachineInvariant : Obligations.StepKeepsTheMachineInvariant := by
  intro s t hinv hstep
  obtain ⟨hwf, heven⟩ := State.inv_iff.mp hinv
  obtain ⟨w, i, -, -, h⟩ := step_eq_next.mp hstep
  exact State.inv_iff.mpr ⟨exec_keeps_wf hwf h, exec_keeps_even heven h⟩

/-- Settles O60: memory changes only by a write, which keeps the launch memory's addresses and adds to those
stored to. -/
theorem stepKeepsParametersAndLaunchMemory : Obligations.StepKeepsParametersAndLaunchMemory := by
  intro s t hstep
  obtain ⟨w, i, -, -, h⟩ := step_eq_next.mp hstep
  refine ⟨exec_params h, ?_⟩
  obtain hsame | ⟨-, w, ea, v, s', hwrite, hmem⟩ := exec_mem_cases h
  · rw [hsame]
    exact ⟨rfl, fun _ ha => ha⟩
  · rw [hmem]
    exact ⟨State.memWrite_admitted hwrite, fun _ ha => State.memWrite_keeps_stored hwrite ha⟩

/-- Settles O17: an instruction that transfers no control advances the pc, which its results leave alone. -/
theorem otherInstructionsGoOnInSequence : Obligations.OtherInstructionsGoOnInSequence := by
  intro i s t hi hdelay h
  obtain ⟨u, hwrites, rfl⟩ | ⟨htransfer, -, -⟩ := exec_eq_next h
  · refine ⟨?_, State.advance_delay u⟩
    rw [State.advance_pc, hwrites.delay, hwrites.pc, hdelay]
    exact BitVec.toNat_add s.pc 2
  · simp [hi] at htransfer

/-- Settles O18: no transfer of control has a next state in a delay slot, and the pc of every other instruction
advances to the pending target. -/
theorem delaySlotGoesOnAtTheTarget : Obligations.DelaySlotGoesOnAtTheTarget := by
  intro i s t a hdelay h
  obtain ⟨u, hwrites, rfl⟩ | ⟨-, hnone, -⟩ := exec_eq_next h
  · refine ⟨?_, State.advance_delay u⟩
    rw [State.advance_pc, hwrites.delay, hdelay]
    rfl
  · simp [hdelay] at hnone

/-! ### Loads, by the bytes they read (20_memory.md R62) -/

/-- The bytes of an access make up the value R62 writes. -/
theorem Memory.ofBytes_readBytes (m : Memory) (o : Config.ByteOrder) (w : Width) (a : Nat) :
    ofBytes o (m.readBytes a w.bytes) = m.valueAt o w a := by
  cases w with
  | byte => exact ofBytes_one o _
  | half =>
    cases o with
    | big => exact ofBytes_big_two _ _
    | little => exact ofBytes_little_two _ _
  | word =>
    cases o with
    | big => exact ofBytes_big_four _ _ _ _
    | little => exact ofBytes_little_four _ _ _ _

theorem State.memRead_of_ready {s : State} {w : Width} {ea : Word} (h : s.mem.ready w ea) :
    s.memRead w ea = .ok (s.mem.valueAt s.params.byteOrder w ea.toNat) := by
  obtain ⟨haligned, hadmitted⟩ := h
  exact State.memRead_eq_ok.mpr
    ⟨haligned, Memory.admits_iff.mpr hadmitted, (Memory.ofBytes_readBytes _ _ _ _).symm⟩

theorem State.loadThroughPair_of_ready {s : State} {w : Width} (a : RegId) (n : BitVec 4)
    (h : s.mem.ready w s.readPair) :
    s.loadThroughPair w a n =
      .next ((s.writePair (s.readPair + scaledOffset w n)).setReg a
        (s.mem.valueAt s.params.byteOrder w s.readPair.toNat)).advance :=
  State.loadThroughPair_eq_next.mpr ⟨_, State.memRead_of_ready h, rfl⟩

/-! ### The places of LR and PAIR (R28, R30) -/

theorem State.setReg_setReg (s : State) (k : RegId) (v x : Word) : (s.setReg k v).setReg k x = s.setReg k x := by
  simp [State.setReg]

theorem State.readPair_of_generalRegister {s : State} {k : RegId} (h : s.params.pairAlias = .generalRegister k) :
    s.readPair = s.getReg k := by
  simp [State.readPair, h]

/-- PAIR is its own cell where it is no general register. -/
theorem State.pairCell_of_ne_generalRegister {s : State} (h : ∀ k, s.params.pairAlias ≠ .generalRegister k) :
    s.readPair = s.pair ∧ ∀ v, s.writePair v = { s with pair := v } := by
  cases hpair : s.params.pairAlias with
  | generalRegister k => exact absurd hpair (h k)
  | noAlias => simp [State.readPair, State.writePair, hpair]
  | specialRegister x => simp [State.readPair, State.writePair, hpair]

/-- A load of the register that is PAIR, through PAIR: the loaded value wins over the increment. -/
theorem State.loadThroughPair_into_pair {s : State} {w : Width} {k : RegId} (n : BitVec 4)
    (hpair : s.params.pairAlias = .generalRegister k) (h : s.mem.ready w (s.getReg k)) :
    s.loadThroughPair w k n =
      .next (s.setReg k (s.mem.valueAt s.params.byteOrder w (s.getReg k).toNat)).advance := by
  have hread := State.readPair_of_generalRegister hpair
  rw [State.loadThroughPair_of_ready k n (by rwa [hread]), State.writePair_of_alias _ hpair, State.setReg_setReg,
    hread]

/-! ### PAIR as a special register (R30, 45_system.md R213, R214) -/

theorem State.privileged_of_supervisor {s : State} (r : Result) (h : s.mode = .supervisor) : s.privileged r = r := by
  simp [State.privileged, h]

theorem specialRegOf_eq_pair {p : Config.Params} {idx : Config.SprIndex} {x : Word} (hidx : p.sprIndex = some idx)
    (hmachi : x ≠ idx.machi) (hmaclo : x ≠ idx.maclo) (hpair : p.pairAlias = .specialRegister x) :
    specialRegOf p x = some .pair := by
  simp [specialRegOf, hidx, hmachi, hmaclo, hpair]

theorem exec_mtsr_of_specialRegOf {s : State} {a b : RegId} {k : SpecialReg} (hmode : s.mode = .supervisor)
    (hk : specialRegOf s.params (s.getReg a) = some k) :
    exec (.mtsr a b) s = .next (s.writeSpecial k (s.getReg b)).advance := by
  simp [exec, execMtsr, State.privileged_of_supervisor _ hmode, hk]

theorem exec_mfsr_of_specialRegOf {s : State} {a b : RegId} {k : SpecialReg} (hmode : s.mode = .supervisor)
    (hk : specialRegOf s.params (s.getReg b) = some k) :
    exec (.mfsr a b) s = .next (s.setReg a (s.readSpecial k)).advance := by
  simp [exec, execMfsr, State.privileged_of_supervisor _ hmode, hk, State.writeResult]

theorem exec_mtsr_pair {s : State} {a b : RegId} (hmode : s.mode = .supervisor)
    (hk : specialRegOf s.params (s.getReg a) = some .pair) :
    exec (.mtsr a b) s = .next { s with pair := s.getReg b }.advance := by
  rw [exec_mtsr_of_specialRegOf hmode hk, State.writeSpecial,
    State.writePair_of_specialRegister _ (pairAlias_of_specialRegOf hk)]

theorem exec_mfsr_pair {s : State} {a b : RegId} (hmode : s.mode = .supervisor)
    (hk : specialRegOf s.params (s.getReg b) = some .pair) :
    exec (.mfsr a b) s = .next (s.setReg a s.pair).advance := by
  have hcell : s.readPair = s.pair := by
    simp [State.readPair, pairAlias_of_specialRegOf hk]
  rw [exec_mfsr_of_specialRegOf hmode hk, State.readSpecial, hcell]

/-! ### The statements of the registers and of reset -/

/-- Settles O16: each place by the parameter that names it; the last two parts by what a load through PAIR and a move
of a special register answer. -/
theorem aliasesOfLinkRegisterAndPair : Obligations.AliasesOfLinkRegisterAndPair := by
  refine ⟨?linkCell, ?linkRegister, ?pairCell, ?pairRegister, ?loadedValueWins, ?pairByIndex⟩
  case linkCell => exact fun s v h => ⟨State.readLink_of_none h, State.writeLink_of_none v h⟩
  case linkRegister =>
    intro s k v h
    have hwrite := State.writeLink_of_some v h
    refine ⟨State.readLink_of_some h, hwrite, ?_, ?_⟩
    · rw [hwrite, State.getReg_setReg_self]
    · rw [← hwrite, State.readLink_writeLink]
  case pairCell =>
    intro s v h
    obtain ⟨hread, hwrite⟩ := State.pairCell_of_ne_generalRegister h
    exact ⟨hread, hwrite v⟩
  case pairRegister =>
    intro s k v h
    have hwrite := State.writePair_of_alias v h
    refine ⟨State.readPair_of_generalRegister h, hwrite, ?_, ?_⟩
    · rw [hwrite, State.getReg_setReg_self]
    · rw [← hwrite, State.readPair_writePair]
  case loadedValueWins =>
    exact fun s k n h => ⟨State.loadThroughPair_into_pair n h, State.loadThroughPair_into_pair n h,
      State.loadThroughPair_into_pair n h⟩
  case pairByIndex =>
    exact fun s a b idx hmode hidx =>
      ⟨fun hmachi hmaclo hpair => exec_mtsr_pair hmode (specialRegOf_eq_pair hidx hmachi hmaclo hpair),
        fun hmachi hmaclo hpair => exec_mfsr_pair hmode (specialRegOf_eq_pair hidx hmachi hmaclo hpair)⟩

/-- Settles O15: a read after a write of a register; the write is an update of the register file alone. -/
theorem generalRegistersReadBack : Obligations.GeneralRegistersReadBack :=
  fun s r q v => ⟨State.getReg_setReg s r q v, rfl⟩

/-- Settles O57: the three fields of the state after reset, and RESET_MODE (R37). -/
theorem resetHasNoJumpPendingInSupervisorMode : Obligations.ResetHasNoJumpPendingInSupervisorMode :=
  ⟨State.resetWith_delay _ _ _, State.resetWith_mode _ _ _, fun p pc m =>
    ⟨State.resetWith_delay p pc m, State.resetWith_mode p pc m, State.resetWith_pc p pc m⟩⟩

/-! ## The accumulator is not read in User mode (R29, 60_exceptions.md R332)

Two states that agree off the accumulator still agree after each operation, and no operand of an instruction of class
other than 4 reads the accumulator but those of h.mas and h.mss, which write the accumulator alone. -/

theorem agreeOffAccumulator_iff {s t : State} :
    agreeOffAccumulator s t ↔ ∃ hi lo, t = { s with machi := hi, maclo := lo } := by
  constructor
  · exact fun h => ⟨_, _, h⟩
  · rintro ⟨hi, lo, rfl⟩
    rfl

theorem State.privileged_of_user {s : State} (r : Result) (h : s.mode = .user) :
    s.privileged r = .fault .privilegedInUserMode := by
  simp [State.privileged, h]

namespace agreeOffAccumulator

section
variable {s t : State} (h : agreeOffAccumulator s t)
include h

/-! ### Reads -/

theorem getReg (a : RegId) : t.getReg a = s.getReg a := by
  rw [h]
  rfl

theorem memRead (w : Width) (ea : Word) : t.memRead w ea = s.memRead w ea := by
  rw [h]
  rfl

theorem fetch16 : t.fetch16 = s.fetch16 := by
  rw [h]
  rfl

theorem readPair : t.readPair = s.readPair := by
  rw [h]
  rfl

theorem params : t.params = s.params := by
  rw [h]

theorem delay : t.delay = s.delay := by
  rw [h]

theorem mode : t.mode = s.mode := by
  rw [h]

/-! ### Writes -/

theorem setReg (a : RegId) (v : Word) : agreeOffAccumulator (s.setReg a v) (t.setReg a v) := by
  rw [h]
  rfl

theorem setAccumulator (acc acc' : BitVec 64) :
    agreeOffAccumulator (s.setAccumulator acc) (t.setAccumulator acc') := by
  rw [h]
  rfl

theorem advance : agreeOffAccumulator s.advance t.advance := by
  rw [h]
  rfl

theorem setRegOrAny (a : RegId) (v : Option Word) : agreeOffAccumulator (s.setRegOrAny a v) (t.setRegOrAny a v) := by
  rw [h]
  cases v <;> rfl

theorem setFlagOrAny (b : Option Bool) : agreeOffAccumulator (s.setFlagOrAny b) (t.setFlagOrAny b) := by
  rw [h]
  cases b <;> rfl

theorem settleDivisorFlag : agreeOffAccumulator s.settleDivisorFlag t.settleDivisorFlag := by
  rw [h]
  rfl

theorem writeCarry (c : Bool) : agreeOffAccumulator (s.writeCarry c) (t.writeCarry c) := by
  rw [h]
  simp only [State.writeCarry]
  cases s.params.carryPolicy <;> rfl

theorem link : agreeOffAccumulator s.link t.link := by
  rw [h]
  simp only [State.link, State.writeLink]
  cases s.params.lrReg <;> rfl

theorem writePair (v : Word) : agreeOffAccumulator (s.writePair v) (t.writePair v) := by
  rw [h]
  simp only [State.writePair]
  cases s.params.pairAlias <;> rfl

theorem memWrite (w : Width) (ea v : Word) :
    (∃ e, s.memWrite w ea v = .error e ∧ t.memWrite w ea v = .error e) ∨
      ∃ s' t', s.memWrite w ea v = .ok s' ∧ t.memWrite w ea v = .ok t' ∧ agreeOffAccumulator s' t' := by
  rw [h]
  simp only [State.memWrite]
  cases s.mem.accessFault w ea with
  | some e => exact .inl ⟨e, rfl, rfl⟩
  | none => exact .inr ⟨_, _, rfl, rfl, rfl⟩

/-! ### Outcomes -/

theorem writeResult (a : RegId) (v : Word) :
    sameOutcome agreeOffAccumulator (s.writeResult a v) (t.writeResult a v) :=
  (h.setReg a v).advance

theorem compare (b : Bool) : sameOutcome agreeOffAccumulator (s.compare b) (t.compare b) :=
  (h.setFlagOrAny (some b)).advance

theorem writeSum (a : RegId) (r : Word × Bool) :
    sameOutcome agreeOffAccumulator (s.writeSum a r) (t.writeSum a r) :=
  ((h.setReg a r.1).writeCarry r.2).advance

/-- A product is written to MACHI without a read of it. -/
theorem writeProduct (a : RegId) (p : BitVec 64) :
    sameOutcome agreeOffAccumulator (s.writeProduct a p) (t.writeProduct a p) := by
  rw [h]
  rfl

theorem writeQuotient (a : RegId) (d : Word) (r : Option Word) :
    sameOutcome agreeOffAccumulator (s.writeQuotient a d r) (t.writeQuotient a d r) := by
  unfold State.writeQuotient
  by_cases hd : d = 0
  · rw [if_pos hd, if_pos hd, h]
    rfl
  · rw [if_neg hd, if_neg hd]
    exact (h.setRegOrAny a r).settleDivisorFlag.advance

theorem branch (c : Bool) (a : Word) : sameOutcome agreeOffAccumulator (s.branch c a) (t.branch c a) := by
  unfold State.branch
  rw [h.delay]
  cases s.delay with
  | some d => exact rfl
  | none =>
    cases c with
    | true =>
      rw [h]
      rfl
    | false => exact h.advance

theorem delayedJump (a : Word) : sameOutcome agreeOffAccumulator (s.delayedJump a) (t.delayedJump a) := by
  unfold State.delayedJump
  rw [h.delay]
  cases s.delay with
  | some d => exact rfl
  | none =>
    rw [h]
    rfl

theorem delayedJumpToRegister (a : Word) :
    sameOutcome agreeOffAccumulator (s.delayedJumpToRegister a) (t.delayedJumpToRegister a) := by
  unfold State.delayedJumpToRegister
  rw [h.delay]
  cases s.delay with
  | some d => exact rfl
  | none =>
    cases a.getLsbD 0 with
    | true => exact rfl
    | false => exact h.delayedJump a

theorem takeException (e : Exc) : sameOutcome agreeOffAccumulator (s.takeException e) (t.takeException e) := by
  unfold State.takeException
  rw [h.delay]
  cases s.delay with
  | some d => exact rfl
  | none =>
    rw [h]
    rfl

theorem load (w : Width) (a : RegId) (ea : Word) :
    sameOutcome agreeOffAccumulator (s.load w a ea) (t.load w a ea) := by
  unfold State.load
  rw [h.memRead]
  cases s.memRead w ea with
  | error e => exact rfl
  | ok v => exact (h.setReg a v).advance

theorem loadThroughPair (w : Width) (a : RegId) (n : BitVec 4) :
    sameOutcome agreeOffAccumulator (s.loadThroughPair w a n) (t.loadThroughPair w a n) := by
  unfold State.loadThroughPair
  rw [h.memRead, h.readPair]
  cases s.memRead w s.readPair with
  | error e => exact rfl
  | ok v => exact ((h.writePair _).setReg a v).advance

theorem store (w : Width) (ea v : Word) : sameOutcome agreeOffAccumulator (s.store w ea v) (t.store w ea v) := by
  unfold State.store
  obtain ⟨e, hs, ht⟩ | ⟨s', t', hs, ht, h'⟩ := h.memWrite w ea v
  · rw [hs, ht]
    exact rfl
  · rw [hs, ht]
    exact h'.advance

theorem storePostIncrement (w : Width) (a b : RegId) :
    sameOutcome agreeOffAccumulator (s.storePostIncrement w a b) (t.storePostIncrement w a b) := by
  unfold State.storePostIncrement
  rw [h.getReg a, h.getReg b]
  obtain ⟨e, hs, ht⟩ | ⟨s', t', hs, ht, h'⟩ := h.memWrite w (s.getReg a) (s.getReg b)
  · rw [hs, ht]
    exact rfl
  · rw [hs, ht]
    exact (h'.setReg a _).advance

theorem storeThroughPair (w : Width) (n : BitVec 4) (b : RegId) :
    sameOutcome agreeOffAccumulator (s.storeThroughPair w n b) (t.storeThroughPair w n b) := by
  unfold State.storeThroughPair
  rw [h.getReg b, h.readPair]
  obtain ⟨e, hs, ht⟩ | ⟨s', t', hs, ht, h'⟩ := h.memWrite w s.readPair (s.getReg b)
  · rw [hs, ht]
    exact rfl
  · rw [hs, ht]
    exact (h'.writePair _).advance

/-- h.rfe, h.mtsr and h.mfsr have no next state in User mode, so they show nothing of the accumulator (R331). -/
theorem privileged (hmode : s.mode = .user) (r r' : Result) :
    sameOutcome agreeOffAccumulator (s.privileged r) (t.privileged r') := by
  rw [State.privileged_of_user r hmode, State.privileged_of_user r' (h.mode.trans hmode)]
  exact rfl

end

end agreeOffAccumulator

/-- In User mode no instruction shows the accumulator in anything but the accumulator. -/
theorem exec_sameOutcome_offAccumulator (i : Instr) {s t : State} (hmode : s.mode = .user)
    (h : agreeOffAccumulator s t) : sameOutcome agreeOffAccumulator (exec i s) (exec i t) := by
  obtain ⟨hi, lo, rfl⟩ := agreeOffAccumulator_iff.mp h
  cases i with
  | sfeq a b | sfne a b | sfgts a b | sfges a b | sflts a b | sfles a b | sfgtu a b | sfgeu a b | sfltu a b
  | sfleu a b => exact h.compare _
  | test a b => exact (h.setFlagOrAny _).advance
  | testi a m => exact (h.setFlagOrAny (some _)).advance
  | nop => exact h.advance
  | exths a | exthz a | extbs a | extbz a | negs a b | movibse a m | mov a b | notu a b | xor a b | or a b | and a b
  | swapb a b | swaph a b | shlai a l | shrai a l | shrli a l | shla a b | shra a b | shrl a b | ror a b | rol a b
  | clri a m | seti a m => exact h.writeResult a _
  | clr a b | set a b => exact (h.setRegOrAny a _).advance
  | adds a b d | subs a b | addu a b | subu a b | addwcs a b | subwcs a b => exact h.writeSum a _
  | muls a b | mulu a b => exact h.writeProduct a _
  | divs a b | divu a b | mods a b | modu a b => exact h.writeQuotient a _ _
  | mas a b | mss a b => exact (h.setAccumulator _ _).advance
  | lw a n b => exact h.load _ a _
  | lhz n b | lbz n b => exact h.load _ _ _
  | lwpain a n | lhzpain a n | lbzpain a n => exact h.loadThroughPair _ a n
  | sw n a b | sh n a | sb n a => exact h.store _ _ _
  | swpai a b | shpai a b | sbpai a b => exact h.storePostIncrement _ a b
  | swpain n b | shpain n b | sbpain n b => exact h.storeThroughPair _ n b
  | bnf x | bf x => exact h.branch _ _
  | jmp x => exact h.delayedJump _
  | jr a => exact h.delayedJumpToRegister _
  | jal x => exact h.link.delayedJump _
  | jalr a => exact h.link.delayedJumpToRegister _
  | brk m | sys m => exact h.takeException _
  | rfe | mtsr a b | mfsr a b => exact h.privileged hmode _ _
  | movhibsl a m | movhibse a m | lhspain a n | lbspain a n => exact rfl

/-- Settles O41: the two runs fetch and decode the same instruction, whose meaning does not show the accumulator. -/
theorem userModeCannotReadTheAccumulator : Obligations.UserModeCannotReadTheAccumulator := by
  intro s t hmode h
  unfold step
  rw [h.fetch16, h.params]
  cases s.fetch16 with
  | error e => exact rfl
  | ok w =>
    cases hdecode : decodeWord s.params w with
    | error e =>
      simp only [hdecode]
      exact rfl
    | ok i =>
      simp only [hdecode]
      exact exec_sameOutcome_offAccumulator i hmode h

end Sys2Proof.Machine

/-! ## Accesses to memory: what a read gives, what a write stores, where each fails (20_memory.md R62 to R66) -/

namespace Sys2Proof.Machine

/-! ### When an access has an effect -/

theorem Memory.admits_eq_false_iff {m : Memory} {a n : Nat} :
    m.admits a n = false ↔ ∃ i < n, m.isAdmitted (a + i) = false := by
  simp [Memory.admits]

theorem Memory.admits_two_eq_false_iff {m : Memory} {a : Nat} :
    m.admits a 2 = false ↔ m.isAdmitted a = false ∨ m.isAdmitted (a + 1) = false := by
  rw [← Bool.not_eq_true, Memory.admits_two, not_and_or, Bool.not_eq_true, Bool.not_eq_true]

theorem Memory.ready_iff {m : Memory} {w : Width} {ea : Word} : m.ready w ea ↔ m.accessFault w ea = none := by
  rw [Memory.accessFault_eq_none, Memory.admits_iff]

theorem Memory.accessFault_of_misaligned {m : Memory} {w : Width} {ea : Word} (h : ea.toNat % w.bytes ≠ 0) :
    m.accessFault w ea = some .misaligned :=
  Memory.accessFault_eq_some.mpr (.inl ⟨h, rfl⟩)

theorem Memory.accessFault_of_touchesOutside {m : Memory} {w : Width} {ea : Word} (h : m.touchesOutside w ea) :
    m.accessFault w ea = some .outsideMemory := by
  obtain ⟨haligned, houtside⟩ := h
  exact Memory.accessFault_eq_some.mpr (.inr ⟨haligned, Memory.admits_eq_false_iff.mpr houtside, rfl⟩)

theorem Memory.accessFault_byte_ne_misaligned (m : Memory) (ea : Word) : m.accessFault .byte ea ≠ some .misaligned := by
  intro h
  obtain ⟨hmisaligned, -⟩ | ⟨-, -, hfault⟩ := Memory.accessFault_eq_some.mp h
  · exact hmisaligned (Nat.mod_one _)
  · cases hfault

theorem State.memRead_of_not_ready {s : State} {w : Width} {ea : Word} (h : ¬ s.mem.ready w ea) :
    ∃ e, s.memRead w ea = .error e := by
  rw [Memory.ready_iff] at h
  obtain ⟨e, he⟩ := Option.ne_none_iff_exists'.mp h
  exact ⟨e, State.memRead_eq_error.mpr he⟩

theorem State.memWrite_of_ready {s : State} {w : Width} {ea : Word} (v : Word) (h : s.mem.ready w ea) :
    s.memWrite w ea v =
      .ok { s with mem := s.mem.writeBytes ea.toNat (toBytes s.params.byteOrder w.bytes v) } := by
  obtain ⟨haligned, hadmitted⟩ := h
  exact State.memWrite_eq_ok.mpr ⟨haligned, Memory.admits_iff.mpr hadmitted, rfl⟩

/-! ### The bytes a write leaves, and what a read of them gives back (R63) -/

/-- Each byte of a stored value is the one that R63 puts at its place. -/
theorem toBytes_getElem (o : Config.ByteOrder) {n i : Nat} (v : Word) (h : i < (toBytes o n v).length) :
    (toBytes o n v)[i] = storedByte o n i v := by
  cases o with
  | big => simp [toBytes, toBytesLittle, storedByte]
  | little => simp [toBytes, toBytesLittle, storedByte]

theorem Memory.afterStore_writeBytes {m : Memory} (hwf : m.wf) {w : Width} {ea : Word} (h : m.ready w ea)
    (o : Config.ByteOrder) (v : Word) :
    m.afterStore (m.writeBytes ea.toNat (toBytes o w.bytes v)) o w ea v := by
  obtain ⟨-, hadmitted⟩ := h
  have hadm : m.admits ea.toNat (toBytes o w.bytes v).length = true := by
    rwa [toBytes_length, Memory.admits_iff]
  refine ⟨?stored, ?others, Memory.writeBytes_admitted _ _ _, hwf.writeBytes hadm, ?remembered⟩
  case stored =>
    intro i hi
    rw [Memory.byteAt_writeBytes hwf hadm, dif_pos (by rw [toBytes_length]; omega), toBytes_getElem,
      Nat.add_sub_cancel_left]
  case others =>
    intro k hk
    rw [Memory.byteAt_writeBytes hwf hadm, dif_neg (by rw [toBytes_length]; omega)]
  case remembered =>
    intro k
    rw [Memory.writeBytes_mem_stored, toBytes_length]

/-- A read of bytes just written gives them back. -/
theorem Memory.readBytes_writeBytes {m : Memory} (hwf : m.wf) {a : Nat} {bs : List Byte}
    (h : m.admits a bs.length = true) : (m.writeBytes a bs).readBytes a bs.length = bs := by
  refine List.ext_getElem (by simp [Memory.readBytes]) fun i _ hi => ?_
  simp [Memory.readBytes, Memory.byteAt_writeBytes hwf h, hi]

/-- The low `k` bits of a word, as a mask keeps them. -/
theorem setWidth_extractLsb'_zero (v : Word) (k : Nat) :
    (v.extractLsb' 0 k).setWidth 32 = v &&& BitVec.ofNat 32 (2 ^ k - 1) := by
  apply BitVec.eq_of_getLsbD_eq
  intro i hi
  rw [BitVec.getLsbD_setWidth, BitVec.getLsbD_extractLsb', BitVec.getLsbD_and, BitVec.getLsbD_ofNat,
    Nat.testBit_two_pow_sub_one]
  simp [hi, Bool.and_comm]

/-- The bytes of an access to a value make up its low bits. -/
theorem ofBytes_toBytes_width (o : Config.ByteOrder) (w : Width) (v : Word) :
    ofBytes o (toBytes o w.bytes v) = v &&& BitVec.ofNat 32 (2 ^ (8 * w.bytes) - 1) := by
  rw [← setWidth_extractLsb'_zero]
  cases w with
  | byte => exact ofBytes_toBytes_one o v
  | half => exact ofBytes_toBytes_two o v
  | word => simpa [Width.bytes] using ofBytes_toBytes_four o v

theorem State.memRead_after_writeBytes {s : State} (hwf : s.mem.wf) {w : Width} {ea : Word} (v : Word)
    (h : s.mem.ready w ea) :
    State.memRead { s with mem := s.mem.writeBytes ea.toNat (toBytes s.params.byteOrder w.bytes v) } w ea =
      .ok (v &&& BitVec.ofNat 32 (2 ^ (8 * w.bytes) - 1)) := by
  obtain ⟨haligned, hadmitted⟩ := h
  have hadm : s.mem.admits ea.toNat (toBytes s.params.byteOrder w.bytes v).length = true := by
    rwa [toBytes_length, Memory.admits_iff]
  have hread := Memory.readBytes_writeBytes hwf hadm
  rw [toBytes_length] at hread
  refine State.memRead_eq_ok.mpr ⟨haligned, ?_, ?_⟩
  · simpa [Memory.admits_iff] using hadmitted
  · rw [hread, ofBytes_toBytes_width]

/-! ### The access of each load and store (49_load_store.md) -/

/-- Width and address of the one access an instruction makes, each by the instruction's rule (R290 to R298, R301 to
R306); none where it makes no access. -/
def State.accessOf (s : State) : Instr → Option (Width × Word)
  | .lw _ n b => some (.word, s.baseOffset .word b n)
  | .lhz n b => some (.half, s.baseOffset .half b n)
  | .lbz n b => some (.byte, s.baseOffset .byte b n)
  | .sw n a _ => some (.word, s.baseOffset .word a n)
  | .sh n a => some (.half, s.baseOffset .half a n)
  | .sb n a => some (.byte, s.baseOffset .byte a n)
  | .lwpain .. => some (.word, s.readPair)
  | .lhzpain .. => some (.half, s.readPair)
  | .lbzpain .. => some (.byte, s.readPair)
  | .swpai a _ => some (.word, s.getReg a)
  | .shpai a _ => some (.half, s.getReg a)
  | .sbpai a _ => some (.byte, s.getReg a)
  | .swpain .. => some (swpainWidth s.params, s.readPair)
  | .shpain .. => some (.half, s.readPair)
  | .sbpain .. => some (sbpainWidth s.params, s.readPair)
  | _ => none

/-- A load or store faults exactly as its access does. -/
theorem exec_eq_fault_of_accessOf {i : Instr} {s : State} {w : Width} {ea : Word} {e : Fault}
    (hi : s.accessOf i = some (w, ea)) : exec i s = .fault e ↔ s.mem.accessFault w ea = some e := by
  cases i with
  | lw a n b | lhz n b | lbz n b => cases hi; exact State.load_eq_fault
  | sw n a b | sh n a | sb n a => cases hi; exact State.store_eq_fault
  | lwpain a n | lhzpain a n | lbzpain a n => cases hi; exact State.loadThroughPair_eq_fault
  | swpai a b | shpai a b | sbpai a b => cases hi; exact State.storePostIncrement_eq_fault
  | swpain n b | shpain n b | sbpain n b => cases hi; exact State.storeThroughPair_eq_fault
  | _ => cases hi

theorem exec_of_misaligned {i : Instr} {s : State} {w : Width} {ea : Word} (hi : s.accessOf i = some (w, ea))
    (h : ea.toNat % w.bytes ≠ 0) : exec i s = .fault .misaligned :=
  (exec_eq_fault_of_accessOf hi).mpr (Memory.accessFault_of_misaligned h)

theorem exec_of_misaligned_word {i : Instr} {s : State} {ea : Word} (hi : s.accessOf i = some (.word, ea))
    (h : ea.toNat % 4 ≠ 0) : exec i s = .fault .misaligned :=
  exec_of_misaligned hi h

theorem exec_of_misaligned_half {i : Instr} {s : State} {ea : Word} (hi : s.accessOf i = some (.half, ea))
    (h : ea.toNat % 2 ≠ 0) : exec i s = .fault .misaligned :=
  exec_of_misaligned hi h

theorem exec_of_touchesOutside {i : Instr} {s : State} {w : Width} {ea : Word} (hi : s.accessOf i = some (w, ea))
    (h : s.mem.touchesOutside w ea) : exec i s = .fault .outsideMemory :=
  (exec_eq_fault_of_accessOf hi).mpr (Memory.accessFault_of_touchesOutside h)

theorem swpainWidth_eq_ite (p : Config.Params) :
    swpainWidth p = if p.painStoreWidth = .byMnemonic then .word else .byte := by
  cases h : p.painStoreWidth <;> simp [swpainWidth, h]

theorem sbpainWidth_eq_ite (p : Config.Params) :
    sbpainWidth p = if p.painStoreWidth = .byMnemonic then .byte else .word := by
  cases h : p.painStoreWidth <;> simp [sbpainWidth, h]

/-! ### The fetch, by the first check that stops it (R66, R67, R76, 60_exceptions.md R327) -/

theorem State.fetch16_of_odd {s : State} (h : s.pc.toNat % 2 = 1) : s.fetch16 = .error .oddPc := by
  simp [State.fetch16, h]

theorem State.fetch16_of_outside {s : State} (heven : s.pc.toNat % 2 = 0) (h : s.mem.admits s.pc.toNat 2 = false) :
    s.fetch16 = .error .outsideMemory := by
  simp [State.fetch16, heven, h]

theorem State.fetch16_of_stored {s : State} (heven : s.pc.toNat % 2 = 0) (hadm : s.mem.admits s.pc.toNat 2 = true)
    (h : s.pc.toNat ∈ s.mem.stored ∨ s.pc.toNat + 1 ∈ s.mem.stored) : s.fetch16 = .error .fetchOfModifiedCode := by
  simp [State.fetch16, heven, hadm, h]

/-- A fetch that no check stops gives the half word that the two bytes at the pc make up. -/
theorem State.fetch16_of_fetchable {s : State} {bs : List Byte} (heven : s.pc.toNat % 2 = 0)
    (hadm : s.mem.admits s.pc.toNat 2 = true) (h0 : s.pc.toNat ∉ s.mem.stored)
    (h1 : s.pc.toNat + 1 ∉ s.mem.stored) (hread : s.mem.readBytes s.pc.toNat 2 = bs) :
    s.fetch16 = .ok ((ofBytes s.params.byteOrder bs).setWidth 16) := by
  subst hread
  exact State.fetch16_eq_ok.mpr ⟨heven, hadm, h0, h1, rfl⟩

/-! ### A placed program (70_reset_and_hazards.md R361, log 10) -/

theorem Memory.readBytes_succ (m : Memory) (a n : Nat) :
    m.readBytes a (n + 1) = m.byteAt a :: m.readBytes (a + 1) n := by
  simp [Memory.readBytes, List.range_succ_eq_map, Nat.add_assoc, Nat.add_comm 1]

theorem Memory.placeBytes_isAdmitted (m : Memory) (a k : Nat) (bs : List Byte) :
    (m.placeBytes a bs).isAdmitted k = true ↔ m.isAdmitted k = true ∨ (a ≤ k ∧ k < a + bs.length) := by
  induction bs generalizing m a with
  | nil => simp [Memory.placeBytes]
  | cons b bs ih =>
    simp only [Memory.placeBytes, ih, Memory.placeByte_isAdmitted, Bool.or_eq_true, beq_iff_eq, or_assoc,
      List.length_cons]
    have hrange : k = a ∨ (a + 1 ≤ k ∧ k < a + 1 + bs.length) ↔ a ≤ k ∧ k < a + (bs.length + 1) := by omega
    rw [hrange]

theorem Memory.placeBytes_mem_stored (m : Memory) (a k : Nat) (bs : List Byte) :
    k ∈ (m.placeBytes a bs).stored ↔ k ∈ m.stored ∧ ¬ (a ≤ k ∧ k < a + bs.length) := by
  induction bs generalizing m a with
  | nil => simp [Memory.placeBytes]
  | cons b bs ih =>
    simp only [Memory.placeBytes, ih, Memory.placeByte_mem_stored, and_assoc, List.length_cons]
    have hrange : k ≠ a ∧ ¬ (a + 1 ≤ k ∧ k < a + 1 + bs.length) ↔ ¬ (a ≤ k ∧ k < a + (bs.length + 1)) := by omega
    rw [hrange]

theorem Memory.byteAt_placeBytes_of_lt {m : Memory} (hwf : m.wf) {a k : Nat} {bs : List Byte}
    (hspace : a + bs.length ≤ 2 ^ 32) (hk : k < a) : (m.placeBytes a bs).byteAt k = m.byteAt k := by
  induction bs generalizing m a with
  | nil => rfl
  | cons b bs ih =>
    rw [List.length_cons] at hspace
    rw [Memory.placeBytes, ih (hwf.placeByte (by omega) b) (by omega) (by omega), Memory.byteAt_placeByte hwf,
      if_neg (by omega)]

/-- A read of bytes just placed gives them back. -/
theorem Memory.readBytes_placeBytes {m : Memory} (hwf : m.wf) {a : Nat} {bs : List Byte}
    (hspace : a + bs.length ≤ 2 ^ 32) : (m.placeBytes a bs).readBytes a bs.length = bs := by
  induction bs generalizing m a with
  | nil => rfl
  | cons b bs ih =>
    rw [List.length_cons] at hspace
    have hwf' := hwf.placeByte (a := a) (by omega) b
    rw [List.length_cons, Memory.readBytes_succ, Memory.placeBytes, ih hwf' (by omega),
      Memory.byteAt_placeBytes_of_lt hwf' (by omega) (by omega), Memory.byteAt_placeByte hwf, if_pos rfl]

/-- A half word laid out as two bytes and made up again is itself, in either byte order. -/
theorem ofBytes_toBytes_halfWord (o : Config.ByteOrder) (w : HalfWord) :
    (ofBytes o (toBytes o 2 (BitVec.ofNat 32 (w.toNat % 2 ^ 16)))).setWidth 16 = w := by
  rw [ofBytes_toBytes_two, Nat.mod_eq_of_lt w.isLt]
  apply BitVec.eq_of_toNat_eq
  simp only [BitVec.toNat_setWidth, BitVec.extractLsb'_toNat, BitVec.toNat_ofNat, Nat.shiftRight_zero]
  have hw := w.isLt
  omega

/-- Two bytes placed at an even pc are admitted and not stored to, so the fetch gives the half word they make up. -/
theorem State.fetch16_of_placeBytes {s : State} (hwf : s.mem.wf) (heven : s.pc.toNat % 2 = 0) {bs : List Byte}
    (hlen : bs.length = 2) :
    State.fetch16 { s with mem := s.mem.placeBytes s.pc.toNat bs } =
      .ok ((ofBytes s.params.byteOrder bs).setWidth 16) := by
  have hspace : s.pc.toNat + bs.length ≤ 2 ^ 32 := by
    have hpc := s.pc.isLt
    omega
  have hadm : (s.mem.placeBytes s.pc.toNat bs).admits s.pc.toNat 2 = true :=
    Memory.admits_iff.mpr fun i hi => (Memory.placeBytes_isAdmitted _ _ _ _).mpr (.inr (by omega))
  have hstored : ∀ i < 2, s.pc.toNat + i ∉ (s.mem.placeBytes s.pc.toNat bs).stored := by
    intro i hi hmem
    obtain ⟨-, hout⟩ := (Memory.placeBytes_mem_stored _ _ _ _).mp hmem
    omega
  have hread : (s.mem.placeBytes s.pc.toNat bs).readBytes s.pc.toNat 2 = bs :=
    hlen ▸ Memory.readBytes_placeBytes hwf hspace
  exact State.fetch16_of_fetchable heven hadm (hstored 0 (by decide)) (hstored 1 (by decide)) hread

theorem State.fetch16_withFetchWord {s : State} (hwf : s.mem.wf) (heven : s.pc.toNat % 2 = 0) (w : HalfWord) :
    (s.withFetchWord 16 w.toNat).fetch16 = .ok w := by
  rw [State.withFetchWord, State.fetch16_of_placeBytes hwf heven (toBytes_length _ _ _), ofBytes_toBytes_halfWord]

/-! ### The statements of memory -/

/-- Settles O11: the bytes of the access make up the value R62 writes, and an access that is not ready has a fault. -/
theorem memReadAssemblesTheBytes : Obligations.MemReadAssemblesTheBytes :=
  fun _ _ _ => ⟨State.memRead_of_ready, State.memRead_of_not_ready⟩

/-- Settles O12: the new memory is the old one with the value's bytes written, which a read makes up again. -/
theorem memWriteStoresTheBytes : Obligations.MemWriteStoresTheBytes :=
  fun _ _ _ v hwf hready => ⟨_, State.memWrite_of_ready v hready, Memory.afterStore_writeBytes hwf hready _ v,
    State.memRead_after_writeBytes hwf v hready⟩

/-- Settles O13: each instruction faults as its access does, whose alignment is checked first. -/
theorem misalignedAccessesFault : Obligations.MisalignedAccessesFault := by
  refine ⟨fun s a b n => ?_, Memory.accessFault_byte_ne_misaligned⟩
  refine ⟨exec_of_misaligned_word rfl, exec_of_misaligned_half rfl, exec_of_misaligned_word rfl,
    exec_of_misaligned_half rfl, exec_of_misaligned_word rfl, exec_of_misaligned_half rfl,
    exec_of_misaligned_word rfl, exec_of_misaligned_half rfl, exec_of_misaligned_half rfl, ?swpain, ?sbpain⟩
  case swpain =>
    intro hwidth
    exact exec_of_misaligned_word (by simp [State.accessOf, swpainWidth, hwidth])
  case sbpain =>
    intro hwidth
    exact exec_of_misaligned_word (by simp [State.accessOf, sbpainWidth, hwidth])

/-- Settles O14: each instruction faults as its access does; an aligned access faults where a byte is not admitted. -/
theorem accessesOutsideLaunchMemoryAreStuck : Obligations.AccessesOutsideLaunchMemoryAreStuck := by
  intro s a b n
  rw [← swpainWidth_eq_ite, ← sbpainWidth_eq_ite]
  exact ⟨exec_of_touchesOutside rfl, exec_of_touchesOutside rfl, exec_of_touchesOutside rfl,
    exec_of_touchesOutside rfl, exec_of_touchesOutside rfl, exec_of_touchesOutside rfl, exec_of_touchesOutside rfl,
    exec_of_touchesOutside rfl, exec_of_touchesOutside rfl, exec_of_touchesOutside rfl, exec_of_touchesOutside rfl,
    exec_of_touchesOutside rfl, exec_of_touchesOutside rfl, exec_of_touchesOutside rfl, exec_of_touchesOutside rfl⟩

/-- Settles O10: the fetch's own checks, each as the statement writes it, and the bytes as the value R62 writes. -/
theorem fetchReadsTheHalfWordAtThePc : Obligations.FetchReadsTheHalfWordAtThePc := by
  intro s
  simp only [← Memory.admits_two_eq_false_iff]
  have heven : ¬ s.pc.toNat % 2 = 1 → s.pc.toNat % 2 = 0 := Nat.mod_two_ne_one.mp
  split_ifs with hodd houtside hstored
  · exact State.fetch16_of_odd hodd
  · exact State.fetch16_of_outside (heven hodd) houtside
  · exact State.fetch16_of_stored (heven hodd) (Bool.eq_true_of_not_eq_false houtside) hstored
  · obtain ⟨h0, h1⟩ := not_or.mp hstored
    rw [← Memory.ofBytes_readBytes]
    exact State.fetch16_of_fetchable (heven hodd) (Bool.eq_true_of_not_eq_false houtside) h0 h1 rfl

/-- Settles O9: the fetch gives the placed word, and placing it leaves the parameters it decodes under. -/
theorem placedWordIsRun : Obligations.PlacedWordIsRun :=
  fun _ w _ hwf heven hdecode => step_of_decodeWord_ok (State.fetch16_withFetchWord hwf heven w) hdecode

end Sys2Proof.Machine

/-! ## Decoder and encoder, each the other's inverse (30_encoding.md R104, R107, R109, R112) -/

namespace Sys2Proof

open Machine (WordIs isListedReserved)

/-! ### The opcode map and `OPC_MOV` (R108, R109) -/

/-- The opcode map has no instruction under a wholly reserved top byte. -/
theorem decodeNibbles_of_reservedTopByte {n3 n2 : BitVec 4} (n1 n0 : BitVec 4)
    (h : isReservedTopByte (n3 ++ n2) = true) : decodeNibbles n3 n2 n1 n0 = none := by
  have hn3 : (n3 ++ n2 : Byte).extractLsb' 4 4 = n3 := append8_high n3 n2
  have hn2 : (n3 ++ n2 : Byte).extractLsb' 0 4 = n2 := append8_low n3 n2
  generalize (n3 ++ n2 : Byte) = k at h hn3 hn2
  subst hn3 hn2
  simp only [isReservedTopByte, List.contains_iff_mem] at h
  fin_cases h <;> rfl

/-- A word that the opcode map reads is that instruction's whatever `OPC_MOV` is. -/
theorem wordIs_of_decodeNibbles {n3 n2 n1 n0 : BitVec 4} {i : Instr} (h : decodeNibbles n3 n2 n1 n0 = some i) :
    WordIs (ofNibbles n3 n2 n1 n0) i := by
  intro o
  cases hk : isReservedTopByte (n3 ++ n2) with
  | false => exact (decodeRow_of_not_reserved o n1 n0 hk).trans h
  | true => simp [decodeNibbles_of_reservedTopByte n1 n0 hk] at h

theorem wordIs_nop : WordIs 0x4B04 .nop :=
  wordIs_of_decodeNibbles (n3 := 0x4) (n2 := 0xB) (n1 := 0x0) (n0 := 0x4) rfl

theorem wordIs_rfe : WordIs 0xD900 .rfe :=
  wordIs_of_decodeNibbles (n3 := 0xD) (n2 := 0x9) (n1 := 0x0) (n0 := 0x0) rfl

/-! ### Formats with a split immediate (R96 to R99), the immediate put together of its parts -/

@[simp] theorem encodeRI5_append (n3 : BitVec 4) (top : BitVec 3) (a : RegId) (t : BitVec 1) (n0 : BitVec 4) :
    encodeRI5 n3 top a (t ++ n0) = ofNibbles n3 (top ++ t) a n0 := by
  simp [encodeRI5]

@[simp] theorem encodeRI8_append (n3 n2 : BitVec 4) (a : RegId) (n0 : BitVec 4) :
    encodeRI8 n3 a (n2 ++ n0) = ofNibbles n3 n2 a n0 := by
  simp [encodeRI8]

@[simp] theorem encodeI8_append (n3 n2 n1 n0 : BitVec 4) : encodeI8 n3 n2 (n1 ++ n0) = ofNibbles n3 n2 n1 n0 := by
  simp [encodeI8]

@[simp] theorem encodeJ12_append (n3 n2 n1 n0 : BitVec 4) :
    encodeJ12 n3 (n2 ++ n1 ++ n0) = ofNibbles n3 n2 n1 n0 := by
  simp [encodeJ12]

/-! ### From the instruction to its word, format by format -/

theorem wordIs_encodeRI5 {n3 : BitVec 4} {top : BitVec 3} {a : RegId} {f : BitVec 5 → Instr}
    (h0 : ∀ n0, decodeNibbles n3 (top ++ 0#1) a n0 = some (f (0#1 ++ n0)))
    (h1 : ∀ n0, decodeNibbles n3 (top ++ 1#1) a n0 = some (f (1#1 ++ n0))) (imm : BitVec 5) :
    WordIs (encodeRI5 n3 top a imm) (f imm) := by
  apply wordIs_of_decodeNibbles
  conv_rhs => rw [← split5 imm]
  obtain hbit | hbit := BitVec.eq_zero_or_eq_one (imm.extractLsb' 4 1)
  · rw [hbit, h0]
  · rw [hbit, h1]

theorem wordIs_encodeRI8 {n3 : BitVec 4} {a : RegId} {f : BitVec 8 → Instr}
    (h : ∀ n2 n0, decodeNibbles n3 n2 a n0 = some (f (n2 ++ n0))) (m : BitVec 8) :
    WordIs (encodeRI8 n3 a m) (f m) :=
  wordIs_of_decodeNibbles ((h _ _).trans (by rw [split8]))

theorem wordIs_encodeI8 {n3 n2 : BitVec 4} {f : BitVec 8 → Instr}
    (h : ∀ n1 n0, decodeNibbles n3 n2 n1 n0 = some (f (n1 ++ n0))) (m : BitVec 8) :
    WordIs (encodeI8 n3 n2 m) (f m) :=
  wordIs_of_decodeNibbles ((h _ _).trans (by rw [split8]))

theorem wordIs_encodeJ12 {n3 : BitVec 4} {f : BitVec 12 → Instr}
    (h : ∀ n2 n1 n0, decodeNibbles n3 n2 n1 n0 = some (f (n2 ++ n1 ++ n0))) (x : BitVec 12) :
    WordIs (encodeJ12 n3 x) (f x) :=
  wordIs_of_decodeNibbles ((h _ _ _).trans (by rw [split12]))

/-- Every word of h.lw's pattern that is not one of h.lhz or h.lbz (R107). -/
theorem decodeNibbles_lw {a : RegId} (n b : BitVec 4) (h8 : a ≠ 8) (h9 : a ≠ 9) :
    decodeNibbles 0x0 n a b = some (.lw a n b) := by
  simp [decodeNibbles, show a ≠ 8#4 from h8, show a ≠ 9#4 from h9]

/-- Every word of h.sw's pattern that is not one of h.sh or h.sb (R107). -/
theorem decodeNibbles_sw {b : RegId} (n a : BitVec 4) (h8 : b ≠ 8) (h9 : b ≠ 9) :
    decodeNibbles 0x1 n a b = some (.sw n a b) := by
  simp [decodeNibbles, show b ≠ 8#4 from h8, show b ≠ 9#4 from h9]

/-! ### The words of an instruction -/

/-- `w` is the word that `i` has, and `i` has no operand that a word cannot name. -/
def Instr.HasWord (p : Config.Params) (i : Instr) (w : HalfWord) : Prop :=
  encode p i = some w ∧ i.operandsEncodable p = true

theorem hasWord_mov_iff {p : Config.Params} {a b : RegId} {w : HalfWord} :
    (Instr.mov a b).HasWord p w ↔ ∃ k, p.opcMov = some k ∧ isReservedTopByte k = true ∧ w = k ++ a ++ b := by
  simp only [Instr.HasWord, encode, Instr.operandsEncodable, ofNibbles_of_op8]
  cases p.opcMov with
  | none => simp
  | some k => cases hk : isReservedTopByte k <;> simp [hk, eq_comm (a := w)]

/-- The word of any other instruction than h.mov is read as it by the opcode map. -/
theorem wordIs_of_hasWord {p : Config.Params} {i : Instr} {w : HalfWord} (hmov : ∀ a b, i ≠ .mov a b)
    (h : i.HasWord p w) : WordIs w i := by
  obtain ⟨henc, hops⟩ := h
  cases i with
  | mov a b => exact absurd rfl (hmov a b)
  | nop => cases henc; exact wordIs_nop
  | rfe => cases henc; exact wordIs_rfe
  | bnf x => cases henc; exact wordIs_encodeJ12 (f := .bnf) (fun _ _ _ => rfl) x
  | bf x => cases henc; exact wordIs_encodeJ12 (f := .bf) (fun _ _ _ => rfl) x
  | jal x => cases henc; exact wordIs_encodeJ12 (f := .jal) (fun _ _ _ => rfl) x
  | jmp x => cases henc; exact wordIs_encodeJ12 (f := .jmp) (fun _ _ _ => rfl) x
  | movibse a m => cases henc; exact wordIs_encodeRI8 (f := .movibse a) (fun _ _ => rfl) m
  | movhibsl a m => cases henc; exact wordIs_encodeRI8 (f := .movhibsl a) (fun _ _ => rfl) m
  | movhibse a m => cases henc; exact wordIs_encodeRI8 (f := .movhibse a) (fun _ _ => rfl) m
  | brk m => cases henc; exact wordIs_encodeI8 (f := .brk) (fun _ _ => rfl) m
  | sys m => cases henc; exact wordIs_encodeI8 (f := .sys) (fun _ _ => rfl) m
  | shlai a l => cases henc; exact wordIs_encodeRI5 (f := .shlai a) (fun _ => rfl) (fun _ => rfl) l
  | shrai a l => cases henc; exact wordIs_encodeRI5 (f := .shrai a) (fun _ => rfl) (fun _ => rfl) l
  | shrli a l => cases henc; exact wordIs_encodeRI5 (f := .shrli a) (fun _ => rfl) (fun _ => rfl) l
  | testi a m => cases henc; exact wordIs_encodeRI5 (f := .testi a) (fun _ => rfl) (fun _ => rfl) m
  | clri a m => cases henc; exact wordIs_encodeRI5 (f := .clri a) (fun _ => rfl) (fun _ => rfl) m
  | seti a m => cases henc; exact wordIs_encodeRI5 (f := .seti a) (fun _ => rfl) (fun _ => rfl) m
  | lw a n b =>
    cases henc
    obtain ⟨h8, h9⟩ : a ≠ 8 ∧ a ≠ 9 := by simpa [Instr.operandsEncodable] using hops
    exact wordIs_of_decodeNibbles (decodeNibbles_lw n b h8 h9)
  | sw n a b =>
    cases henc
    obtain ⟨h8, h9⟩ : b ≠ 8 ∧ b ≠ 9 := by simpa [Instr.operandsEncodable] using hops
    exact wordIs_of_decodeNibbles (decodeNibbles_sw n a h8 h9)
  | _ => cases henc; exact wordIs_of_decodeNibbles rfl

/-! ### From a word to the instruction: one lemma for each page of the opcode map -/

theorem hasWord_of_decodeNibbles4 (p : Config.Params) {n2 n1 n0 : BitVec 4} {i : Instr}
    (h : decodeNibbles4 n2 n1 n0 = some i) : i.HasWord p (ofNibbles 4 n2 n1 n0) := by
  unfold decodeNibbles4 at h
  split at h
  case h_11 => -- top byte 0x4B
    split at h
    case h_5 => -- h.nop
      split_ifs at h with hn1
      cases hn1
      cases h
      exact ⟨rfl, rfl⟩
    all_goals cases h <;> exact ⟨rfl, rfl⟩
  all_goals cases h <;> exact ⟨rfl, rfl⟩

theorem hasWord_of_decodeNibbles5 (p : Config.Params) {n2 n1 n0 : BitVec 4} {i : Instr}
    (h : decodeNibbles5 n2 n1 n0 = some i) : i.HasWord p (ofNibbles 5 n2 n1 n0) := by
  unfold decodeNibbles5 at h
  split at h <;> cases h <;> exact ⟨rfl, rfl⟩

theorem hasWord_of_decodeNibbles6 (p : Config.Params) {n2 n1 n0 : BitVec 4} {i : Instr}
    (h : decodeNibbles6 n2 n1 n0 = some i) : i.HasWord p (ofNibbles 6 n2 n1 n0) := by
  unfold decodeNibbles6 at h
  split at h <;> cases h <;> exact ⟨rfl, rfl⟩

theorem hasWord_of_decodeNibblesD (p : Config.Params) {n2 n1 n0 : BitVec 4} {i : Instr}
    (h : decodeNibblesD n2 n1 n0 = some i) : i.HasWord p (ofNibbles 0xD n2 n1 n0) := by
  unfold decodeNibblesD at h
  split at h
  case h_7 => -- h.rfe
    split_ifs at h with hzero
    obtain ⟨rfl, rfl⟩ := hzero
    cases h
    exact ⟨rfl, rfl⟩
  all_goals cases h <;> simp [Instr.HasWord, Instr.operandsEncodable, encode]

theorem hasWord_of_decodeNibblesE (p : Config.Params) {n2 n1 n0 : BitVec 4} {i : Instr}
    (h : decodeNibblesE n2 n1 n0 = some i) : i.HasWord p (ofNibbles 0xE n2 n1 n0) := by
  unfold decodeNibblesE at h
  split at h <;> cases h <;> simp [Instr.HasWord, Instr.operandsEncodable, encode]

theorem hasWord_of_decodeNibblesF (p : Config.Params) {n2 n1 n0 : BitVec 4} {i : Instr}
    (h : decodeNibblesF n2 n1 n0 = some i) : i.HasWord p (ofNibbles 0xF n2 n1 n0) := by
  unfold decodeNibblesF at h
  split at h <;> cases h <;> simp [Instr.HasWord, Instr.operandsEncodable, encode]

theorem hasWord_of_decodeNibbles (p : Config.Params) {n3 n2 n1 n0 : BitVec 4} {i : Instr}
    (h : decodeNibbles n3 n2 n1 n0 = some i) : i.HasWord p (ofNibbles n3 n2 n1 n0) := by
  unfold decodeNibbles at h
  split at h
  case h_1 => -- h.lhz, h.lbz, h.lw
    split at h
    case h_3 h8 h9 =>
      cases h
      exact ⟨rfl, by simpa [Instr.operandsEncodable] using ⟨h8, h9⟩⟩
    all_goals cases h; exact ⟨rfl, rfl⟩
  case h_2 => -- h.sh, h.sb, h.sw
    split at h
    case h_3 h8 h9 =>
      cases h
      exact ⟨rfl, by simpa [Instr.operandsEncodable] using ⟨h8, h9⟩⟩
    all_goals cases h; exact ⟨rfl, rfl⟩
  case h_5 => exact hasWord_of_decodeNibbles4 p h
  case h_6 => exact hasWord_of_decodeNibbles5 p h
  case h_7 => exact hasWord_of_decodeNibbles6 p h
  case h_14 => exact hasWord_of_decodeNibblesD p h
  case h_15 => exact hasWord_of_decodeNibblesE p h
  case h_16 =>
    have hF : n3 = 0xF := by revert n3; decide
    exact hF ▸ hasWord_of_decodeNibblesF p h
  all_goals cases h; simp [Instr.HasWord, Instr.operandsEncodable, encode]

/-! ### A row is read exactly where the encoder writes it -/

/-- The decoder reads exactly the words that the encoder writes for operands that can be encoded. -/
theorem decodeRow_eq_some_iff {p : Config.Params} {w : HalfWord} {i : Instr} :
    decodeRow p.opcMov w = some i ↔ i.HasWord p w := by
  obtain ⟨n3, n2, n1, n0, rfl⟩ := exists_nibbles w
  constructor
  · intro h
    rw [decodeRow_ofNibbles] at h
    split_ifs at h with hmov
    · obtain ⟨hopc, hreserved⟩ := hmov
      cases h
      exact hasWord_mov_iff.mpr ⟨_, hopc, hreserved, rfl⟩
    · exact hasWord_of_decodeNibbles p h
  · intro h
    by_cases hmov : ∃ a b, i = .mov a b
    · obtain ⟨a, b, rfl⟩ := hmov
      obtain ⟨k, hopc, hreserved, hw⟩ := hasWord_mov_iff.mp h
      rw [hw, ofNibbles_of_op8, decodeRow_ofNibbles, split8, if_pos ⟨hopc, hreserved⟩]
    · exact wordIs_of_hasWord (fun a b hi => hmov ⟨a, b, hi⟩) h p.opcMov

/-- Operands that can be encoded have a word; for h.mov they bring the `OPC_MOV` it needs (R109). -/
theorem exists_hasWord {p : Config.Params} {i : Instr} (h : i.operandsEncodable p = true) : ∃ w, i.HasWord p w := by
  cases i with
  | mov a b =>
    simp only [Instr.operandsEncodable] at h
    split at h
    case h_1 k hopc => exact ⟨_, hasWord_mov_iff.mpr ⟨k, hopc, h, rfl⟩⟩
    case h_2 => cases h
  | _ => exact ⟨_, rfl, h⟩

theorem wellFormed_iff {p : Config.Params} {i : Instr} :
    i.wellFormed p = true ↔ i.operandsEncodable p = true ∧ isImplemented p i = true := by
  simp [Instr.wellFormed]

/-- Settles O1: operands that can be encoded have a word, and the decoder reads what the encoder writes. -/
theorem decodeOfEncodeIsTheInstruction : Obligations.DecodeOfEncodeIsTheInstruction := by
  intro p i hwf
  obtain ⟨hops, himpl⟩ := wellFormed_iff.mp hwf
  obtain ⟨w, hw⟩ := exists_hasWord hops
  exact ⟨w, hw.1, decodeWord_eq_ok.mpr ⟨decodeRow_eq_some_iff.mpr hw, himpl⟩⟩

/-- Settles O2: the decoder reads only what the encoder writes. -/
theorem encodeOfDecodeIsTheWord : Obligations.EncodeOfDecodeIsTheWord := by
  intro p w i hdecode
  obtain ⟨hrow, himpl⟩ := decodeWord_eq_ok.mp hdecode
  obtain ⟨henc, hops⟩ := decodeRow_eq_some_iff.mp hrow
  exact ⟨henc, wellFormed_iff.mpr ⟨hops, himpl⟩⟩

/-- Settles O5: each word stands in the opcode map under a top byte that no `OPC_MOV` can take. -/
theorem largerMaskWinsOverlaps : Obligations.LargerMaskWinsOverlaps := by
  refine ⟨?lhz, ?lbz, ?lw, ?sh, ?sb, ?sw, ?nop, ?rfe⟩
  case lhz => exact fun n b => wordIs_of_decodeNibbles rfl
  case lbz => exact fun n b => wordIs_of_decodeNibbles rfl
  case lw => exact fun n a b h8 h9 => wordIs_of_decodeNibbles (decodeNibbles_lw n b h8 h9)
  case sh => exact fun n a => wordIs_of_decodeNibbles rfl
  case sb => exact fun n a => wordIs_of_decodeNibbles rfl
  case sw => exact fun n a b h8 h9 => wordIs_of_decodeNibbles (decodeNibbles_sw n a h8 h9)
  case nop => exact wordIs_nop
  case rfe => exact wordIs_rfe

/-- Settles O6: 0xE0 is no reserved top byte, so the opcode map reads its words; h.mov is read where it has a word. -/
theorem topByteE0IsNotuAndMovNeedsAnOpcode : Obligations.TopByteE0IsNotuAndMovNeedsAnOpcode := by
  constructor
  · intro a b
    rw [ofNibbles_of_op8]
    exact wordIs_of_decodeNibbles rfl
  · intro o w a b
    exact (decodeRow_eq_some_iff (p := { Config.resetParams with opcMov := o })).trans hasWord_mov_iff

/-! ### The reserved words (R108) -/

/-- The reserved words, by nibbles: a wholly reserved top byte, or a gap under the top bytes 0x4B and 0xD9. -/
def IsReservedByNibbles (n3 n2 n1 n0 : BitVec 4) : Prop :=
  isReservedTopByte (n3 ++ n2) = true ∨
  (n3 = 0x4 ∧ n2 = 0xB ∧ (7 ≤ n0 ∨ n0 = 4 ∧ n1 ≠ 0)) ∨
  (n3 = 0xD ∧ n2 = 0x9 ∧ ¬ (n1 = 0 ∧ n0 = 0))

/-! #### Page by page, the last case of each being the nibbles that no row of the page names -/

theorem decodeNibbles4_eq_none {n2 n1 n0 : BitVec 4} (h : decodeNibbles4 n2 n1 n0 = none) :
    IsReservedByNibbles 4 n2 n1 n0 := by
  unfold decodeNibbles4 at h
  split at h
  case h_11 => -- top byte 0x4B
    split at h
    case h_5 => -- the row of h.nop
      split_ifs at h with hn1
      exact .inr (.inl ⟨rfl, rfl, .inr ⟨rfl, hn1⟩⟩)
    case h_8 => -- the rows after h.jr
      have h7 : 7 ≤ n0 := by revert n0; decide
      exact .inr (.inl ⟨rfl, rfl, .inl h7⟩)
    all_goals cases h
  case h_16 => exact .inl (by revert n2; decide)
  all_goals cases h

theorem decodeNibbles5_eq_none {n2 n1 n0 : BitVec 4} (h : decodeNibbles5 n2 n1 n0 = none) :
    IsReservedByNibbles 5 n2 n1 n0 := by
  unfold decodeNibbles5 at h
  split at h
  case h_6 => exact .inl (by revert n2; decide)
  all_goals cases h

theorem decodeNibbles6_eq_none {n2 n1 n0 : BitVec 4} (h : decodeNibbles6 n2 n1 n0 = none) :
    IsReservedByNibbles 6 n2 n1 n0 := by
  unfold decodeNibbles6 at h
  split at h
  case h_7 => exact .inl (by revert n2; decide)
  all_goals cases h

theorem decodeNibblesD_eq_none {n2 n1 n0 : BitVec 4} (h : decodeNibblesD n2 n1 n0 = none) :
    IsReservedByNibbles 0xD n2 n1 n0 := by
  unfold decodeNibblesD at h
  split at h
  case h_7 => -- h.rfe
    split_ifs at h with hzero
    exact .inr (.inr ⟨rfl, rfl, hzero⟩)
  case h_13 => exact .inl (by revert n2; decide)
  all_goals cases h

theorem decodeNibblesE_eq_none {n2 n1 n0 : BitVec 4} (h : decodeNibblesE n2 n1 n0 = none) :
    IsReservedByNibbles 0xE n2 n1 n0 := by
  unfold decodeNibblesE at h
  split at h
  case h_14 => exact .inl (by revert n2; decide)
  all_goals cases h

theorem decodeNibblesF_ne_none (n2 n1 n0 : BitVec 4) : decodeNibblesF n2 n1 n0 ≠ none := by
  intro h
  unfold decodeNibblesF at h
  split at h
  case h_17 => revert n2; decide
  all_goals cases h

/-- The words the opcode map leaves out, whatever `OPC_MOV` adds. -/
theorem decodeNibbles_eq_none_iff {n3 n2 n1 n0 : BitVec 4} :
    decodeNibbles n3 n2 n1 n0 = none ↔ IsReservedByNibbles n3 n2 n1 n0 := by
  constructor
  · intro h
    unfold decodeNibbles at h
    split at h
    case h_1 => split at h <;> cases h
    case h_2 => split at h <;> cases h
    case h_5 => exact decodeNibbles4_eq_none h
    case h_6 => exact decodeNibbles5_eq_none h
    case h_7 => exact decodeNibbles6_eq_none h
    case h_14 => exact decodeNibblesD_eq_none h
    case h_15 => exact decodeNibblesE_eq_none h
    case h_16 => exact absurd h (decodeNibblesF_ne_none n2 n1 n0)
    all_goals cases h
  · rintro (htop | ⟨rfl, rfl, h⟩ | ⟨rfl, rfl, h⟩)
    · exact decodeNibbles_of_reservedTopByte n1 n0 htop
    · show decodeNibbles4 0xB n1 n0 = none
      obtain h7 | ⟨rfl, h0⟩ := h
      · revert n1 n0
        decide
      · exact if_neg h0
    · exact if_neg h

/-! #### The list of R108, by nibbles -/

theorem toNat_append_nibble {n : Nat} (x : BitVec n) (y : BitVec 4) : (x ++ y).toNat = 16 * x.toNat + y.toNat := by
  rw [BitVec.toNat_append, ← Nat.shiftLeft_add_eq_or_of_lt y.isLt, Nat.shiftLeft_eq]
  omega

theorem ofNibbles_toNat (n3 n2 n1 n0 : BitVec 4) :
    (ofNibbles n3 n2 n1 n0).toNat = 256 * (n3 ++ n2).toNat + (16 * n1.toNat + n0.toNat) := by
  rw [ofNibbles, toNat_append_nibble, toNat_append_nibble]
  omega

theorem isReservedTopByte_iff (k : Byte) : isReservedTopByte k = true ↔
    k.toNat = 0x4A ∨ k.toNat = 0x50 ∨ k.toNat = 0x51 ∨ k.toNat = 0x52 ∨ (0x58 ≤ k.toNat ∧ k.toNat ≤ 0x5F) ∨
    k.toNat = 0x60 ∨ k.toNat = 0x61 ∨ k.toNat = 0x62 ∨ (0x69 ≤ k.toNat ∧ k.toNat ≤ 0x6F) ∨
    k.toNat = 0xD1 ∨ k.toNat = 0xD4 ∨ k.toNat = 0xD6 ∨ k.toNat = 0xDF ∨
    k.toNat = 0xE7 ∨ k.toNat = 0xE8 ∨ k.toNat = 0xE9 := by
  revert k; decide

theorem isListedReserved_ofNibbles_iff {n3 n2 n1 n0 : BitVec 4} :
    isListedReserved (ofNibbles n3 n2 n1 n0) = true ↔ IsReservedByNibbles n3 n2 n1 n0 := by
  have hn1 := n1.isLt
  have hn0 := n0.isLt
  have hdiv : (ofNibbles n3 n2 n1 n0).toNat / 256 = (n3 ++ n2).toNat := by rw [ofNibbles_toNat]; omega
  have hmod : (ofNibbles n3 n2 n1 n0).toNat % 256 = 16 * n1.toNat + n0.toNat := by rw [ofNibbles_toNat]; omega
  have h4B : ∀ a b : BitVec 4, (a ++ b).toNat = 0x4B ↔ a = 4 ∧ b = 0xB := by decide
  have hD9 : ∀ a b : BitVec 4, (a ++ b).toNat = 0xD9 ↔ a = 0xD ∧ b = 9 := by decide
  have hrow : (16 * n1.toNat + n0.toNat) % 16 = n0.toNat := by omega
  have hgap4B : 7 ≤ n0.toNat ∨ n0.toNat = 4 ∧ (16 * n1.toNat + n0.toNat) / 16 ≠ 0 ↔ 7 ≤ n0 ∨ n0 = 4 ∧ n1 ≠ 0 := by
    bv_omega
  have hgapD9 : 16 * n1.toNat + n0.toNat ≠ 0 ↔ ¬ (n1 = 0 ∧ n0 = 0) := by bv_omega
  rw [IsReservedByNibbles, isReservedTopByte_iff, ← hgap4B, ← hgapD9, ← and_assoc, ← and_assoc, ← h4B, ← hD9]
  simp only [isListedReserved, hdiv, hmod, hrow, Bool.or_eq_true, Bool.and_eq_true, beq_iff_eq, bne_iff_ne,
    decide_eq_true_eq]
  exact iff_of_eq (by ac_rfl)

theorem decodeRow_none_ofNibbles (n3 n2 n1 n0 : BitVec 4) :
    decodeRow none (ofNibbles n3 n2 n1 n0) = decodeNibbles n3 n2 n1 n0 := by
  simp [decodeRow_ofNibbles]

theorem decodeRow_none_eq_none_iff (w : HalfWord) : decodeRow none w = none ↔ isListedReserved w = true := by
  obtain ⟨n3, n2, n1, n0, rfl⟩ := exists_nibbles w
  rw [decodeRow_none_ofNibbles, decodeNibbles_eq_none_iff, isListedReserved_ofNibbles_iff]

theorem decodeWord_of_decodeRow_none {p : Config.Params} {w : HalfWord} (h : decodeRow p.opcMov w = none) :
    decodeWord p w = .error .reserved := by
  simp [decodeWord, h]

/-- Settles O3: the opcode map has no instruction exactly at the listed words, and a word that is none or absent stops
the step in the decoder. -/
theorem reservedWordsAreExactlyTheListed : Obligations.ReservedWordsAreExactlyTheListed := by
  refine ⟨decodeRow_none_eq_none_iff, ?listed, fun s w i => Machine.step_of_not_implemented⟩
  case listed =>
    intro s w hopc hfetch hlisted
    have hrow : decodeRow s.params.opcMov w = none := by
      rw [hopc]
      exact (decodeRow_none_eq_none_iff w).mpr hlisted
    exact Machine.step_of_decodeWord_error hfetch (decodeWord_of_decodeRow_none hrow)

/-! ### The words of a table -/

/-- After reset no instruction is absent. -/
theorem isImplemented_resetParams (i : Instr) : isImplemented Config.resetParams i = true := by
  unfold isImplemented
  split
  · rfl
  · rfl

theorem decodeWord_resetParams (w : HalfWord) :
    decodeWord Config.resetParams w = (decodeRow none w).elim (.error .reserved) .ok := by
  unfold decodeWord
  cases h : decodeRow none w with
  | none => simp [h, show Config.resetParams.opcMov = none from rfl]
  | some i => simp [h, show Config.resetParams.opcMov = none from rfl, isImplemented_resetParams]

/-- A table word is read by its row alone: the two bytes make up the word again, and after reset nothing is absent
(log 21). -/
theorem decodeTableWord_eq_decodeRow (n : Nat) : decodeTableWord 16 n = decodeRow none (BitVec.ofNat 16 n) := by
  have hword : halfWordOfBytes .big ((BitVec.ofNat 32 (n % 2 ^ 16)).extractLsb' 8 8)
      ((BitVec.ofNat 32 (n % 2 ^ 16)).extractLsb' 0 8) = BitVec.ofNat 16 n := by
    have h := Machine.ofBytes_toBytes_halfWord .big (BitVec.ofNat 16 n)
    rwa [BitVec.toNat_ofNat, Nat.mod_mod] at h
  simp only [decodeTableWord, show Config.resetParams.byteOrder = .big from rfl, Machine.toBytes_big_two, decodeBytes,
    hword, decodeWord_resetParams]
  cases decodeRow none (BitVec.ofNat 16 n) <;> rfl

/-- The word written out for an instruction is the one the encoder gives it. -/
theorem decodeTableWord_of_hasWord {n : Nat} {i : Instr}
    (h : i.HasWord Config.resetParams (BitVec.ofNat 16 n)) : decodeTableWord 16 n = some i :=
  (decodeTableWord_eq_decodeRow n).trans (decodeRow_eq_some_iff.mpr h)

/-- Settles O7: each word is the one the encoder gives its instruction, and the last one is listed as reserved. -/
theorem specWordsDecode : Obligations.SpecWordsDecode := by
  unfold Obligations.SpecWordsDecode
  and_intros
  on_goal 18 => exact (decodeTableWord_eq_decodeRow _).trans ((decodeRow_none_eq_none_iff _).mpr rfl)
  all_goals exact decodeTableWord_of_hasWord ⟨rfl, rfl⟩

end Sys2Proof

/-! ## The ten compares (40_compare.md R130 to R139) -/

namespace Sys2Proof.Machine

/-! ### What each writes into F, by the orders of bit vectors; a compare for "greater" is one with its operands swapped -/

theorem flagEq_eq_decide (x y : Word) : flagEq x y = decide (x = y) :=
  beq_eq_decide x y

theorem not_flagEq_eq_decide (x y : Word) : (!flagEq x y) = decide (x ≠ y) := by
  rw [flagEq_eq_decide, ← decide_not]

theorem flagLts_eq_slt (x y : Word) : flagLts x y = x.slt y :=
  BitVec.slt_eq_decide.symm

theorem flagLes_eq_sle (x y : Word) : flagLes x y = x.sle y :=
  BitVec.sle_eq_decide.symm

theorem flagGts_eq_slt (x y : Word) : flagGts x y = y.slt x :=
  flagLts_eq_slt y x

theorem flagGes_eq_sle (x y : Word) : flagGes x y = y.sle x :=
  flagLes_eq_sle y x

theorem flagLtu_eq_ult (x y : Word) : flagLtu x y = x.ult y :=
  BitVec.ult_eq_decide.symm

theorem flagLeu_eq_ule (x y : Word) : flagLeu x y = x.ule y :=
  BitVec.ule_eq_decide.symm

theorem flagGtu_eq_ult (x y : Word) : flagGtu x y = y.ult x :=
  flagLtu_eq_ult y x

theorem flagGeu_eq_ule (x y : Word) : flagGeu x y = y.ule x :=
  flagLeu_eq_ule y x

/-! ### From the opcode map and the meaning to the word and the next state -/

/-- A word of format RR (R92): top byte, rA, rB. -/
theorem wordIs_of_op8 {k : Byte} {a b : RegId} {i : Instr}
    (h : decodeNibbles (k.extractLsb' 4 4) (k.extractLsb' 0 4) a b = some i) : WordIs (k ++ a ++ b) i := by
  rw [ofNibbles_of_op8]
  exact wordIs_of_decodeNibbles h

/-- The template of R130 to R139: an instruction of format RR whose meaning is a compare. -/
theorem compare_at_op8 {k : Byte} {a b : RegId} {i : Instr} {s : State} {c f : Bool}
    (hword : decodeNibbles (k.extractLsb' 4 4) (k.extractLsb' 0 4) a b = some i)
    (hexec : exec i s = s.compare c) (hflag : c = f) :
    WordIs (k ++ a ++ b) i ∧ exec i s = .next { s with f := f }.advance := by
  subst hflag
  exact ⟨wordIs_of_op8 hword, hexec⟩

/-- Settles O22: each compare stands in the opcode map under its top byte, and what it writes into F is its order. -/
theorem comparesWriteTheFlag : Obligations.ComparesWriteTheFlag := by
  intro s a b
  refine ⟨?sfeq, ?sfne, ?sfgts, ?sfges, ?sflts, ?sfles, ?sfgtu, ?sfgeu, ?sfltu, ?sfleu⟩
  case sfeq => exact compare_at_op8 rfl rfl (flagEq_eq_decide _ _)
  case sfne => exact compare_at_op8 rfl rfl (not_flagEq_eq_decide _ _)
  case sfgts => exact compare_at_op8 rfl rfl (flagGts_eq_slt _ _)
  case sfges => exact compare_at_op8 rfl rfl (flagGes_eq_sle _ _)
  case sflts => exact compare_at_op8 rfl rfl (flagLts_eq_slt _ _)
  case sfles => exact compare_at_op8 rfl rfl (flagLes_eq_sle _ _)
  case sfgtu => exact compare_at_op8 rfl rfl (flagGtu_eq_ult _ _)
  case sfgeu => exact compare_at_op8 rfl rfl (flagGeu_eq_ule _ _)
  case sfltu => exact compare_at_op8 rfl rfl (flagLtu_eq_ult _ _)
  case sfleu => exact compare_at_op8 rfl rfl (flagLeu_eq_ule _ _)

end Sys2Proof.Machine

/-! ## The four extensions and h.nop (41_extend_nop.md R150 to R154) -/

namespace Sys2Proof.Machine

/-! ### The low `k` bits of a word, made a word again -/

/-- By the sign, the bits above repeat the highest bit kept. -/
theorem getLsbD_signExtend_low (x : Word) {k i : Nat} (hk : 0 < k) (hi : i < 32) :
    ((x.extractLsb' 0 k).signExtend 32).getLsbD i = x.getLsbD (if i < k then i else k - 1) := by
  rw [BitVec.getLsbD_signExtend, BitVec.msb_eq_getLsbD_last, BitVec.getLsbD_extractLsb', BitVec.getLsbD_extractLsb']
  by_cases hlow : i < k
  · simp [hi, hlow]
  · simp [hi, hlow, hk]

/-- By zeros, what is kept is the remainder. -/
theorem toNat_setWidth_low (x : Word) {k : Nat} (hk : k ≤ 32) :
    ((x.extractLsb' 0 k).setWidth 32).toNat = x.toNat % 2 ^ k := by
  rw [BitVec.toNat_setWidth_of_le hk, BitVec.extractLsb'_toNat, Nat.shiftRight_zero]

/-! ### From the opcode map and the meaning to the word and the next state -/

/-- The template of an instruction under a top byte of its own or a row of one, whose meaning writes one general
register: its word, and its value by a property of it. -/
theorem writeResult_at_op8 {k : Byte} {a b d : RegId} {i : Instr} {s : State} {x : Word} {P : Word → Prop}
    (hword : decodeNibbles (k.extractLsb' 4 4) (k.extractLsb' 0 4) a b = some i)
    (hexec : exec i s = s.writeResult d x) (hvalue : P x) :
    WordIs (k ++ a ++ b) i ∧ ∃ v, exec i s = .next (s.setReg d v).advance ∧ P v :=
  ⟨wordIs_of_op8 hword, x, hexec, hvalue⟩

/-- Settles O23: each extension stands in a row under the top byte 0x4B, and the value it writes is the low half word
or byte of rA, widened by the sign or by zeros. -/
theorem extensionsFillTheHighBits : Obligations.ExtensionsFillTheHighBits := by
  intro s a
  refine ⟨?exths, ?exthz, ?extbs, ?extbz⟩
  case exths => exact writeResult_at_op8 rfl rfl fun _ => getLsbD_signExtend_low _ (by decide)
  case exthz => exact writeResult_at_op8 rfl rfl (toNat_setWidth_low _ (by decide))
  case extbs => exact writeResult_at_op8 rfl rfl fun _ => getLsbD_signExtend_low _ (by decide)
  case extbz => exact writeResult_at_op8 rfl rfl (toNat_setWidth_low _ (by decide))

/-! ### The advance of the pc in and out of a delay slot (10_state.md R23) -/

theorem State.advance_of_no_delay {s : State} (h : s.delay = none) : s.advance = { s with pc := s.pc + 2 } := by
  simp [State.advance, h]

theorem State.advance_of_delay {s : State} {t : Word} (h : s.delay = some t) :
    s.advance = { s with pc := t, delay := none } := by
  simp [State.advance, h]

theorem exec_nop (s : State) : exec .nop s = .next s.advance := rfl

/-- Settles O24: h.nop is the advance of the pc and nothing else. -/
theorem nopChangesOnlyThePc : Obligations.NopChangesOnlyThePc := by
  refine ⟨wordIs_nop, fun s => ⟨?sequence, ?delaySlot⟩⟩
  case sequence =>
    intro hdelay
    rw [exec_nop, State.advance_of_no_delay hdelay]
  case delaySlot =>
    intro t hdelay
    rw [exec_nop, State.advance_of_delay hdelay]

end Sys2Proof.Machine

/-! ## Addition, subtraction, negation (42_arith.md R160 to R167) -/

namespace Sys2Proof.Machine

/-! ### The 33-bit sum (R167): its low 32 bits by the operations of words, its bit 32 by an order of numbers -/

theorem addWithCarry_eq (x y : Word) (c : Bool) :
    addWithCarry x y c =
      (x + y + BitVec.ofNat 32 c.toNat, decide (2 ^ 32 ≤ x.toNat + y.toNat + c.toNat)) := by
  simp [addWithCarry, BitVec.ofNat_add]

theorem addWithCarry_false (x y : Word) :
    addWithCarry x y false = (x + y, decide (2 ^ 32 ≤ x.toNat + y.toNat)) := by
  simp [addWithCarry_eq]

/-- A difference as a sum with the inverted value (R165). -/
theorem add_not_add_one {n : Nat} (x y : BitVec n) : x + ~~~y + 1 = x - y := by
  rw [BitVec.sub_eq_add_neg, BitVec.neg_eq_not_add, BitVec.add_assoc]
  rfl

theorem subWithCarry_eq (x y : Word) (c : Bool) :
    subWithCarry x y c =
      (x - y + BitVec.ofNat 32 c.toNat - 1, decide (y.toNat + 1 ≤ x.toNat + c.toNat)) := by
  have hvalue : x + ~~~y + BitVec.ofNat 32 c.toNat = x - y + BitVec.ofNat 32 c.toNat - 1 := by
    rw [← add_not_add_one x y]
    ring
  have hcarry : 2 ^ 32 ≤ x.toNat + (~~~y).toNat + c.toNat ↔ y.toNat + 1 ≤ x.toNat + c.toNat := by
    rw [BitVec.toNat_not]
    omega
  rw [subWithCarry, addWithCarry_eq, hvalue, decide_eq_decide.mpr hcarry]

/-- Without a borrow to take off, the carry says that there is none. -/
theorem subWithCarry_true (x y : Word) : subWithCarry x y true = (x - y, decide (y.toNat ≤ x.toNat)) := by
  simp [subWithCarry_eq]

/-! ### What a sum written leaves in the next state, under each policy for CARRY -/

/-- A write of CARRY is a write of it and of the count of free values; under the conventional policy of it alone. -/
theorem State.writeCarry_eq (s : State) (c : Bool) :
    ∃ c' k, s.writeCarry c = { s with cy := c', draws := k } ∧
      (s.params.carryPolicy = .conventional → c' = c ∧ k = s.draws) := by
  cases h : s.params.carryPolicy with
  | conventional => exact ⟨c, s.draws, by simp [State.writeCarry, h], fun _ => ⟨rfl, rfl⟩⟩
  | havoc => exact ⟨s.drawBit.1, s.draws + 1, by simp [State.writeCarry, h, State.drawBit], nofun⟩

/-- The template of R160 to R165: an instruction whose meaning writes a sum and its carry. -/
theorem exec_of_writeSum {i : Instr} {s : State} {a : RegId} {r : Word × Bool} {v : Word} {f : Bool}
    (hexec : exec i s = s.writeSum a r) (hr : r = (v, f)) :
    ∃ c k, exec i s = .next { s.setReg a v with cy := c, draws := k }.advance ∧
      (s.params.carryPolicy = .conventional → c = f ∧ k = s.draws) := by
  subst hr
  obtain ⟨c, k, hwrite, hpolicy⟩ := (s.setReg a v).writeCarry_eq f
  exact ⟨c, k, by rw [hexec, State.writeSum, hwrite], hpolicy⟩

theorem State.getReg_of_writeSum {s t : State} {a : RegId} {r : Word × Bool} (q : RegId)
    (h : s.writeSum a r = .next t) : t.getReg q = if q = a then r.1 else s.getReg q := by
  rw [State.writeSum_eq_next.mp h, State.advance_getReg, State.writeCarry_getReg, State.getReg_setReg]

theorem State.cy_of_writeSum {s t : State} {a : RegId} {r : Word × Bool}
    (hpolicy : s.params.carryPolicy = .conventional) (h : s.writeSum a r = .next t) : t.cy = r.2 := by
  rw [State.writeSum_eq_next.mp h, State.advance_cy, State.writeCarry, State.setReg_params, hpolicy]

/-! ### Two sums chained through CARRY (R167) -/

/-- A chain's two results are the operation on the low words and, with the carry of that, on the high words: the low
destination is none of the registers the high instruction reads or writes. -/
theorem State.getReg_append_of_chain (op : Word → Word → Bool → Word × Bool) {s t u : State} {ah al bh bl : RegId}
    {c : Bool} (hpolicy : s.params.carryPolicy = .conventional) (hah : al ≠ ah) (hbh : al ≠ bh)
    (hlow : s.writeSum al (op (s.getReg al) (s.getReg bl) c) = .next t)
    (hhigh : t.writeSum ah (op (t.getReg ah) (t.getReg bh) t.cy) = .next u) :
    u.getReg ah ++ u.getReg al =
      (op (s.getReg ah) (s.getReg bh) (op (s.getReg al) (s.getReg bl) c).2).1 ++
        (op (s.getReg al) (s.getReg bl) c).1 := by
  rw [State.getReg_of_writeSum ah hhigh, State.getReg_of_writeSum al hhigh, if_pos rfl, if_neg hah,
    State.cy_of_writeSum hpolicy hlow, State.getReg_of_writeSum ah hlow, State.getReg_of_writeSum bh hlow,
    State.getReg_of_writeSum al hlow, if_neg hah.symm, if_neg hbh.symm, if_pos rfl]

theorem toNat_append_word (x y : Word) : (x ++ y).toNat = 2 ^ 32 * x.toNat + y.toNat := by
  rw [BitVec.toNat_append, ← Nat.shiftLeft_add_eq_or_of_lt y.isLt, Nat.shiftLeft_eq, Nat.mul_comm]

/-- Bit 32 of the low sum, added to the high words, makes the sum of the 64-bit values. -/
theorem addWithCarry_append (xh xl yh yl : Word) (c : Bool) :
    (addWithCarry xh yh (addWithCarry xl yl c).2).1 ++ (addWithCarry xl yl c).1 =
      (xh ++ xl) + (yh ++ yl) + BitVec.ofNat 64 c.toNat := by
  apply BitVec.eq_of_toNat_eq
  simp only [BitVec.toNat_add, toNat_append_word, addWithCarry, BitVec.toNat_ofNat]
  have hc := c.toNat_le
  by_cases hcarry : 2 ^ 32 ≤ xl.toNat + yl.toNat + c.toNat
  · simp only [hcarry, decide_true, Bool.toNat_true]
    omega
  · simp only [hcarry, decide_false, Bool.toNat_false]
    omega

/-- A difference is the sum with the inverted value, which is inverted word by word. -/
theorem subWithCarry_append (xh xl yh yl : Word) :
    (subWithCarry xh yh (subWithCarry xl yl true).2).1 ++ (subWithCarry xl yl true).1 =
      (xh ++ xl) - (yh ++ yl) := by
  rw [← add_not_add_one, BitVec.not_append]
  exact addWithCarry_append xh xl (~~~yh) (~~~yl) true

/-- Settles O28: the chain of the two instructions is the chain of their 33-bit sums, which is the 64-bit sum or
difference. -/
theorem carryChainsToSixtyFourBits : Obligations.CarryChainsToSixtyFourBits := by
  intro s t u ah al bh bl hpolicy hah hbh
  constructor
  case left =>
    intro hlow hhigh
    rw [State.getReg_append_of_chain addWithCarry hpolicy hah hbh hlow hhigh, addWithCarry_append]
    exact BitVec.add_zero _
  case right =>
    intro hlow hhigh
    rw [State.getReg_append_of_chain subWithCarry hpolicy hah hbh hlow hhigh, subWithCarry_append]

/-! ### The statements of each instruction -/

/-- Settles O25: each is a 33-bit sum, of the words (no carry in) or of the one word and the other inverted (carry
in). -/
theorem addsAndSubtractsModuloWithCarryOut : Obligations.AddsAndSubtractsModuloWithCarryOut := by
  intro s a b d
  refine ⟨⟨?addsWord, ?adds⟩, ⟨wordIs_of_op8 rfl, ?subs⟩, ⟨wordIs_of_op8 rfl, ?addu⟩, wordIs_of_op8 rfl, ?subu⟩
  case addsWord => exact wordIs_of_decodeNibbles (n3 := 0x7) rfl
  case adds => exact exec_of_writeSum rfl (addWithCarry_false _ _)
  case subs => exact exec_of_writeSum rfl (subWithCarry_true _ _)
  case addu => exact exec_of_writeSum rfl (addWithCarry_false _ _)
  case subu => exact exec_of_writeSum rfl (subWithCarry_true _ _)

/-- Settles O26: as O25, with CARRY as the carry in. -/
theorem addAndSubtractUseTheCarry : Obligations.AddAndSubtractUseTheCarry := by
  intro s a b
  refine ⟨⟨wordIs_of_op8 rfl, ?addwcs⟩, wordIs_of_op8 rfl, ?subwcs⟩
  case addwcs =>
    obtain ⟨c, k, hnext, hcarry⟩ := exec_of_writeSum (i := .addwcs a b) (s := s) rfl (addWithCarry_eq _ _ _)
    exact ⟨_, c, k, hnext, rfl, hcarry⟩
  case subwcs =>
    obtain ⟨c, k, hnext, hcarry⟩ := exec_of_writeSum (i := .subwcs a b) (s := s) rfl (subWithCarry_eq _ _ _)
    exact ⟨_, c, k, hnext, rfl, hcarry⟩

/-- Settles O27: the inverted word plus 1 is the additive inverse. -/
theorem negationIsTwosComplement : Obligations.NegationIsTwosComplement := by
  intro s a b
  have hneg : ~~~(s.getReg b) + 1 = -s.getReg b := (BitVec.neg_eq_not_add _).symm
  exact writeResult_at_op8 (P := (· + s.getReg b = 0)) rfl rfl (by rw [hneg]; exact BitVec.add_left_neg _)

end Sys2Proof.Machine

/-! ## Branches and jumps (43_branch_jump.md R180 to R188) -/

namespace Sys2Proof.Machine

/-! ### A control transfer in a delay slot (R187) -/

theorem State.branch_in_delay_slot {s : State} {a : Word} (h : s.delay = some a) (c : Bool) (t : Word) :
    s.branch c t = .fault .controlTransferInDelaySlot := by
  simp [State.branch, h]

theorem State.delayedJump_in_delay_slot {s : State} {a : Word} (h : s.delay = some a) (t : Word) :
    s.delayedJump t = .fault .controlTransferInDelaySlot := by
  simp [State.delayedJump, h]

theorem State.delayedJumpToRegister_in_delay_slot {s : State} {a : Word} (h : s.delay = some a) (t : Word) :
    s.delayedJumpToRegister t = .fault .controlTransferInDelaySlot := by
  simp [State.delayedJumpToRegister, h]

theorem State.takeException_in_delay_slot {s : State} {a : Word} (h : s.delay = some a) (e : Exc) :
    s.takeException e = .fault .controlTransferInDelaySlot := by
  simp [State.takeException, h]

theorem exec_controlTransfer_in_delay_slot {i : Instr} {s : State} {a : Word} (h : s.delay = some a)
    (hi : isControlTransfer i = true) : exec i s = .fault .controlTransferInDelaySlot := by
  have hlink : s.link.delay = some a := (State.link_delay s).trans h
  cases i with
  | bnf x | bf x => exact State.branch_in_delay_slot h _ _
  | jmp x => exact State.delayedJump_in_delay_slot h _
  | jal x => exact State.delayedJump_in_delay_slot hlink _
  | jr r => exact State.delayedJumpToRegister_in_delay_slot h _
  | jalr r => exact State.delayedJumpToRegister_in_delay_slot hlink _
  | sys m | brk m => exact State.takeException_in_delay_slot h _
  | _ => cases hi

/-- In Supervisor mode h.rfe goes on as an instruction that transfers no control does (45_system.md R212). -/
theorem exec_rfe_of_supervisor {s : State} (hmode : s.mode = .supervisor) :
    exec .rfe s = .next { s with mode := .user }.advance :=
  State.privileged_of_supervisor _ hmode

/-- Settles O19: each control transfer is a branch, a jump or an exception, whose check for a delay slot comes first;
h.rfe goes on in sequence, which in a delay slot is at the target. -/
theorem controlTransferInADelaySlotFaults : Obligations.ControlTransferInADelaySlotFaults := by
  refine ⟨fun i s a hdelay hi => exec_controlTransfer_in_delay_slot hdelay hi, ?rfe⟩
  case rfe =>
    intro s a hdelay hmode
    rw [exec_rfe_of_supervisor hmode, State.advance_of_delay (s := { s with mode := .user }) hdelay]

/-! ### A jump to an odd address (R188) -/

theorem toNat_mod_two_eq_one_iff (v : Word) : v.toNat % 2 = 1 ↔ v.getLsbD 0 = true := by
  rw [← Nat.mod_two_ne_zero, ne_eq, toNat_mod_two_eq_zero_iff, Bool.not_eq_false]

theorem State.delayedJumpToRegister_of_odd {s : State} {t : Word} (hdelay : s.delay = none)
    (hodd : t.toNat % 2 = 1) : s.delayedJumpToRegister t = .fault .oddJumpTarget := by
  simp [State.delayedJumpToRegister, hdelay, (toNat_mod_two_eq_one_iff t).mp hodd]

theorem exec_jr_of_odd {s : State} {a : RegId} (hdelay : s.delay = none) (hodd : (s.getReg a).toNat % 2 = 1) :
    exec (.jr a) s = .fault .oddJumpTarget :=
  State.delayedJumpToRegister_of_odd hdelay hodd

theorem exec_jalr_of_odd {s : State} {a : RegId} (hdelay : s.delay = none) (hodd : (s.getReg a).toNat % 2 = 1) :
    exec (.jalr a) s = .fault .oddJumpTarget :=
  State.delayedJumpToRegister_of_odd ((State.link_delay s).trans hdelay) hodd

/-- Settles O20: both jumps to a register check its low bit; a displacement is even, and so is its sum with an even
pc. -/
theorem oddRegisterTargetsFault : Obligations.OddRegisterTargetsFault :=
  ⟨fun _ _ hdelay hodd => ⟨exec_jr_of_odd hdelay hodd, exec_jalr_of_odd hdelay hodd⟩,
    fun _ x hpc => State.relativeTarget_even hpc x⟩

/-! ### The words of format J12 (R96) and their targets (R111) -/

theorem encodeJ12_eq_append (n3 : BitVec 4) (x : BitVec 12) : encodeJ12 n3 x = n3 ++ x := by
  conv_rhs => rw [← split12 x]
  simp only [encodeJ12, ofNibbles, BitVec.append_assoc, BitVec.cast_eq]

/-- A word of format J12: its top nibble, X. -/
theorem wordIs_of_op4 {n3 : BitVec 4} {f : BitVec 12 → Instr}
    (h : ∀ n2 n1 n0, decodeNibbles n3 n2 n1 n0 = some (f (n2 ++ n1 ++ n0))) (x : BitVec 12) :
    WordIs (n3 ++ x) (f x) :=
  encodeJ12_eq_append n3 x ▸ wordIs_encodeJ12 h x

/-- The field with a zero bit appended, as a number, is twice the field. -/
theorem displacement_eq (x : BitVec 12) : displacement x = BitVec.ofInt 32 (2 * x.toInt) := by
  have htwice : (x ++ 0#1).toInt = 2 * x.toInt := BitVec.toInt_append_zero
  rw [displacement, BitVec.signExtend, htwice]

theorem State.relativeTarget_eq (s : State) (x : BitVec 12) :
    s.relativeTarget x = s.pc + BitVec.ofInt 32 (2 * x.toInt) := by
  rw [State.relativeTarget, displacement_eq]

/-! ### Branches outside a delay slot (R180, R181) -/

theorem State.branch_of_no_delay {s : State} (h : s.delay = none) (c : Bool) (t : Word) :
    s.branch c t = .next { s with pc := if c then t else s.pc + 2 } := by
  refine State.branch_eq_next.mpr ⟨h, ?_⟩
  cases c with
  | true => rfl
  | false => exact (State.advance_of_no_delay h).symm

theorem exec_bf_of_no_delay {s : State} (h : s.delay = none) (x : BitVec 12) :
    exec (.bf x) s = .next { s with pc := if s.f then s.pc + BitVec.ofInt 32 (2 * x.toInt) else s.pc + 2 } := by
  rw [← State.relativeTarget_eq]
  exact State.branch_of_no_delay h _ _

theorem exec_bnf_of_no_delay {s : State} (h : s.delay = none) (x : BitVec 12) :
    exec (.bnf x) s = .next { s with pc := if s.f then s.pc + 2 else s.pc + BitVec.ofInt 32 (2 * x.toInt) } := by
  have hbranch : exec (.bnf x) s = .next { s with pc := if !s.f then s.relativeTarget x else s.pc + 2 } :=
    State.branch_of_no_delay h _ _
  rw [hbranch, State.relativeTarget_eq]
  cases s.f <;> rfl

/-- Settles O29: each stands in the opcode map under its top nibble, and is a branch on F or on its negation. -/
theorem branchesGoByTheFlag : Obligations.BranchesGoByTheFlag := by
  intro s x hdelay
  exact ⟨⟨wordIs_of_op4 (fun _ _ _ => rfl) x, exec_bnf_of_no_delay hdelay x⟩,
    ⟨wordIs_of_op4 (fun _ _ _ => rfl) x, exec_bf_of_no_delay hdelay x⟩⟩

/-! ### Jumps outside a delay slot (R182 to R185) and the link (R186) -/

theorem linkOffset_eq_ite (p : Config.Params) : linkOffset p = if p.linkOffset = .two then 2 else 4 := by
  unfold linkOffset
  cases p.linkOffset <;> rfl

theorem State.link_eq (s : State) :
    s.link = s.writeLink (s.pc + if s.params.linkOffset = .two then 2 else 4) := by
  rw [State.link, linkOffset_eq_ite]

theorem State.delayedJump_of_no_delay {s : State} (h : s.delay = none) (t : Word) :
    s.delayedJump t = .next { s with delay := some t, pc := s.pc + 2 } :=
  State.delayedJump_eq_next.mpr ⟨h, rfl⟩

theorem State.delayedJumpToRegister_of_even {s : State} {t : Word} (h : s.delay = none) (heven : t.toNat % 2 = 0) :
    s.delayedJumpToRegister t = .next { s with delay := some t, pc := s.pc + 2 } :=
  State.delayedJumpToRegister_eq_next.mpr ⟨h, (toNat_mod_two_eq_zero_iff t).mp heven, rfl⟩

theorem exec_jmp_of_no_delay {s : State} (h : s.delay = none) (x : BitVec 12) :
    exec (.jmp x) s = .next { s with delay := some (s.pc + BitVec.ofInt 32 (2 * x.toInt)), pc := s.pc + 2 } := by
  rw [← State.relativeTarget_eq]
  exact State.delayedJump_of_no_delay h _

/-- The target is taken before LR is written, which leaves the pc. -/
theorem exec_jal_of_no_delay {s : State} (h : s.delay = none) (x : BitVec 12) :
    exec (.jal x) s =
      .next { s.writeLink (s.pc + if s.params.linkOffset = .two then 2 else 4) with
        delay := some (s.pc + BitVec.ofInt 32 (2 * x.toInt)), pc := s.pc + 2 } := by
  rw [← State.relativeTarget_eq, ← State.link_eq, ← State.link_pc s]
  exact State.delayedJump_of_no_delay ((State.link_delay s).trans h) _

/-- Settles O30: each stands in the opcode map under its top nibble, and is a jump with one delay slot, h.jal after
the link. -/
theorem relativeJumpsHaveOneDelaySlot : Obligations.RelativeJumpsHaveOneDelaySlot := by
  intro s x hdelay
  exact ⟨⟨wordIs_of_op4 (fun _ _ _ => rfl) x, exec_jal_of_no_delay hdelay x⟩,
    ⟨wordIs_of_op4 (fun _ _ _ => rfl) x, exec_jmp_of_no_delay hdelay x⟩⟩

theorem exec_jr_of_even {s : State} {a : RegId} (h : s.delay = none) (heven : (s.getReg a).toNat % 2 = 0) :
    exec (.jr a) s = .next { s with delay := some (s.getReg a), pc := s.pc + 2 } :=
  State.delayedJumpToRegister_of_even h heven

/-- The target is read before LR is written, so that rA may be the link register (R17). -/
theorem exec_jalr_of_even {s : State} {a : RegId} (h : s.delay = none) (heven : (s.getReg a).toNat % 2 = 0) :
    exec (.jalr a) s =
      .next { s.writeLink (s.pc + if s.params.linkOffset = .two then 2 else 4) with
        delay := some (s.getReg a), pc := s.pc + 2 } := by
  rw [← State.link_eq, ← State.link_pc s]
  exact State.delayedJumpToRegister_of_even ((State.link_delay s).trans h) heven

/-- Settles O31: each stands in a row under the top byte 0x4B, and jumps to the old value of rA if its low bit is
clear, h.jalr after the link. -/
theorem registerJumpsHaveOneDelaySlot : Obligations.RegisterJumpsHaveOneDelaySlot := by
  intro s a hdelay
  exact ⟨⟨wordIs_of_op8 rfl, exec_jr_of_even hdelay, exec_jr_of_odd hdelay⟩,
    ⟨wordIs_of_op8 rfl, exec_jalr_of_even hdelay, exec_jalr_of_odd hdelay⟩⟩

end Sys2Proof.Machine

/-! ## Moves, and the instructions without semantics (44_move.md R200 to R203, 49_load_store.md R299, R300) -/

namespace Sys2Proof.Machine

/-- A word of format RI8 (R97): a top nibble of its own, rA, and the immediate in its two halves. -/
theorem wordIs_of_ri8 {n3 : BitVec 4} {a : RegId} {f : BitVec 8 → Instr}
    (h : ∀ n2 n0, decodeNibbles n3 n2 a n0 = some (f (n2 ++ n0))) (m : BitVec 8) :
    WordIs (n3 ++ m.extractLsb' 4 4 ++ a ++ m.extractLsb' 0 4) (f m) :=
  wordIs_encodeRI8 h m

theorem exec_movibse (a : RegId) (m : BitVec 8) (s : State) :
    exec (.movibse a m) s = .next (s.setReg a (m.signExtend 32)).advance := rfl

theorem exec_mov (a b : RegId) (s : State) : exec (.mov a b) s = .next (s.setReg a (s.getReg b)).advance := rfl

/-- A wholly reserved top byte given as `OPC_MOV` is that of h.mov (R109). -/
theorem decodeRow_mov {k : Byte} (h : isReservedTopByte k = true) (a b : RegId) :
    decodeRow (some k) (k ++ a ++ b) = some (.mov a b) :=
  (topByteE0IsNotuAndMovNeedsAnOpcode.2 (some k) _ a b).mpr ⟨k, rfl, h, rfl⟩

/-- Settles O32: h.movibse stands in the opcode map under its top nibble, and widening by the sign keeps the signed
value; h.mov has its words from `OPC_MOV` alone. -/
theorem movesWriteTheDestination : Obligations.MovesWriteTheDestination := by
  constructor
  case left =>
    intro s a m
    have hvalue : (m.signExtend 32).toInt = m.toInt := BitVec.toInt_signExtend_of_le (by decide)
    exact ⟨wordIs_of_ri8 (fun _ _ => rfl) m, _, exec_movibse a m s, hvalue⟩
  case right => exact fun s a b => ⟨fun _ hk => decodeRow_mov hk a b, exec_mov a b s⟩

/-- Settles O33: each stands in the opcode map, two under a top nibble and two under a top byte, and the meaning of
each is the refusal by its mnemonic. -/
theorem classZeroInstructionsAreRefused : Obligations.ClassZeroInstructionsAreRefused := by
  constructor
  case left =>
    intro s a m
    exact ⟨⟨wordIs_of_ri8 (fun _ _ => rfl) m, exec_of_classZeroMnemonic rfl s⟩,
      ⟨wordIs_of_ri8 (fun _ _ => rfl) m, exec_of_classZeroMnemonic rfl s⟩⟩
  case right =>
    intro s a n
    exact ⟨⟨wordIs_of_op8 rfl, exec_of_classZeroMnemonic rfl s⟩, ⟨wordIs_of_op8 rfl, exec_of_classZeroMnemonic rfl s⟩⟩

end Sys2Proof.Machine

/-! ## The system instructions (45_system.md R210 to R214, 60_exceptions.md R323) -/

namespace Sys2Proof.Machine

/-! ### The exceptions (R210, R211, R323) -/

/-- A word of format I8 (R98): its top byte, the immediate. -/
theorem wordIs_of_op8_imm {k : Byte} {f : BitVec 8 → Instr}
    (h : ∀ n1 n0, decodeNibbles (k.extractLsb' 4 4) (k.extractLsb' 0 4) n1 n0 = some (f (n1 ++ n0))) (m : BitVec 8) :
    WordIs (k ++ m) (f m) := by
  have hword := wordIs_of_op8 (h (m.extractLsb' 4 4) (m.extractLsb' 0 4))
  rwa [BitVec.append_assoc, BitVec.cast_eq, split8] at hword

theorem State.takeException_of_no_delay {s : State} (h : s.delay = none) (e : Exc) :
    s.takeException e = .next { s with mode := .supervisor, pc := e.vector } :=
  State.takeException_eq_next.mpr ⟨h, by rw [← h]⟩

/-- Settles O34: both stand in the opcode map under their top byte, and take their exception, which nothing but the
delay slot prevents. -/
theorem trapsEnterSupervisorAtTheirVector : Obligations.TrapsEnterSupervisorAtTheirVector := by
  intro s m
  have hfault {i : Instr} (hi : isControlTransfer i = true) (hdelay : s.delay ≠ none) :
      exec i s = .fault .controlTransferInDelaySlot := by
    obtain ⟨a, ha⟩ := Option.ne_none_iff_exists'.mp hdelay
    exact exec_controlTransfer_in_delay_slot ha hi
  exact ⟨⟨wordIs_of_op8_imm (fun _ _ => rfl) m, fun h => State.takeException_of_no_delay h .breakpoint, hfault rfl⟩,
    ⟨wordIs_of_op8_imm (fun _ _ => rfl) m, fun h => State.takeException_of_no_delay h .systemCall, hfault rfl⟩⟩

/-! ### h.rfe (R212) -/

theorem State.advance_eq (s : State) : s.advance = { s with pc := s.delay.getD (s.pc + 2), delay := none } := rfl

theorem exec_rfe_of_user {s : State} (hmode : s.mode = .user) : exec .rfe s = .fault .privilegedInUserMode :=
  State.privileged_of_user _ hmode

/-- Settles O35: in Supervisor mode the advance of the pc in User mode, and the privilege check in User mode. -/
theorem returnFromExceptionSetsUserModeOnly : Obligations.ReturnFromExceptionSetsUserModeOnly := by
  refine ⟨wordIs_rfe, fun s => ⟨?supervisor, exec_rfe_of_user⟩⟩
  case supervisor =>
    intro hmode
    rw [exec_rfe_of_supervisor hmode, State.advance_eq]

/-! ### The index of a special register (R32, R213, R214) -/

theorem specialRegOf_eq_machi {p : Config.Params} {idx : Config.SprIndex} {x : Word} (hidx : p.sprIndex = some idx)
    (hx : x = idx.machi) : specialRegOf p x = some .machi := by
  simp [specialRegOf, hidx, hx]

theorem specialRegOf_eq_maclo {p : Config.Params} {idx : Config.SprIndex} {x : Word} (hidx : p.sprIndex = some idx)
    (hx : x = idx.maclo) (hne : idx.maclo ≠ idx.machi) : specialRegOf p x = some .maclo := by
  simp [specialRegOf, hidx, hx, hne]

theorem specialRegOf_eq_none_of_no_index {p : Config.Params} (hidx : p.sprIndex = none) (x : Word) :
    specialRegOf p x = none := by
  simp [specialRegOf, hidx]

/-- An index that neither `spr_index` nor `PAIR_ALIAS` names. -/
theorem specialRegOf_eq_none {p : Config.Params} {idx : Config.SprIndex} {x : Word} (hidx : p.sprIndex = some idx)
    (hmachi : x ≠ idx.machi) (hmaclo : x ≠ idx.maclo) (hpair : p.pairAlias ≠ .specialRegister x) :
    specialRegOf p x = none := by
  cases halias : p.pairAlias with
  | specialRegister j =>
    have hj : x ≠ j := fun h => hpair (by rw [halias, h])
    simp [specialRegOf, hidx, hmachi, hmaclo, halias, hj]
  | noAlias | generalRegister r => simp [specialRegOf, hidx, hmachi, hmaclo, halias]

/-! ### h.mtsr and h.mfsr (R213, R214) -/

theorem exec_mtsr_of_specialRegOf_none {s : State} {a b : RegId} (hmode : s.mode = .supervisor)
    (hk : specialRegOf s.params (s.getReg a) = none) :
    exec (.mtsr a b) s = .refused .writeOfUnnamedSpecialRegister := by
  simp [exec, execMtsr, State.privileged_of_supervisor _ hmode, hk]

theorem exec_mfsr_of_specialRegOf_none {s : State} {a b : RegId} (hmode : s.mode = .supervisor)
    (hk : specialRegOf s.params (s.getReg b) = none) :
    exec (.mfsr a b) s = .refused .readOfUnnamedSpecialRegister := by
  simp [exec, execMfsr, State.privileged_of_supervisor _ hmode, hk]

/-- Settles O37: both stand in the opcode map under their top byte, and what each answers in Supervisor mode is fixed
by what the value of its index register names. -/
theorem specialRegisterMoves : Obligations.SpecialRegisterMoves := by
  refine ⟨?words, ?indexes, ?noIndexes, ?user⟩
  case words => exact fun a b => ⟨wordIs_of_op8 rfl, wordIs_of_op8 rfl⟩
  case indexes =>
    intro s a b idx hmode hidx
    refine ⟨?toMachi, ?toMaclo, ?fromMachi, ?fromMaclo, ?toOther, ?fromOther⟩
    case toMachi => exact fun h => exec_mtsr_of_specialRegOf hmode (specialRegOf_eq_machi hidx h)
    case toMaclo => exact fun h hne => exec_mtsr_of_specialRegOf hmode (specialRegOf_eq_maclo hidx h hne)
    case fromMachi => exact fun h => exec_mfsr_of_specialRegOf hmode (specialRegOf_eq_machi hidx h)
    case fromMaclo => exact fun h hne => exec_mfsr_of_specialRegOf hmode (specialRegOf_eq_maclo hidx h hne)
    case toOther =>
      exact fun hmachi hmaclo hpair =>
        exec_mtsr_of_specialRegOf_none hmode (specialRegOf_eq_none hidx hmachi hmaclo hpair)
    case fromOther =>
      exact fun hmachi hmaclo hpair =>
        exec_mfsr_of_specialRegOf_none hmode (specialRegOf_eq_none hidx hmachi hmaclo hpair)
  case noIndexes =>
    intro s a b hmode hidx
    exact ⟨exec_mtsr_of_specialRegOf_none hmode (specialRegOf_eq_none_of_no_index hidx _),
      exec_mfsr_of_specialRegOf_none hmode (specialRegOf_eq_none_of_no_index hidx _)⟩
  case user => exact fun s a b hmode => ⟨State.privileged_of_user _ hmode, State.privileged_of_user _ hmode⟩

end Sys2Proof.Machine

/-! ## Multiply, divide, accumulate (46_muldiv_mac.md R230 to R239) -/

namespace Sys2Proof.Machine

/-! ### The two halves of a 64-bit value, and products (R230, R231, R234, R235) -/

theorem high_append_low (p : BitVec 64) : p.extractLsb' 32 32 ++ p.extractLsb' 0 32 = p :=
  (BitVec.extractLsb'_append_extractLsb'_eq_extractLsb' (start₁ := 0) rfl).trans BitVec.extractLsb'_eq_self

/-- The template of R230 and R231: an instruction under a top byte of its own, whose meaning writes the accumulator. -/
theorem setAccumulator_at_op8 {k : Byte} {a b : RegId} {i : Instr} {s : State} {p : BitVec 64}
    (hword : decodeNibbles (k.extractLsb' 4 4) (k.extractLsb' 0 4) a b = some i)
    (hexec : exec i s = .next (s.setAccumulator p).advance) :
    WordIs (k ++ a ++ b) i ∧
      ∃ hi lo, exec i s = .next { s with machi := hi, maclo := lo }.advance ∧ hi ++ lo = p :=
  ⟨wordIs_of_op8 hword, _, _, hexec, high_append_low p⟩

/-- Settles O42: each writes both halves of the new 64-bit value of the accumulator, and nothing else. -/
theorem multiplyAccumulateIsSixtyFourBit : Obligations.MultiplyAccumulateIsSixtyFourBit :=
  fun _ _ _ => ⟨setAccumulator_at_op8 rfl rfl, setAccumulator_at_op8 rfl rfl⟩

/-- The template of R234 and R235: an instruction under a top byte of its own, whose meaning writes a product to rA and
MACHI: the product by a property of it. -/
theorem writeProduct_at_op8 {k : Byte} {a b d : RegId} {i : Instr} {s : State} {p : BitVec 64} {P : BitVec 64 → Prop}
    (hword : decodeNibbles (k.extractLsb' 4 4) (k.extractLsb' 0 4) a b = some i)
    (hexec : exec i s = s.writeProduct d p) (hvalue : P p) :
    WordIs (k ++ a ++ b) i ∧
      ∃ hi lo, exec i s = .next { s.setReg d lo with machi := hi }.advance ∧ P (hi ++ lo) :=
  ⟨wordIs_of_op8 hword, _, _, hexec, (high_append_low p).symm ▸ hvalue⟩

/-- No product of two signed words is out of the range of 64 bits. -/
theorem signedProduct_toInt (x y : Word) : (signedProduct x y).toInt = x.toInt * y.toInt := by
  have hlow : -(2 ^ 62) ≤ x.toInt * y.toInt := BitVec.le_toInt_mul_toInt
  have hhigh : x.toInt * y.toInt ≤ 2 ^ 62 := BitVec.toInt_mul_toInt_le
  exact BitVec.toInt_ofInt_eq_self (by decide) (by omega) (by omega)

theorem unsignedProduct_toNat (x y : Word) : (unsignedProduct x y).toNat = x.toNat * y.toNat := by
  have hlt : x.toNat * y.toNat < 2 ^ 32 * 2 ^ 32 := Nat.mul_lt_mul'' x.isLt y.isLt
  exact Nat.mod_eq_of_lt hlt

/-- Settles O43: each writes both halves of its product, which 64 bits hold exactly. -/
theorem multipliesAreExact : Obligations.MultipliesAreExact :=
  fun _ _ _ => ⟨writeProduct_at_op8 (P := (BitVec.toInt · = _)) rfl rfl (signedProduct_toInt _ _),
    writeProduct_at_op8 (P := (BitVec.toNat · = _)) rfl rfl (unsignedProduct_toNat _ _)⟩

/-! ### What a quotient or remainder written leaves in the next state (R238) -/

/-- A write of a general register or of any value into it is a write of it and of the count of free values. -/
theorem State.setRegOrAny_eq (s : State) (a : RegId) (r : Option Word) :
    ∃ v k, s.setRegOrAny a r = { s.setReg a v with draws := k } ∧ ∀ q, r = some q → v = q := by
  cases r with
  | some q => exact ⟨q, s.draws, rfl, fun _ h => Option.some.inj h⟩
  | none => exact ⟨s.drawWord.1, s.draws + 1, rfl, nofun⟩

theorem State.settleDivisorFlag_divf_or (s : State) :
    s.settleDivisorFlag.divf = s.divf ∨ s.settleDivisorFlag.divf = false := by
  rw [State.settleDivisorFlag_divf]
  cases Config.any1 s.draws with
  | true => exact .inl (Bool.and_true _)
  | false => exact .inr (Bool.and_false _)

/-- An instruction whose meaning writes the quotient or remainder `r`: what rA and DIVF hold after a divisor that is not
zero, by a property of them. -/
theorem exec_of_writeQuotient {i : Instr} {s : State} {a : RegId} {x : Word} {r : Option Word}
    {Q : Word → Bool → Prop} (hexec : exec i s = s.writeQuotient a x r)
    (hvalue : x ≠ 0 → ∀ v d, (∀ q, r = some q → v = q) → (d = s.divf ∨ d = false) → Q v d) :
    ∃ v d k, exec i s = .next { s.setReg a v with divf := d, draws := k }.advance ∧
      (if x = 0 then d = true else Q v d) := by
  rw [hexec, State.writeQuotient]
  by_cases hx : x = 0
  · simp only [if_pos hx]
    obtain ⟨v, k, hset, -⟩ := s.setRegOrAny_eq a none
    exact ⟨v, true, k, by rw [hset], rfl⟩
  · simp only [if_neg hx]
    obtain ⟨v, k, hset, hv⟩ := s.setRegOrAny_eq a r
    rw [hset]
    exact ⟨v, _, _, rfl, hvalue hx v _ hv (State.settleDivisorFlag_divf_or _)⟩

/-- The template of R232, R233, R236 and R237. -/
theorem writeQuotient_at_op8 {k : Byte} {a b c : RegId} {i : Instr} {s : State} {x : Word} {r : Option Word}
    {Q : Word → Bool → Prop}
    (hword : decodeNibbles (k.extractLsb' 4 4) (k.extractLsb' 0 4) a b = some i)
    (hexec : exec i s = s.writeQuotient c x r)
    (hvalue : x ≠ 0 → ∀ v d, (∀ q, r = some q → v = q) → (d = s.divf ∨ d = false) → Q v d) :
    WordIs (k ++ a ++ b) i ∧
      ∃ v d n, exec i s = .next { s.setReg c v with divf := d, draws := n }.advance ∧
        (if x = 0 then d = true else Q v d) :=
  ⟨wordIs_of_op8 hword, exec_of_writeQuotient hexec hvalue⟩

/-! ### Unsigned quotient and remainder (R233, R237) -/

theorem toNat_ofNat_div (x y : Word) : (BitVec.ofNat 32 (x.toNat / y.toNat)).toNat = x.toNat / y.toNat :=
  Nat.mod_eq_of_lt ((Nat.div_le_self _ _).trans_lt x.isLt)

theorem toNat_ofNat_mod (x y : Word) : (BitVec.ofNat 32 (x.toNat % y.toNat)).toNat = x.toNat % y.toNat :=
  Nat.mod_eq_of_lt ((Nat.mod_le _ _).trans_lt x.isLt)

/-- Settles O44: what each writes is at most the dividend, so that a word holds it. -/
theorem unsignedDivideAndModulus : Obligations.UnsignedDivideAndModulus := by
  intro s a b
  constructor
  case left =>
    refine writeQuotient_at_op8 (i := .divu a b) rfl rfl fun _ v d hv hd => ⟨?_, hd⟩
    rw [hv _ rfl, toNat_ofNat_div]
  case right =>
    refine writeQuotient_at_op8 (i := .modu a b) rfl rfl fun _ v d hv hd => ⟨?_, hd⟩
    rw [hv _ rfl, toNat_ofNat_mod]

/-! ### Signed quotient and remainder (R232, R236, R239), by the divisions of words -/

theorem isDivideOverflow_iff {x y : Word} : isDivideOverflow x y = true ↔ x.toInt = -2 ^ 31 ∧ y.toInt = -1 := by
  have hx : x.toInt = -2 ^ 31 ↔ x = 0x80000000 := BitVec.toInt_inj (y := (0x80000000 : Word))
  have hy : y.toInt = -1 ↔ y = 0xFFFFFFFF := BitVec.toInt_inj (y := (0xFFFFFFFF : Word))
  rw [isDivideOverflow, Bool.and_eq_true, beq_iff_eq, beq_iff_eq, hx, hy]

theorem isDivideOverflow_eq_false_iff {x y : Word} :
    isDivideOverflow x y = false ↔ ¬ (x.toInt = -2 ^ 31 ∧ y.toInt = -1) := by
  rw [← isDivideOverflow_iff, Bool.not_eq_true]

theorem toInt_sdiv_of_not_overflow {x y : Word} (h : isDivideOverflow x y = false) :
    (x.sdiv y).toInt = x.toInt.tdiv y.toInt := by
  rw [isDivideOverflow, Bool.and_eq_false_iff, beq_eq_false_iff_ne, beq_eq_false_iff_ne] at h
  exact BitVec.toInt_sdiv_of_ne_or_ne x y h

theorem signedQuotient_of_truncate {p : Config.Params} {x y : Word} (h : isDivideOverflow x y = false)
    (hp : p.divs = .truncate) : signedQuotient p x y = some (x.sdiv y) := by
  have hvalue : BitVec.ofInt 32 (x.toInt.tdiv y.toInt) = x.sdiv y := by
    rw [← toInt_sdiv_of_not_overflow h, BitVec.ofInt_toInt]
  simp [signedQuotient, h, hp, hvalue]

theorem signedQuotient_of_given {p : Config.Params} {x y : Word} (h : isDivideOverflow x y = false)
    (hp : p.divs = .given) : signedQuotient p x y = some (Config.givenDivs x y) := by
  simp [signedQuotient, h, hp]

theorem signedRemainder_of_overflow (p : Config.Params) {x y : Word} (h : isDivideOverflow x y = true) :
    signedRemainder p x y = 0 := by
  simp [signedRemainder, h]

/-- By truncation -2^31 by -1 needs no exception: the remainder is 0 like any other. -/
theorem signedRemainder_of_truncate {p : Config.Params} (x y : Word) (hp : p.mods = .truncate) :
    signedRemainder p x y = x.srem y := by
  apply BitVec.eq_of_toInt_eq
  cases h : isDivideOverflow x y with
  | true =>
    obtain ⟨hx, hy⟩ := isDivideOverflow_iff.mp h
    rw [signedRemainder_of_overflow p h, BitVec.toInt_srem, hx, hy]
    rfl
  | false =>
    have hvalue : BitVec.ofInt 32 (x.toInt.tmod y.toInt) = x.srem y := by
      rw [← BitVec.toInt_srem, BitVec.ofInt_toInt]
    simp [signedRemainder, h, hp, hvalue]

theorem signedRemainder_of_given {p : Config.Params} {x y : Word} (h : isDivideOverflow x y = false)
    (hp : p.mods = .given) : signedRemainder p x y = Config.givenMods x y := by
  simp [signedRemainder, h, hp]

/-- Settles O45: by truncation what each writes is the signed division of words, else what `numerics` gives. -/
theorem signedDivideAndModulus : Obligations.SignedDivideAndModulus := by
  intro s a b
  constructor
  case left =>
    refine writeQuotient_at_op8 (i := .divs a b) rfl rfl fun _ v d hv hd => ⟨hd, ?truncate, ?given⟩
    case truncate =>
      intro hne hp
      have hno := isDivideOverflow_eq_false_iff.mpr hne
      rw [hv _ (signedQuotient_of_truncate hno hp), toInt_sdiv_of_not_overflow hno]
    case given =>
      exact fun hne hp => hv _ (signedQuotient_of_given (isDivideOverflow_eq_false_iff.mpr hne) hp)
  case right =>
    refine writeQuotient_at_op8 (i := .mods a b) rfl rfl fun _ v d hv hd => ⟨hd, ?overflow, ?truncate, ?given⟩
    all_goals rw [hv _ rfl]
    case overflow => exact fun h => signedRemainder_of_overflow _ (isDivideOverflow_iff.mpr h)
    case truncate =>
      intro hp
      rw [signedRemainder_of_truncate _ _ hp, BitVec.toInt_srem]
    case given => exact fun hne hp => signedRemainder_of_given (isDivideOverflow_eq_false_iff.mpr hne) hp

/-! ### No instruction reads DIVF (R238)

To put another value into DIVF before an instruction is to put it there after it, except for the four that write it. -/

/-- The two states differ at most in DIVF. -/
def agreeOffDivf (s t : State) : Prop :=
  t = { s with divf := t.divf }

/-- The state with another value in DIVF. -/
def State.withDivf (s : State) (d : Bool) : State :=
  { s with divf := d }

theorem agreeOffDivf_withDivf (s : State) (d : Bool) : agreeOffDivf s (s.withDivf d) := rfl

theorem eq_withDivf_of_agreeOffDivf {s t : State} (h : agreeOffDivf s t) : t = s.withDivf t.divf := h

/-- The outcome with another value in DIVF, where there is a next state. -/
def withDivfNext (d : Bool) : Result → Result
  | .next s => .next (s.withDivf d)
  | .fault e => .fault e
  | .refused r => .refused r

theorem sameOutcome_withDivfNext (d : Bool) (r : Result) :
    sameOutcome agreeOffDivf r (withDivfNext d r) := by
  cases r with
  | next s => exact agreeOffDivf_withDivf s d
  | fault e | refused e => exact rfl

section
variable (s : State) (d : Bool)

/-! #### Reads -/

@[simp] theorem State.withDivf_getReg (a : RegId) : (s.withDivf d).getReg a = s.getReg a := rfl
@[simp] theorem State.withDivf_delay : (s.withDivf d).delay = s.delay := rfl
@[simp] theorem State.withDivf_mode : (s.withDivf d).mode = s.mode := rfl
@[simp] theorem State.withDivf_mem : (s.withDivf d).mem = s.mem := rfl
@[simp] theorem State.withDivf_params : (s.withDivf d).params = s.params := rfl
@[simp] theorem State.withDivf_relativeTarget (x : BitVec 12) :
    (s.withDivf d).relativeTarget x = s.relativeTarget x := rfl
@[simp] theorem State.withDivf_readPair : (s.withDivf d).readPair = s.readPair := rfl
@[simp] theorem State.withDivf_readSpecial (k : SpecialReg) : (s.withDivf d).readSpecial k = s.readSpecial k := by
  cases k <;> rfl
@[simp] theorem State.withDivf_memRead (w : Width) (ea : Word) : (s.withDivf d).memRead w ea = s.memRead w ea := rfl

/-! #### Writes -/

theorem State.withDivf_setRegOrAny (a : RegId) (v : Option Word) :
    (s.withDivf d).setRegOrAny a v = (s.setRegOrAny a v).withDivf d := by
  cases v <;> rfl

theorem State.withDivf_setFlagOrAny (b : Option Bool) :
    (s.withDivf d).setFlagOrAny b = (s.setFlagOrAny b).withDivf d := by
  cases b <;> rfl

theorem State.withDivf_writeCarry (c : Bool) : (s.withDivf d).writeCarry c = (s.writeCarry c).withDivf d := by
  simp only [State.writeCarry, State.withDivf_params]
  cases s.params.carryPolicy <;> rfl

theorem State.withDivf_link : (s.withDivf d).link = s.link.withDivf d := by
  simp only [State.link, State.writeLink, State.withDivf_params]
  cases s.params.lrReg <;> rfl

theorem State.withDivf_writePair (v : Word) : (s.withDivf d).writePair v = (s.writePair v).withDivf d := by
  simp only [State.writePair, State.withDivf_params]
  cases s.params.pairAlias <;> rfl

theorem State.withDivf_writeSpecial (k : SpecialReg) (v : Word) :
    (s.withDivf d).writeSpecial k v = (s.writeSpecial k v).withDivf d := by
  cases k with
  | machi | maclo => rfl
  | pair => exact s.withDivf_writePair d v

theorem State.withDivf_memWrite (w : Width) (ea v : Word) :
    (s.withDivf d).memWrite w ea v = (s.memWrite w ea v).map (·.withDivf d) := by
  simp only [State.memWrite, State.withDivf_params, State.withDivf_mem]
  cases s.mem.accessFault w ea <;> rfl

/-! #### Outcomes -/

variable {s d} in
theorem next_advance_withDivf {t : State} (h : t = s.withDivf d) :
    (.next t.advance : Result) = withDivfNext d (.next s.advance) := by
  rw [h]
  rfl

theorem State.withDivf_writeSum (a : RegId) (r : Word × Bool) :
    (s.withDivf d).writeSum a r = withDivfNext d (s.writeSum a r) :=
  next_advance_withDivf ((s.setReg a r.1).withDivf_writeCarry d r.2)

theorem State.withDivf_branch (c : Bool) (t : Word) :
    (s.withDivf d).branch c t = withDivfNext d (s.branch c t) := by
  simp only [State.branch, State.withDivf_delay]
  cases s.delay with
  | some _ => rfl
  | none => cases c <;> rfl

theorem State.withDivf_delayedJump (t : Word) :
    (s.withDivf d).delayedJump t = withDivfNext d (s.delayedJump t) := by
  simp only [State.delayedJump, State.withDivf_delay]
  cases s.delay <;> rfl

theorem State.withDivf_delayedJumpToRegister (t : Word) :
    (s.withDivf d).delayedJumpToRegister t = withDivfNext d (s.delayedJumpToRegister t) := by
  simp only [State.delayedJumpToRegister, State.withDivf_delay, State.withDivf_delayedJump]
  cases s.delay with
  | some _ => rfl
  | none => cases t.getLsbD 0 <;> rfl

theorem State.withDivf_takeException (e : Exc) :
    (s.withDivf d).takeException e = withDivfNext d (s.takeException e) := by
  simp only [State.takeException, State.withDivf_delay]
  cases s.delay <;> rfl

theorem State.withDivf_privileged (r : Result) :
    (s.withDivf d).privileged (withDivfNext d r) = withDivfNext d (s.privileged r) := by
  simp only [State.privileged, State.withDivf_mode]
  cases s.mode <;> rfl

theorem State.withDivf_load (w : Width) (a : RegId) (ea : Word) :
    (s.withDivf d).load w a ea = withDivfNext d (s.load w a ea) := by
  simp only [State.load, State.withDivf_memRead]
  cases s.memRead w ea <;> rfl

theorem State.withDivf_loadThroughPair (w : Width) (a : RegId) (n : BitVec 4) :
    (s.withDivf d).loadThroughPair w a n = withDivfNext d (s.loadThroughPair w a n) := by
  simp only [State.loadThroughPair, State.withDivf_readPair, State.withDivf_memRead, State.withDivf_writePair]
  cases s.memRead w s.readPair <;> rfl

theorem State.withDivf_store (w : Width) (ea v : Word) :
    (s.withDivf d).store w ea v = withDivfNext d (s.store w ea v) := by
  simp only [State.store, State.withDivf_memWrite]
  cases s.memWrite w ea v <;> rfl

theorem State.withDivf_storePostIncrement (w : Width) (a b : RegId) :
    (s.withDivf d).storePostIncrement w a b = withDivfNext d (s.storePostIncrement w a b) := by
  simp only [State.storePostIncrement, State.withDivf_getReg, State.withDivf_memWrite]
  cases s.memWrite w (s.getReg a) (s.getReg b) <;> rfl

theorem State.withDivf_storeThroughPair (w : Width) (n : BitVec 4) (b : RegId) :
    (s.withDivf d).storeThroughPair w n b = withDivfNext d (s.storeThroughPair w n b) := by
  simp only [State.storeThroughPair, State.withDivf_getReg, State.withDivf_readPair, State.withDivf_memWrite]
  cases s.memWrite w s.readPair (s.getReg b) with
  | error e => rfl
  | ok t => exact next_advance_withDivf (t.withDivf_writePair d _)

/-- The four that write DIVF: by zero it is set, else it is at most cleared, and nothing else depends on it. -/
theorem State.withDivf_writeQuotient (a : RegId) (x : Word) (r : Option Word) :
    sameOutcome agreeOffDivf (s.writeQuotient a x r) ((s.withDivf d).writeQuotient a x r) := by
  simp only [State.writeQuotient, State.withDivf_setRegOrAny]
  by_cases hx : x = 0
  · rw [if_pos hx, if_pos hx]
    exact rfl
  · rw [if_neg hx, if_neg hx]
    exact rfl

end

/-- The cases left to `rfl` are the instructions whose meaning does not branch on the state. -/
theorem exec_withDivf (i : Instr) (s : State) (d : Bool) (hi : writesDivisorFlag i = false) :
    exec i (s.withDivf d) = withDivfNext d (exec i s) := by
  cases i with
  | divs a b | divu a b | mods a b | modu a b => cases hi
  | test a b => exact next_advance_withDivf (s.withDivf_setFlagOrAny d _)
  | clr a b | set a b => exact next_advance_withDivf (s.withDivf_setRegOrAny d a _)
  | adds a b e | subs a b | addu a b | subu a b | addwcs a b | subwcs a b => exact s.withDivf_writeSum d a _
  | bnf x | bf x => exact s.withDivf_branch d _ _
  | jmp x => exact s.withDivf_delayedJump d _
  | jr a => exact s.withDivf_delayedJumpToRegister d _
  | jal x =>
    simp only [exec, execJal, State.withDivf_relativeTarget, State.withDivf_link, State.withDivf_delayedJump]
  | jalr a =>
    simp only [exec, execJalr, State.withDivf_getReg, State.withDivf_link, State.withDivf_delayedJumpToRegister]
  | brk m | sys m => exact s.withDivf_takeException d _
  | rfe => exact s.withDivf_privileged d (.next s.returnFromException)
  | mtsr a b =>
    simp only [exec, execMtsr, State.withDivf_params, State.withDivf_getReg, State.withDivf_writeSpecial]
    rw [← s.withDivf_privileged d]
    cases specialRegOf s.params (s.getReg a) <;> rfl
  | mfsr a b =>
    simp only [exec, execMfsr, State.withDivf_params, State.withDivf_getReg, State.withDivf_readSpecial]
    rw [← s.withDivf_privileged d]
    cases specialRegOf s.params (s.getReg b) <;> rfl
  | lw a n b => exact s.withDivf_load d _ a _
  | lhz n b | lbz n b => exact s.withDivf_load d _ _ _
  | lwpain a n | lhzpain a n | lbzpain a n => exact s.withDivf_loadThroughPair d _ a n
  | sw n a b | sh n a | sb n a => exact s.withDivf_store d _ _ _
  | swpai a b | shpai a b | sbpai a b => exact s.withDivf_storePostIncrement d _ a b
  | swpain n b | shpain n b | sbpain n b => exact s.withDivf_storeThroughPair d _ n b
  | _ => rfl

/-- DIVF before an instruction, whichever it is, shows in nothing but DIVF after it. -/
theorem exec_sameOutcome_withDivf (i : Instr) (s : State) (d : Bool) :
    sameOutcome agreeOffDivf (exec i s) (exec i (s.withDivf d)) := by
  cases hi : writesDivisorFlag i with
  | false =>
    rw [exec_withDivf i s d hi]
    exact sameOutcome_withDivfNext d _
  | true =>
    cases i with
    | divs a b | divu a b | mods a b | modu a b => exact s.withDivf_writeQuotient d a _ _
    | _ => cases hi

/-- Settles O46: each of the four writes a quotient or remainder, whose next state fixes DIVF; and a state that
differs in DIVF is the other with another value put there. -/
theorem divisorFlagIsSetByAZeroDivisorAndReadByNothing :
    Obligations.DivisorFlagIsSetByAZeroDivisorAndReadByNothing := by
  constructor
  case left =>
    intro s a b i hi
    obtain rfl | rfl | rfl | rfl := hi
    all_goals exact exec_of_writeQuotient rfl fun _ _ _ _ hd => hd
  case right =>
    intro i s t h
    rw [eq_withDivf_of_agreeOffDivf h]
    exact exec_sameOutcome_withDivf i s t.divf

end Sys2Proof.Machine

/-! ## Logic, swaps, shifts and rotates (47_logic_shift.md R250 to R263) -/

namespace Sys2Proof.Machine

/-! ### Strings put end to end, bit by bit (R254, R255) -/

theorem getLsbD_swapBytes (x : Word) {i : Nat} (hi : i < 32) :
    (swapBytes x).getLsbD i = x.getLsbD (8 * (3 - i / 8) + i % 8) := by
  simp only [swapBytes, BitVec.getLsbD_append, BitVec.getLsbD_extractLsb']
  obtain h | h | h | h : i / 8 = 0 ∨ i / 8 = 1 ∨ i / 8 = 2 ∨ i / 8 = 3 := by omega
  · rw [if_pos (by omega), show 24 + i = 8 * (3 - i / 8) + i % 8 by omega]
    simp [show i < 8 by omega]
  · rw [if_neg (by omega), if_pos (by omega), show 16 + (i - 8) = 8 * (3 - i / 8) + i % 8 by omega]
    simp [show i - 8 < 8 by omega]
  · rw [if_neg (by omega), if_neg (by omega), if_pos (by omega),
      show 8 + (i - 8 - 8) = 8 * (3 - i / 8) + i % 8 by omega]
    simp [show i - 8 - 8 < 8 by omega]
  · rw [if_neg (by omega), if_neg (by omega), if_neg (by omega),
      show 0 + (i - 8 - 8 - 8) = 8 * (3 - i / 8) + i % 8 by omega]
    simp [show i - 8 - 8 - 8 < 8 by omega]

theorem getLsbD_swapHalves (x : Word) {i : Nat} (hi : i < 32) :
    (swapHalves x).getLsbD i = x.getLsbD ((i + 16) % 32) := by
  simp only [swapHalves, BitVec.getLsbD_append, BitVec.getLsbD_extractLsb']
  by_cases hlow : i < 16
  · simp [hlow, show (i + 16) % 32 = 16 + i by omega]
  · simp [hlow, show (i + 16) % 32 = i - 16 by omega, show i - 16 < 16 by omega]

/-- Settles O47: each stands in the opcode map under its top byte, and writes to rA a value known bit by bit. -/
theorem logicAndSwapsBitByBit : Obligations.LogicAndSwapsBitByBit := by
  intro s a b
  refine ⟨?notu, ?xor, ?or, ?and, ?swapb, ?swaph⟩
  case notu => exact writeResult_at_op8 rfl rfl fun i hi => by simp [hi]
  case xor => exact writeResult_at_op8 rfl rfl fun _ _ => BitVec.getLsbD_xor
  case or => exact writeResult_at_op8 rfl rfl fun _ _ => BitVec.getLsbD_or
  case and => exact writeResult_at_op8 rfl rfl fun _ _ => BitVec.getLsbD_and
  case swapb => exact writeResult_at_op8 rfl rfl fun _ => getLsbD_swapBytes _
  case swaph => exact writeResult_at_op8 rfl rfl fun _ => getLsbD_swapHalves _

/-! ### The words of format RI5 (R99) -/

/-- A word of format RI5: its top seven bits, the high bit of the immediate, rA, the four low bits. -/
theorem wordIs_of_op7 {k : BitVec 7} {a : RegId} {f : BitVec 5 → Instr}
    (h0 : ∀ n0, decodeNibbles ((k ++ 0#1).extractLsb' 4 4) ((k ++ 0#1).extractLsb' 0 4) a n0 = some (f (0#1 ++ n0)))
    (h1 : ∀ n0, decodeNibbles ((k ++ 1#1).extractLsb' 4 4) ((k ++ 1#1).extractLsb' 0 4) a n0 = some (f (1#1 ++ n0)))
    (imm : BitVec 5) : WordIs (k ++ imm.extractLsb' 4 1 ++ a ++ imm.extractLsb' 0 4) (f imm) := by
  refine wordIs_of_op8 ?_
  conv_rhs => rw [← split5 imm]
  obtain hbit | hbit := BitVec.eq_zero_or_eq_one (imm.extractLsb' 4 1)
  · rw [hbit, h0]
  · rw [hbit, h1]

/-- The template of an instruction of format RI5 whose meaning writes rA: its word, and its value by a property of
it. -/
theorem writeResult_at_op7 {k : BitVec 7} {a : RegId} {f : BitVec 5 → Instr} {imm : BitVec 5} {s : State} {x : Word}
    {P : Word → Prop}
    (h0 : ∀ n0, decodeNibbles ((k ++ 0#1).extractLsb' 4 4) ((k ++ 0#1).extractLsb' 0 4) a n0 = some (f (0#1 ++ n0)))
    (h1 : ∀ n0, decodeNibbles ((k ++ 1#1).extractLsb' 4 4) ((k ++ 1#1).extractLsb' 0 4) a n0 = some (f (1#1 ++ n0)))
    (hexec : exec (f imm) s = s.writeResult a x) (hvalue : P x) :
    WordIs (k ++ imm.extractLsb' 4 1 ++ a ++ imm.extractLsb' 0 4) (f imm) ∧
      ∃ v, exec (f imm) s = .next (s.setReg a v).advance ∧ P v :=
  ⟨wordIs_of_op7 h0 h1 imm, x, hexec, hvalue⟩

/-! ### Shifts as products and quotients (R256 to R261) -/

theorem shiftAmount_eq (v : Word) : shiftAmount v = v.toNat % 32 := by
  rw [shiftAmount, BitVec.extractLsb'_toNat, Nat.shiftRight_zero]

theorem toNat_shiftLeft_eq_mul (x : Word) (k : Nat) : (x <<< k).toNat = x.toNat * 2 ^ k % 2 ^ 32 := by
  rw [BitVec.toNat_shiftLeft, Nat.shiftLeft_eq]

theorem toInt_sshiftRight_eq_div (x : Word) (k : Nat) : (x.sshiftRight k).toInt = x.toInt / 2 ^ k := by
  rw [BitVec.toInt_sshiftRight, Int.shiftRight_eq_div_pow, Nat.cast_pow, Nat.cast_ofNat]

theorem toNat_ushiftRight_eq_div (x : Word) (k : Nat) : (x >>> k).toNat = x.toNat / 2 ^ k := by
  rw [BitVec.toNat_ushiftRight, Nat.shiftRight_eq_div_pow]

/-- Settles O48: each is a shift of rA, by the immediate or by the low five bits of rB, and a shift is a product or a
quotient by a power of 2. -/
theorem shiftsMultiplyAndDivide : Obligations.ShiftsMultiplyAndDivide := by
  constructor
  case left =>
    intro s a l
    refine ⟨?shlai, ?shrai, ?shrli⟩
    case shlai => exact writeResult_at_op7 (fun _ => rfl) (fun _ => rfl) rfl (toNat_shiftLeft_eq_mul _ _)
    case shrai => exact writeResult_at_op7 (fun _ => rfl) (fun _ => rfl) rfl (toInt_sshiftRight_eq_div _ _)
    case shrli => exact writeResult_at_op7 (fun _ => rfl) (fun _ => rfl) rfl (toNat_ushiftRight_eq_div _ _)
  case right =>
    intro s a b
    rw [← shiftAmount_eq]
    refine ⟨?shla, ?shra, ?shrl⟩
    case shla => exact writeResult_at_op8 rfl rfl (toNat_shiftLeft_eq_mul _ _)
    case shra => exact writeResult_at_op8 rfl rfl (toInt_sshiftRight_eq_div _ _)
    case shrl => exact writeResult_at_op8 rfl rfl (toNat_ushiftRight_eq_div _ _)

/-! ### Rotates (R262, R263) -/

/-- The doubled string repeats the word. -/
theorem getLsbD_append_self (x : Word) {m : Nat} (hm : m < 64) : (x ++ x).getLsbD m = x.getLsbD (m % 32) := by
  rw [BitVec.getLsbD_append]
  split
  case isTrue hlow => rw [Nat.mod_eq_of_lt hlow]
  case isFalse hhigh => rw [show m % 32 = m - 32 by omega]

theorem getLsbD_rotateRight (x : Word) {k i : Nat} (hk : k < 32) (hi : i < 32) :
    (rotateRight x k).getLsbD i = x.getLsbD ((i + k) % 32) := by
  simp only [rotateRight, BitVec.getLsbD_extractLsb', BitVec.getLsbD_ushiftRight]
  rw [getLsbD_append_self x (by omega), show k + (0 + i) = i + k by omega]
  simp [hi]

theorem getLsbD_rotateLeft (x : Word) {k i : Nat} (hk : k < 32) (hi : i < 32) :
    (rotateLeft x k).getLsbD i = x.getLsbD ((i + (32 - k)) % 32) := by
  simp only [rotateLeft, BitVec.getLsbD_extractLsb', BitVec.getLsbD_shiftLeft]
  rw [getLsbD_append_self x (by omega), show 32 + i - k = i + (32 - k) by omega]
  simp [hi, show 32 + i < 64 by omega, show ¬ 32 + i < k by omega]

theorem rotateLeft_eq_rotateRight (x : Word) {k : Nat} (hk : k < 32) :
    rotateLeft x k = rotateRight x ((32 - k) % 32) := by
  apply BitVec.eq_of_getLsbD_eq
  intro i hi
  rw [getLsbD_rotateLeft x hk hi, getLsbD_rotateRight x (Nat.mod_lt _ (by decide)) hi, Nat.add_mod_mod]

/-- Settles O49: each rotates rA by the low five bits of rB, and the two rotates read the same bits of the doubled
string. -/
theorem rotatesMoveBitsRound : Obligations.RotatesMoveBitsRound := by
  refine ⟨fun s a b => ?_, fun v k => rotateLeft_eq_rotateRight v⟩
  have hk : (s.getReg b).toNat % 32 < 32 := Nat.mod_lt _ (by decide)
  rw [← shiftAmount_eq] at hk ⊢
  constructor
  case left => exact writeResult_at_op8 rfl rfl fun _ => getLsbD_rotateRight _ hk
  case right =>
    refine writeResult_at_op8 rfl rfl fun i hi => ?_
    rw [getLsbD_rotateLeft _ hk (Nat.mod_lt _ (by decide))]
    congr 1
    omega

end Sys2Proof.Machine

/-! ## Bits (48_bit.md R280 to R286) -/

namespace Sys2Proof.Machine

/-! ### One bit of a word cleared or set -/

theorem getLsbD_bitMask {k i : Nat} (hi : i < 32) : (bitMask k).getLsbD i = decide (k = i) := by
  rw [bitMask, ← BitVec.twoPow_eq, BitVec.getLsbD_twoPow]
  by_cases hik : k = i
  · simp [hik, hi]
  · simp [hik]

theorem getLsbD_clearBit (x : Word) (k : Nat) {i : Nat} (hi : i < 32) :
    (clearBit x k).getLsbD i = if i = k then false else x.getLsbD i := by
  rw [clearBit, BitVec.getLsbD_and, BitVec.getLsbD_not, getLsbD_bitMask hi]
  by_cases hik : i = k
  · simp [hik]
  · simp [hik, hi, Ne.symm hik]

theorem getLsbD_setBit (x : Word) (k : Nat) {i : Nat} (hi : i < 32) :
    (setBit x k).getLsbD i = if i = k then true else x.getLsbD i := by
  rw [setBit, BitVec.getLsbD_or, getLsbD_bitMask hi]
  by_cases hik : i = k
  · simp [hik]
  · simp [hik, Ne.symm hik]

/-! ### The index in rB (R286) -/

theorem bitIndex_of_le {v : Word} (h : v.toNat ≤ 31) : bitIndex v = some v.toNat := by
  rw [bitIndex, if_pos h]

theorem bitIndex_of_gt {v : Word} (h : 32 ≤ v.toNat) : bitIndex v = none := by
  rw [bitIndex, if_neg (by omega)]

theorem exec_test_of_index {s : State} {a b : RegId} {o : Option Nat} (h : bitIndex (s.getReg b) = o) :
    exec (.test a b) s = .next (s.setFlagOrAny (o.map (s.getReg a).getLsbD)).advance :=
  h ▸ rfl

theorem exec_clr_of_index {s : State} {a b : RegId} {o : Option Nat} (h : bitIndex (s.getReg b) = o) :
    exec (.clr a b) s = .next (s.setRegOrAny a (o.map (clearBit (s.getReg a)))).advance :=
  h ▸ rfl

theorem exec_set_of_index {s : State} {a b : RegId} {o : Option Nat} (h : bitIndex (s.getReg b) = o) :
    exec (.set a b) s = .next (s.setRegOrAny a (o.map (setBit (s.getReg a)))).advance :=
  h ▸ rfl

/-! ### The statements of the bit instructions -/

/-- Settles O50: by an immediate, and by a register that holds an index of at most 31, each tests or writes one bit of
rA. -/
theorem bitInstructionsActOnOneBit : Obligations.BitInstructionsActOnOneBit := by
  constructor
  case left =>
    intro s a m
    refine ⟨?testi, ?clri, ?seti⟩
    case testi => exact ⟨wordIs_of_op7 (fun _ => rfl) (fun _ => rfl) m, rfl⟩
    case clri => exact writeResult_at_op7 (fun _ => rfl) (fun _ => rfl) rfl fun _ => getLsbD_clearBit _ _
    case seti => exact writeResult_at_op7 (fun _ => rfl) (fun _ => rfl) rfl fun _ => getLsbD_setBit _ _
  case right =>
    intro s a b hle
    have hindex := bitIndex_of_le hle
    refine ⟨?test, ?clr, ?set⟩
    case test => exact ⟨wordIs_of_op8 rfl, exec_test_of_index hindex⟩
    case clr => exact writeResult_at_op8 rfl (exec_clr_of_index hindex) fun _ => getLsbD_clearBit _ _
    case set => exact writeResult_at_op8 rfl (exec_set_of_index hindex) fun _ => getLsbD_setBit _ _

/-- Settles O51: no bit is named by the index, so what is written is the next free value. -/
theorem bitIndexAboveThirtyOneLeavesAnyValue : Obligations.BitIndexAboveThirtyOneLeavesAnyValue := by
  intro s a b hgt
  have hindex := bitIndex_of_gt hgt
  exact ⟨⟨_, _, exec_test_of_index hindex⟩, ⟨_, _, exec_clr_of_index hindex⟩, ⟨_, _, exec_set_of_index hindex⟩⟩

end Sys2Proof.Machine

/-! ## Loads and stores (49_load_store.md R290 to R306) -/

namespace Sys2Proof.Machine

/-! ### Offsets and increments (R111): N signed, times the width -/

theorem scaledOffset_eq (w : Width) (n : BitVec 4) : scaledOffset w n = BitVec.ofInt 32 (w.bytes * n.toInt) := by
  have hscale : (1#32 <<< w.scale) = BitVec.ofInt 32 w.bytes := by
    cases w <;> rfl
  rw [scaledOffset, BitVec.shiftLeft_eq_mul_twoPow, BitVec.twoPow_eq, hscale, BitVec.signExtend, ← BitVec.ofInt_mul,
    mul_comm]

theorem scaledOffset_word (n : BitVec 4) : scaledOffset .word n = BitVec.ofInt 32 (4 * n.toInt) :=
  scaledOffset_eq .word n

theorem scaledOffset_half (n : BitVec 4) : scaledOffset .half n = BitVec.ofInt 32 (2 * n.toInt) :=
  scaledOffset_eq .half n

theorem scaledOffset_byte (n : BitVec 4) : scaledOffset .byte n = BitVec.ofInt 32 n.toInt :=
  (scaledOffset_eq .byte n).trans (congrArg _ (one_mul _))

theorem State.baseOffset_eq {w : Width} {n : BitVec 4} {d : Word} (s : State) (b : RegId) (h : scaledOffset w n = d) :
    s.baseOffset w b n = s.getReg b + d := by
  rw [State.baseOffset, h]

/-! ### Loads whose access is ready (R290 to R292, R296 to R298) -/

theorem State.load_of_ready {s : State} {w : Width} {ea : Word} (a : RegId) (h : s.mem.ready w ea) :
    s.load w a ea = .next (s.setReg a (s.mem.valueAt s.params.byteOrder w ea.toNat)).advance :=
  State.load_eq_next.mpr ⟨_, State.memRead_of_ready h, rfl⟩

/-- Settles O52: each has its words in the opcode map (R107), its address is rB plus N times the width, and it loads
the value that the bytes there make up. -/
theorem loadsReadAtBasePlusOffset : Obligations.LoadsReadAtBasePlusOffset := by
  intro s a b n
  refine ⟨⟨?lw, s.baseOffset_eq b (scaledOffset_word n), State.load_of_ready a⟩,
    ⟨?lhz, s.baseOffset_eq b (scaledOffset_half n), State.load_of_ready 8⟩,
    ⟨?lbz, s.baseOffset_eq b (scaledOffset_byte n), State.load_of_ready 9⟩⟩
  case lw => exact fun h8 h9 => wordIs_of_decodeNibbles (decodeNibbles_lw n b h8 h9)
  case lhz => exact wordIs_of_decodeNibbles (n3 := 0x0) (n1 := 0x8) rfl
  case lbz => exact wordIs_of_decodeNibbles (n3 := 0x0) (n1 := 0x9) rfl

/-- Settles O53: each loads at the old PAIR, which moves by N times the width before the value is written. -/
theorem loadsThroughPairIncrementIt : Obligations.LoadsThroughPairIncrementIt := by
  intro s a n
  rw [← scaledOffset_word, ← scaledOffset_half, ← scaledOffset_byte]
  exact ⟨⟨wordIs_of_op8 rfl, State.loadThroughPair_of_ready a n⟩,
    ⟨wordIs_of_op8 rfl, State.loadThroughPair_of_ready a n⟩,
    ⟨wordIs_of_op8 rfl, State.loadThroughPair_of_ready a n⟩⟩

/-! ### Stores whose access is ready: a new memory, and nothing else of the state by the store itself -/

theorem State.memWrite_afterStore {s : State} (hwf : s.mem.wf) {w : Width} {ea : Word} (v : Word)
    (h : s.mem.ready w ea) :
    ∃ m, s.memWrite w ea v = .ok { s with mem := m } ∧ s.mem.afterStore m s.params.byteOrder w ea v :=
  ⟨_, State.memWrite_of_ready v h, Memory.afterStore_writeBytes hwf h _ v⟩

theorem State.store_of_ready {s : State} (hwf : s.mem.wf) {w : Width} {ea : Word} (v : Word) (h : s.mem.ready w ea) :
    ∃ m, s.store w ea v = .next { s with mem := m }.advance ∧ s.mem.afterStore m s.params.byteOrder w ea v := by
  obtain ⟨m, hwrite, hm⟩ := State.memWrite_afterStore hwf v h
  exact ⟨m, State.store_eq_next.mpr ⟨_, hwrite, rfl⟩, hm⟩

theorem State.storePostIncrement_of_ready {s : State} (hwf : s.mem.wf) {w : Width} {a : RegId} (b : RegId)
    (h : s.mem.ready w (s.getReg a)) :
    ∃ m, s.storePostIncrement w a b =
        .next { s.setReg a (s.getReg a + BitVec.ofNat 32 w.bytes) with mem := m }.advance ∧
      s.mem.afterStore m s.params.byteOrder w (s.getReg a) (s.getReg b) := by
  obtain ⟨m, hwrite, hm⟩ := State.memWrite_afterStore hwf (s.getReg b) h
  exact ⟨m, State.storePostIncrement_eq_next.mpr ⟨_, hwrite, rfl⟩, hm⟩

/-- A write of PAIR and one of memory do not touch the same piece of state. -/
theorem State.writePair_withMem (s : State) (m : Memory) (v : Word) :
    { s with mem := m }.writePair v = { s.writePair v with mem := m } := by
  simp only [State.writePair]
  cases s.params.pairAlias <;> rfl

theorem State.storeThroughPair_of_ready {s : State} (hwf : s.mem.wf) {w : Width} (n : BitVec 4) (b : RegId)
    (h : s.mem.ready w s.readPair) :
    ∃ m, s.storeThroughPair w n b =
        .next { s.writePair (s.readPair + scaledOffset w n) with mem := m }.advance ∧
      s.mem.afterStore m s.params.byteOrder w s.readPair (s.getReg b) := by
  obtain ⟨m, hwrite, hm⟩ := State.memWrite_afterStore hwf (s.getReg b) h
  have hnext := congrArg State.advance (s.writePair_withMem m (s.readPair + scaledOffset w n))
  exact ⟨m, State.storeThroughPair_eq_next.mpr ⟨_, hwrite, hnext.symm⟩, hm⟩

/-- Settles O54: each has its words in the opcode map (R107), its address is rA plus N times the width, and it stores
there and changes nothing else. -/
theorem storesWriteAtBasePlusOffset : Obligations.StoresWriteAtBasePlusOffset := by
  intro s a b n hwf
  refine ⟨⟨?sw, s.baseOffset_eq a (scaledOffset_word n), State.store_of_ready hwf _⟩,
    ⟨?sh, s.baseOffset_eq a (scaledOffset_half n), State.store_of_ready hwf _⟩,
    ⟨?sb, s.baseOffset_eq a (scaledOffset_byte n), State.store_of_ready hwf _⟩⟩
  case sw => exact fun h8 h9 => wordIs_of_decodeNibbles (decodeNibbles_sw n a h8 h9)
  case sh => exact wordIs_of_decodeNibbles (n3 := 0x1) (n0 := 0x8) rfl
  case sb => exact wordIs_of_decodeNibbles (n3 := 0x1) (n0 := 0x9) rfl

/-- Settles O55: each stands in the opcode map under its top byte, and stores at the old value of rA. -/
theorem postIncrementStoresMoveTheAddressRegister : Obligations.PostIncrementStoresMoveTheAddressRegister :=
  fun _ _ b hwf => ⟨⟨wordIs_of_op8 rfl, State.storePostIncrement_of_ready hwf b⟩,
    ⟨wordIs_of_op8 rfl, State.storePostIncrement_of_ready hwf b⟩,
    ⟨wordIs_of_op8 rfl, State.storePostIncrement_of_ready hwf b⟩⟩

/-! ### The two stores through PAIR whose width `PAIN_STORE_WIDTH` decides (R304, R306) -/

theorem exec_word_store_through_pair (s : State) (n : BitVec 4) (b : RegId) :
    exec (if s.params.painStoreWidth = .byMnemonic then .swpain n b else .sbpain n b) s =
      s.storeThroughPair .word n b := by
  cases h : s.params.painStoreWidth with
  | byMnemonic => simp [exec, execSwpain, swpainWidth, h]
  | byPageBody => simp [exec, execSbpain, sbpainWidth, h]

theorem exec_byte_store_through_pair (s : State) (n : BitVec 4) (b : RegId) :
    exec (if s.params.painStoreWidth = .byMnemonic then .sbpain n b else .swpain n b) s =
      s.storeThroughPair .byte n b := by
  cases h : s.params.painStoreWidth with
  | byMnemonic => simp [exec, execSbpain, sbpainWidth, h]
  | byPageBody => simp [exec, execSwpain, swpainWidth, h]

/-- Settles O56: each stands in the opcode map under its top byte; one stores a half word, and one of the other two a
word, the other a byte. -/
theorem storesThroughPairIncrementIt : Obligations.StoresThroughPairIncrementIt := by
  intro s n b hwf
  rw [exec_word_store_through_pair, exec_byte_store_through_pair, ← scaledOffset_word, ← scaledOffset_half,
    ← scaledOffset_byte]
  exact ⟨⟨wordIs_of_op8 rfl, wordIs_of_op8 rfl, wordIs_of_op8 rfl⟩, State.storeThroughPair_of_ready hwf n b,
    State.storeThroughPair_of_ready hwf n b, State.storeThroughPair_of_ready hwf n b⟩

end Sys2Proof.Machine

/-! ## Modes and privilege (60_exceptions.md R328, R331, R332) -/

namespace Sys2Proof.Machine

/-! ### h.jr with h.rfe in its delay slot (R328) -/

/-- Settles O36: outside a delay slot h.rfe advances the pc; the jump leaves its target pending, at which h.rfe goes
on. -/
theorem returnIdiomArrivesInUserMode : Obligations.ReturnIdiomArrivesInUserMode := by
  intro s a hmode hdelay
  constructor
  case left => rw [exec_rfe_of_supervisor hmode, State.advance_of_no_delay (s := { s with mode := .user }) hdelay]
  case right =>
    intro heven
    obtain ⟨-, hrfe⟩ := controlTransferInADelaySlotFaults
    refine ⟨_, exec_jr_of_even hdelay heven, hmode, rfl, ?_⟩
    rw [hdelay]
    exact hrfe _ (s.getReg a) rfl hmode

/-! ### The faults an instruction can have (R331) -/

theorem State.branch_fault {s : State} {c : Bool} {x : Word} {e : Fault} (h : s.branch c x = .fault e) :
    e = .controlTransferInDelaySlot := by
  unfold State.branch at h
  split at h <;> cases h
  rfl

theorem State.delayedJump_fault {s : State} {x : Word} {e : Fault} (h : s.delayedJump x = .fault e) :
    e = .controlTransferInDelaySlot := by
  unfold State.delayedJump at h
  split at h <;> cases h
  rfl

theorem State.delayedJumpToRegister_fault {s : State} {x : Word} {e : Fault}
    (h : s.delayedJumpToRegister x = .fault e) : e = .controlTransferInDelaySlot ∨ e = .oddJumpTarget := by
  unfold State.delayedJumpToRegister at h
  split at h
  · cases h
    exact .inl rfl
  · split at h
    · cases h
      exact .inr rfl
    · exact .inl (State.delayedJump_fault h)

theorem State.takeException_fault {s : State} {x : Exc} {e : Fault} (h : s.takeException x = .fault e) :
    e = .controlTransferInDelaySlot := by
  unfold State.takeException at h
  split at h <;> cases h
  rfl

theorem State.privileged_eq_fault {s : State} {r : Result} {e : Fault} :
    s.privileged r = .fault e ↔
      (s.mode = .user ∧ e = .privilegedInUserMode) ∨ (s.mode = .supervisor ∧ r = .fault e) := by
  cases hmode : s.mode with
  | user => simp [State.privileged_of_user r hmode, eq_comm]
  | supervisor => simp [State.privileged_of_supervisor r hmode]

theorem State.writeQuotient_ne_fault (s : State) (a : RegId) (x : Word) (r : Option Word) (e : Fault) :
    s.writeQuotient a x r ≠ .fault e := by
  unfold State.writeQuotient
  split <;> nofun

/-- The three instructions that R331 names. -/
def isPrivileged (i : Instr) : Prop :=
  i = .rfe ∨ (∃ a b, i = .mtsr a b) ∨ ∃ a b, i = .mfsr a b

/-- All the faults of an instruction: a control transfer's, an access's, or the one for User mode. -/
theorem exec_eq_fault {i : Instr} {s : State} {e : Fault} (h : exec i s = .fault e) :
    e = .controlTransferInDelaySlot ∨ e = .oddJumpTarget ∨ (∃ w ea, s.mem.accessFault w ea = some e) ∨
      (e = .privilegedInUserMode ∧ s.mode = .user ∧ isPrivileged i) := by
  cases i with
  | bnf x | bf x => exact .inl (State.branch_fault h)
  | jmp x | jal x => exact .inl (State.delayedJump_fault h)
  | jr a | jalr a =>
    obtain he | he := State.delayedJumpToRegister_fault h
    · exact .inl he
    · exact .inr (.inl he)
  | brk m | sys m => exact .inl (State.takeException_fault h)
  | lw a n b | lhz n b | lbz n b | sw n a b | sh n a | sb n a | lwpain a n | lhzpain a n | lbzpain a n | swpai a b
  | shpai a b | sbpai a b | swpain n b | shpain n b | sbpain n b =>
    exact .inr (.inr (.inl ⟨_, _, (exec_eq_fault_of_accessOf rfl).mp h⟩))
  | rfe =>
    obtain ⟨hmode, he⟩ | ⟨-, h⟩ := State.privileged_eq_fault.mp h
    · exact .inr (.inr (.inr ⟨he, hmode, .inl rfl⟩))
    · cases h
  | mtsr a b =>
    obtain ⟨hmode, he⟩ | ⟨-, h⟩ := State.privileged_eq_fault.mp h
    · exact .inr (.inr (.inr ⟨he, hmode, .inr (.inl ⟨a, b, rfl⟩)⟩))
    · split at h <;> cases h
  | mfsr a b =>
    obtain ⟨hmode, he⟩ | ⟨-, h⟩ := State.privileged_eq_fault.mp h
    · exact .inr (.inr (.inr ⟨he, hmode, .inr (.inr ⟨a, b, rfl⟩)⟩))
    · split at h <;> cases h
  | divs a b | divu a b | mods a b | modu a b => exact absurd h (s.writeQuotient_ne_fault a _ _ e)
  | _ => cases h

theorem Memory.accessFault_ne_privileged (m : Memory) (w : Width) (ea : Word) :
    m.accessFault w ea ≠ some .privilegedInUserMode := by
  intro h
  obtain ⟨-, he⟩ | ⟨-, -, he⟩ := Memory.accessFault_eq_some.mp h
  · cases he
  · cases he

theorem exec_privileged_of_user {i : Instr} {s : State} (hmode : s.mode = .user) (hi : isPrivileged i) :
    exec i s = .fault .privilegedInUserMode := by
  obtain rfl | ⟨a, b, rfl⟩ | ⟨a, b, rfl⟩ := hi
  all_goals exact State.privileged_of_user _ hmode

/-- Settles O38: of all the faults an instruction can have, only the one of the privilege check is for the mode. -/
theorem privilegedInstructionsFaultInUserMode : Obligations.PrivilegedInstructionsFaultInUserMode := by
  intro i s
  constructor
  case mpr => exact fun ⟨hmode, hi⟩ => exec_privileged_of_user hmode hi
  case mp =>
    intro h
    obtain he | he | ⟨w, ea, he⟩ | ⟨-, hmode, hi⟩ := exec_eq_fault h
    · cases he
    · cases he
    · exact absurd he (Memory.accessFault_ne_privileged _ w ea)
    · exact ⟨hmode, hi⟩

/-! ### What an instruction does to the mode (R332) -/

theorem exec_keeps_mode {i : Instr} {s t : State} (h : exec i s = .next t) (hi : writesMode i = false) :
    t.mode = s.mode := by
  obtain ⟨u, hwrites, rfl⟩ | ⟨-, -, htransfers⟩ := exec_eq_next h
  · exact hwrites.mode hi
  · exact htransfers.mode hi

theorem exec_mode_cases {i : Instr} {s t : State} (h : exec i s = .next t) :
    t.mode = s.mode ∨
      (t.mode = .supervisor ∧ ((∃ m, i = .sys m ∧ t.pc = 0xC00) ∨ ∃ m, i = .brk m ∧ t.pc = 0xD00)) ∨
      (t.mode = .user ∧ i = .rfe) := by
  cases hi : writesMode i with
  | false => exact .inl (exec_keeps_mode h hi)
  | true =>
    cases i with
    | sys m =>
      obtain ⟨-, rfl⟩ := State.takeException_eq_next.mp h
      exact .inr (.inl ⟨rfl, .inl ⟨m, rfl, rfl⟩⟩)
    | brk m =>
      obtain ⟨-, rfl⟩ := State.takeException_eq_next.mp h
      exact .inr (.inl ⟨rfl, .inr ⟨m, rfl, rfl⟩⟩)
    | rfe =>
      obtain ⟨-, h⟩ := State.privileged_eq_next.mp h
      cases h
      exact .inr (.inr ⟨rfl, rfl⟩)
    | _ => cases hi

/-- Settles O39: a step keeps the mode, or its instruction is one of the three that write it. -/
theorem modeChangesOnlyByTrapsAndReturn : Obligations.ModeChangesOnlyByTrapsAndReturn := by
  intro s t hstep
  obtain ⟨w, i, hfetch, hdecode, h⟩ := step_eq_next.mp hstep
  obtain hsame | ⟨hsupervisor, htrap⟩ | ⟨huser, rfl⟩ := exec_mode_cases h
  · exact ⟨fun hs ht => by simp [hs, ht] at hsame, fun hs ht => by simp [hs, ht] at hsame⟩
  · refine ⟨fun _ _ => ?_, fun _ ht => by simp [hsupervisor] at ht⟩
    obtain ⟨m, rfl, hpc⟩ | ⟨m, rfl, hpc⟩ := htrap
    · exact ⟨w, m, hfetch, .inl ⟨hdecode, hpc⟩⟩
    · exact ⟨w, m, hfetch, .inr ⟨hdecode, hpc⟩⟩
  · exact ⟨fun _ ht => by simp [huser] at ht, fun _ _ => ⟨w, hfetch, hdecode⟩⟩

end Sys2Proof.Machine

/-! ## The mode is not read outside class 4 (60_exceptions.md R332, 20_memory.md R78)

To put another value into the mode before such an instruction is to put it there after it: no operation that the
instruction is made of touches the mode. The argument is the one made for DIVF (R238), here with class 4 left out. -/

namespace Sys2Proof.Machine

/-- The state with another mode. -/
def State.withMode (s : State) (m : Mode) : State :=
  { s with mode := m }

/-- The outcome with another mode in the next state, where there is one. -/
def withModeNext (m : Mode) : Result → Result
  | .next s => .next (s.withMode m)
  | .fault e => .fault e
  | .refused r => .refused r

theorem sameOutcome_withModeNext (m : Mode) (r : Result) :
    sameOutcome (fun t u => u = { t with mode := m }) r (withModeNext m r) := by
  cases r <;> exact rfl

section
variable (s : State) (m : Mode)

/-! ### Reads -/

@[simp] theorem State.withMode_getReg (a : RegId) : (s.withMode m).getReg a = s.getReg a := rfl
@[simp] theorem State.withMode_delay : (s.withMode m).delay = s.delay := rfl
@[simp] theorem State.withMode_mem : (s.withMode m).mem = s.mem := rfl
@[simp] theorem State.withMode_params : (s.withMode m).params = s.params := rfl
@[simp] theorem State.withMode_relativeTarget (x : BitVec 12) :
    (s.withMode m).relativeTarget x = s.relativeTarget x := rfl
@[simp] theorem State.withMode_readPair : (s.withMode m).readPair = s.readPair := rfl
@[simp] theorem State.withMode_memRead (w : Width) (ea : Word) : (s.withMode m).memRead w ea = s.memRead w ea := rfl

/-! ### Writes -/

theorem State.withMode_setRegOrAny (a : RegId) (v : Option Word) :
    (s.withMode m).setRegOrAny a v = (s.setRegOrAny a v).withMode m := by
  cases v <;> rfl

theorem State.withMode_setFlagOrAny (b : Option Bool) :
    (s.withMode m).setFlagOrAny b = (s.setFlagOrAny b).withMode m := by
  cases b <;> rfl

theorem State.withMode_writeCarry (c : Bool) : (s.withMode m).writeCarry c = (s.writeCarry c).withMode m := by
  simp only [State.writeCarry, State.withMode_params]
  cases s.params.carryPolicy <;> rfl

theorem State.withMode_link : (s.withMode m).link = s.link.withMode m := by
  simp only [State.link, State.writeLink, State.withMode_params]
  cases s.params.lrReg <;> rfl

theorem State.withMode_writePair (v : Word) : (s.withMode m).writePair v = (s.writePair v).withMode m := by
  simp only [State.writePair, State.withMode_params]
  cases s.params.pairAlias <;> rfl

theorem State.withMode_memWrite (w : Width) (ea v : Word) :
    (s.withMode m).memWrite w ea v = (s.memWrite w ea v).map (·.withMode m) := by
  simp only [State.memWrite, State.withMode_params, State.withMode_mem]
  cases s.mem.accessFault w ea <;> rfl

/-! ### Outcomes -/

variable {s m} in
theorem next_advance_withMode {t : State} (h : t = s.withMode m) :
    (.next t.advance : Result) = withModeNext m (.next s.advance) := by
  rw [h]
  rfl

theorem State.withMode_writeSum (a : RegId) (r : Word × Bool) :
    (s.withMode m).writeSum a r = withModeNext m (s.writeSum a r) :=
  next_advance_withMode ((s.setReg a r.1).withMode_writeCarry m r.2)

theorem State.withMode_writeQuotient (a : RegId) (x : Word) (r : Option Word) :
    (s.withMode m).writeQuotient a x r = withModeNext m (s.writeQuotient a x r) := by
  simp only [State.writeQuotient, State.withMode_setRegOrAny]
  by_cases hx : x = 0
  · rw [if_pos hx, if_pos hx]
    rfl
  · rw [if_neg hx, if_neg hx]
    rfl

theorem State.withMode_branch (c : Bool) (t : Word) :
    (s.withMode m).branch c t = withModeNext m (s.branch c t) := by
  simp only [State.branch, State.withMode_delay]
  cases s.delay with
  | some _ => rfl
  | none => cases c <;> rfl

theorem State.withMode_delayedJump (t : Word) :
    (s.withMode m).delayedJump t = withModeNext m (s.delayedJump t) := by
  simp only [State.delayedJump, State.withMode_delay]
  cases s.delay <;> rfl

theorem State.withMode_delayedJumpToRegister (t : Word) :
    (s.withMode m).delayedJumpToRegister t = withModeNext m (s.delayedJumpToRegister t) := by
  simp only [State.delayedJumpToRegister, State.withMode_delay, State.withMode_delayedJump]
  cases s.delay with
  | some _ => rfl
  | none => cases t.getLsbD 0 <;> rfl

theorem State.withMode_load (w : Width) (a : RegId) (ea : Word) :
    (s.withMode m).load w a ea = withModeNext m (s.load w a ea) := by
  simp only [State.load, State.withMode_memRead]
  cases s.memRead w ea <;> rfl

theorem State.withMode_loadThroughPair (w : Width) (a : RegId) (n : BitVec 4) :
    (s.withMode m).loadThroughPair w a n = withModeNext m (s.loadThroughPair w a n) := by
  simp only [State.loadThroughPair, State.withMode_readPair, State.withMode_memRead, State.withMode_writePair]
  cases s.memRead w s.readPair <;> rfl

theorem State.withMode_store (w : Width) (ea v : Word) :
    (s.withMode m).store w ea v = withModeNext m (s.store w ea v) := by
  simp only [State.store, State.withMode_memWrite]
  cases s.memWrite w ea v <;> rfl

theorem State.withMode_storePostIncrement (w : Width) (a b : RegId) :
    (s.withMode m).storePostIncrement w a b = withModeNext m (s.storePostIncrement w a b) := by
  simp only [State.storePostIncrement, State.withMode_getReg, State.withMode_memWrite]
  cases s.memWrite w (s.getReg a) (s.getReg b) <;> rfl

theorem State.withMode_storeThroughPair (w : Width) (n : BitVec 4) (b : RegId) :
    (s.withMode m).storeThroughPair w n b = withModeNext m (s.storeThroughPair w n b) := by
  simp only [State.storeThroughPair, State.withMode_getReg, State.withMode_readPair, State.withMode_memWrite]
  cases s.memWrite w s.readPair (s.getReg b) with
  | error e => rfl
  | ok t => exact next_advance_withMode (t.withMode_writePair m _)

end

/-- The cases left to `rfl` are the instructions whose meaning does not branch on the state. -/
theorem exec_withMode (i : Instr) (s : State) (m : Mode) (hi : isSystem i = false) :
    exec i (s.withMode m) = withModeNext m (exec i s) := by
  cases i with
  | brk k | sys k | rfe | mtsr a b | mfsr a b => cases hi
  | test a b => exact next_advance_withMode (s.withMode_setFlagOrAny m _)
  | clr a b | set a b => exact next_advance_withMode (s.withMode_setRegOrAny m a _)
  | adds a b d | subs a b | addu a b | subu a b | addwcs a b | subwcs a b => exact s.withMode_writeSum m a _
  | divs a b | divu a b | mods a b | modu a b => exact s.withMode_writeQuotient m a _ _
  | bnf x | bf x => exact s.withMode_branch m _ _
  | jmp x => exact s.withMode_delayedJump m _
  | jr a => exact s.withMode_delayedJumpToRegister m _
  | jal x =>
    simp only [exec, execJal, State.withMode_relativeTarget, State.withMode_link, State.withMode_delayedJump]
  | jalr a =>
    simp only [exec, execJalr, State.withMode_getReg, State.withMode_link, State.withMode_delayedJumpToRegister]
  | lw a n b => exact s.withMode_load m _ a _
  | lhz n b | lbz n b => exact s.withMode_load m _ _ _
  | lwpain a n | lhzpain a n | lbzpain a n => exact s.withMode_loadThroughPair m _ a n
  | sw n a b | sh n a | sb n a => exact s.withMode_store m _ _ _
  | swpai a b | shpai a b | sbpai a b => exact s.withMode_storePostIncrement m _ a b
  | swpain n b | shpain n b | sbpain n b => exact s.withMode_storeThroughPair m _ n b
  | _ => rfl

/-- Settles O40: the run in the other mode is the run itself with the other mode put into its next state. -/
theorem modeDoesNotMatterToUnprivilegedInstructions : Obligations.ModeDoesNotMatterToUnprivilegedInstructions := by
  intro i s m hi
  have hrun : exec i { s with mode := m } = withModeNext m (exec i s) := exec_withMode i s m hi
  rw [hrun]
  exact sameOutcome_withModeNext m _

end Sys2Proof.Machine

/-! ## The invariant after reset (70_reset_and_hazards.md R360) -/

namespace Sys2Proof.Machine

/-- The launch memory that lists nothing is in canonical form. -/
theorem Memory.blank_wf : Memory.blank.wf := by
  refine ⟨.nil, nofun, .nil, nofun, ?_⟩
  intro r hr
  obtain rfl := List.mem_singleton.mp hr
  exact Nat.le_of_eq (Nat.zero_add _)

/-- Any even RESET_PC will do: no jump is pending. -/
theorem State.resetWith_inv (p : Config.Params) {pc : Word} (mode : Mode) (hpc : pc.toNat % 2 = 0) :
    (State.resetWith p pc mode).Inv :=
  State.inv_iff.mpr ⟨Memory.blank_wf, hpc, nofun⟩

/-- Settles O58: the RESET_PC of the model is even. -/
theorem resetMeetsTheMachineInvariant : Obligations.ResetMeetsTheMachineInvariant :=
  State.resetWith_inv _ _ (by decide)

end Sys2Proof.Machine
